-- ==== Sys2Proof/Word.lean ====
section
/-! DEFINITION. The words of FCODEC: bytes, 16-bit counts, 32-bit registers, 14-bit window offsets (00_scope.md R11, R12). -/

namespace Sys2Proof

/-- A byte is 8 bits (R12). -/
abbrev Byte := BitVec 8

/-- A 16-bit field: COUNT, LENGTH, eng.idx, eng.end, XFER_COUNT.COUNT. -/
abbrev Half := BitVec 16

/-- A register, a command word, or the host bus data path (R11, R34). -/
abbrev Word := BitVec 32

/-- A byte offset in the 16 KiB window (R11, R80). -/
abbrev Offset := BitVec 14

end Sys2Proof
end

