-- ==== Sys2Proof/Config.lean ====
section
/-! DEFINITION. What is fixed for this block (00_scope.md R6 to R8), what its spec leaves open (R9, R53, R31: constants with no
body), and what the outside world can do to it: bus accesses and the steps of the five agents (10_state.md R30, R31). -/

namespace Sys2Proof

/-- The size of a host access: 1, 2 or 4 bytes (20_memory.md R80). -/
inductive Size where
  | byte
  | half
  | word
deriving DecidableEq, Repr, Inhabited

/-- One host bus transaction `(kind, addr, size, wdata)` (R80). Of a write's 32 data bits only the low `size` bytes are used. -/
inductive Access where
  | read (addr : Offset) (size : Size)
  | write (addr : Offset) (size : Size) (wdata : Word)
deriving DecidableEq, Repr, Inhabited

/-- One step of one agent (10_state.md R31), or a change of the `rst` pin (R30, R350). -/
inductive Event where
  /-- Host: one bus access, as a whole. -/
  | host (a : Access)
  /-- Engine: one step of the running command. -/
  | engine
  /-- LinkTx accepts the byte the Engine offers (R201). -/
  | linkTx
  /-- LinkRx offers one byte (R204). -/
  | linkRx (b : Byte)
  /-- Timer: the receive timeout fires (R207). -/
  | timer
  /-- The hardware reset input takes this level (R350). -/
  | rst (active : Bool)
deriving DecidableEq, Repr, Inhabited

namespace Config

/-- HDR_SIZE (R7). -/
@[simp] abbrev hdrSize : Nat := 8

/-- MAX_PAYLOAD: 1024 on this hardware (R6, 90_conflicts.md C2). -/
@[simp] abbrev maxPayload : Nat := 1024

/-- BUF_SIZE = HDR_SIZE + MAX_PAYLOAD (R7). -/
@[simp] abbrev bufSize : Nat := 1032

/-- RX_FIFO_DEPTH on this hardware: 64 (R8). The operations take the depth as an argument, and this is its default (log entry 11). -/
@[simp] abbrev rxFifoDepth : Nat := 64

/-- The depths a block may have (R8, 93_implementation_defined.md I5). -/
abbrev depthLegal (depth : Nat) : Prop := 1 ≤ depth ∧ depth ≤ 65535

/-- TIMEOUT_RESET, an OPEN parameter (R9, 93_implementation_defined.md I2): no value is chosen. -/
opaque timeoutReset : Word

/-- The draw of R53: what the buffer byte at a window offset holds after the `n`-th reset, under no law (I1). -/
opaque bufDraw : (n : Nat) → (addr : Nat) → Byte

/-- The free interleaving of R31: the `n`-th event that no agenda fixed. Any enabled step of any agent may be taken. -/
opaque freeEvent : (n : Nat) → Event

end Config

end Sys2Proof
end

