-- ==== Sys2Proof/Syntax.lean ====
section
/-! DEFINITION. The instructions of FCODEC: one constructor per row of the opcode table (30_encoding.md R122, 43_control.md). -/

namespace Sys2Proof

/-- A command word written to CMD (R120, R122) or an action word written to CTRL (10_state.md R35). The ignored bits of an
action word are kept as fields, so that no bit of an encoding is dropped. -/
inductive Instr where
  /-- ENCB: encode a frame into TXBUF (R165). -/
  | encb
  /-- DECB: decode the frame image in RXBUF[0..count) (R170). -/
  | decb (count : Half)
  /-- SEND: transmit TXBUF[0..count) (R210). -/
  | send (count : Half)
  /-- RECV: receive exactly `count` bytes into RXBUF[0..count) (R211). -/
  | recv (count : Half)
  /-- ENC: encode a frame, then transmit it (R240). -/
  | enc
  /-- DEC: receive a frame, then decode it (R245). -/
  | dec
  /-- ABORT: v[0] = 1, v[1] = 0; `flush` is v[2], applied after the abort (R280, R289); `ign` is v[31:3], ignored. -/
  | abort (flush : Bool) (ign : BitVec 29)
  /-- SRST: v[1] = 1 (R283); v[0], v[2] and v[31:3] are ignored (R289). -/
  | srst (v0 v2 : Bool) (ign : BitVec 29)
  /-- RXFLUSH: v[2] = 1, v[1] = 0; `abortFirst` is v[0], applied before the flush (R286, R289); `ign` is v[31:3], ignored. -/
  | rxflush (abortFirst : Bool) (ign : BitVec 29)
deriving DecidableEq, Repr

end Sys2Proof
end

