-- ==== Sys2Proof/WellFormed.lean ====
section
/-! DEFINITION. Well-formed instructions: a COUNT within the buffers (30_encoding.md R121, R124), and one spelling for the
action word that fits two rows of the table (43_control.md R289). -/

namespace Sys2Proof

/-- COUNT ≤ BUF_SIZE = 1032, which DECB, SEND and RECV need (R121). -/
def countInRange (count : Half) : Bool := count.toNat ≤ Config.bufSize

/-- A well-formed instruction. Every form runs, well-formed or not: a COUNT out of range ends in the COUNT error (R124). The
action word with v[2:0] = 5 is written ABORT with RXFLUSH, not RXFLUSH with ABORT (log entry 7). -/
def Instr.wellFormed : Instr → Bool
  | .encb => true
  | .decb count => countInRange count
  | .send count => countInRange count
  | .recv count => countInRange count
  | .enc => true
  | .dec => true
  | .abort _ _ => true
  | .srst _ _ _ => true
  | .rxflush abortFirst _ => !abortFirst

/-- The one spelling of an instruction that the decoder answers with (log entry 7). -/
def Instr.canonical : Instr → Instr
  | .rxflush true ign => .abort true ign
  | .rxflush false ign => .rxflush false ign
  | .encb => .encb
  | .decb count => .decb count
  | .send count => .send count
  | .recv count => .recv count
  | .enc => .enc
  | .dec => .dec
  | .abort flush ign => .abort flush ign
  | .srst v0 v2 ign => .srst v0 v2 ign

end Sys2Proof
end

