-- ==== Sys2Proof/Decode.lean ====
section
/-! DEFINITION. Decoding and encoding of command and action words (30_encoding.md R120 to R126, 10_state.md R35, 43_control.md
R289). Decoding is total; a word that is no instruction is rejected by name. -/

namespace Sys2Proof

/-- The register a word is written to: it decides how the word is read (R36, R35). -/
inductive Port where
  | cmd
  | ctrl
deriving DecidableEq, Repr

/-- What the decoder reads from a word. -/
inductive Decoded where
  /-- An instruction of the table. -/
  | instr (i : Instr)
  /-- A CMD word that is ILLEGAL (R123), with its OP field, which RESULT records (R127). -/
  | illegal (op : BitVec 4)
  /-- A CTRL word with v[2:0] = 0: it does nothing (R35, R289). -/
  | noAction
deriving DecidableEq, Repr

/-- The OP field of a command word, w[3:0] (R120). -/
def opField (w : Word) : BitVec 4 := w.extractLsb' 0 4

/-- The RSVD field of a command word, w[15:4] (R120). -/
def rsvdField (w : Word) : BitVec 12 := w.extractLsb' 4 12

/-- The COUNT field of a command word, w[31:16] (R120, R121). -/
def countField (w : Word) : Half := w.extractLsb' 16 16

/-- Reading a word written to CMD (R122, R123). -/
def decodeCmdWord (w : Word) : Decoded :=
  if rsvdField w ≠ 0 then .illegal (opField w)
  else if opField w = 1 then (if countField w = 0 then .instr .encb else .illegal (opField w))
  else if opField w = 2 then .instr (.decb (countField w))
  else if opField w = 3 then .instr (.send (countField w))
  else if opField w = 4 then .instr (.recv (countField w))
  else if opField w = 5 then (if countField w = 0 then .instr .enc else .illegal (opField w))
  else if opField w = 6 then (if countField w = 0 then .instr .dec else .illegal (opField w))
  else .illegal (opField w)

/-- Reading a word written to CTRL (R35, R289): SRST first, then ABORT, then RXFLUSH. -/
def decodeCtrlWord (v : Word) : Decoded :=
  if v.getLsbD 1 then .instr (.srst (v.getLsbD 0) (v.getLsbD 2) (v.extractLsb' 3 29))
  else if v.getLsbD 0 then .instr (.abort (v.getLsbD 2) (v.extractLsb' 3 29))
  else if v.getLsbD 2 then .instr (.rxflush false (v.extractLsb' 3 29))
  else .noAction

/-- Reading a word written to a port. -/
def decode : Port → Word → Decoded
  | .cmd, w => decodeCmdWord w
  | .ctrl, w => decodeCtrlWord w

/-- The port an instruction's word is written to (R36, R35). -/
def portOf : Instr → Port
  | .encb | .decb _ | .send _ | .recv _ | .enc | .dec => .cmd
  | .abort _ _ | .srst _ _ _ | .rxflush _ _ => .ctrl

/-- A command word from its fields: `(COUNT << 16) | OP` (R120, R131). -/
def cmdWord (op : BitVec 4) (count : Half) : Word := (count.setWidth 32 <<< 16) ||| op.setWidth 32

/-- An action word from its bits (R35). -/
def ctrlWord (ign : BitVec 29) (v2 v1 v0 : Bool) : Word :=
  (ign.setWidth 32 <<< 3) ||| ((BitVec.ofBool v2).setWidth 32 <<< 2) ||| ((BitVec.ofBool v1).setWidth 32 <<< 1) |||
    (BitVec.ofBool v0).setWidth 32

/-- The word of an instruction (30_encoding.md R122, R131; 43_control.md R280, R283, R286). -/
def encode : Instr → Word
  | .encb => cmdWord 1 0
  | .decb count => cmdWord 2 count
  | .send count => cmdWord 3 count
  | .recv count => cmdWord 4 count
  | .enc => cmdWord 5 0
  | .dec => cmdWord 6 0
  | .abort flush ign => ctrlWord ign flush false true
  | .srst v0 v2 ign => ctrlWord ign v2 true v0
  | .rxflush abortFirst ign => ctrlWord ign true false abortFirst

/-- The opcodes of commands whose COUNT is a byte count (R124). -/
def opTakesCount (op : BitVec 4) : Bool := op = 2 || op = 3 || op = 4

/-- The answer of the spec's own `decodeCmd` (R125). -/
inductive CmdDecode where
  | illegal
  | countError (op : BitVec 4)
  | cmd (op : BitVec 4) (count : Half)
deriving DecidableEq, Repr

/-- The spec's `decodeCmd`, total over all 2^32 words (R125). -/
def decodeCmd (w : Word) : CmdDecode :=
  match decodeCmdWord w with
  | .instr _ =>
    if opTakesCount (opField w) && !countInRange (countField w) then .countError (opField w)
    else .cmd (opField w) (countField w)
  | _ => .illegal

/-- The match and mask pairs of R126 for commands and of opcode_table.json for actions, by mnemonic. -/
def matchMask : List (String × Port × Word × Word) :=
  [("ENCB", .cmd, 0x00000001, 0xFFFFFFFF), ("DECB", .cmd, 0x00000002, 0x0000FFFF),
   ("SEND", .cmd, 0x00000003, 0x0000FFFF), ("RECV", .cmd, 0x00000004, 0x0000FFFF),
   ("ENC", .cmd, 0x00000005, 0xFFFFFFFF), ("DEC", .cmd, 0x00000006, 0xFFFFFFFF),
   ("ABORT", .ctrl, 0x00000001, 0x00000003), ("SRST", .ctrl, 0x00000002, 0x00000002),
   ("RXFLUSH", .ctrl, 0x00000004, 0x00000006)]

/-- The port a bare word is taken for where nothing says which register it is written to: CMD for a legal command word, else
CTRL for an action word, else CMD (log entry 6). The machine itself never guesses: a host write names its offset. -/
def guessPort (w : Word) : Port :=
  match decodeCmdWord w, decodeCtrlWord w with
  | .instr _, _ => .cmd
  | _, .instr _ => .ctrl
  | _, _ => .cmd

/-- The word of `nbits` bits, the bits above being 0. -/
def tableWord (nbits w : Nat) : Word := BitVec.ofNat 32 (w % 2 ^ nbits)

/-- The host's view of the decoder on a bare word (log entry 6). -/
def decodeTableWord (nbits w : Nat) : Option Instr :=
  match decode (guessPort (tableWord nbits w)) (tableWord nbits w) with
  | .instr i => some i
  | .illegal _ => none
  | .noAction => none

end Sys2Proof
end

