-- ==== Sys2Proof/Machine/State.lean ====
section
/-! DEFINITION. The state of FCODEC: the whole record of 10_state.md R59, and the model's own fields (log entries 1, 3, 4, 5). -/

namespace Sys2Proof.Machine

/-- `eng.op`: the running command, NONE when idle (R33). -/
inductive EngOp where
  | none
  | encb
  | decb
  | send
  | recv
  | enc
  | dec
deriving DecidableEq, Repr

/-- `eng.phase` (R33). -/
inductive Phase where
  | idle
  | build
  | parse
  | tx
  | rxRaw
  | rxHdr
  | rxPay
deriving DecidableEq, Repr

/-- The Engine state, FCODEC's only sequencing state (R33). -/
structure Eng where
  op : EngOp
  phase : Phase
  /-- The next buffer index to transmit or fill. -/
  idx : Half
  /-- `eng.end`: the index at which the current phase ends. -/
  endIdx : Half
deriving DecidableEq, Repr

/-- The Engine at rest (R33, R305). -/
@[simp] abbrev Eng.idle : Eng := { op := .none, phase := .idle, idx := 0, endIdx := 0 }

/-- The error codes a command ends with; NONE is success (60_exceptions.md R300). -/
inductive ErrCode where
  | none
  | illegal
  | count
  | length
  | status
  | timeout
  | framingHdr
  | framingPay
  | aborted
deriving DecidableEq, Repr

/-- The registers of the register page (R34). -/
inductive Reg where
  | ctrl
  | cmd
  | status
  | result
  | xferCount
  | irqStatus
  | irqEnable
  | rxTimeout
  | txId
  | txHdr
  | rxId
  | rxHdr
  | rxCsum
  | caps
deriving DecidableEq, Repr

/-- Why an access or a step ends in an error outcome. -/
inductive Fault where
  /-- `raise BusError(addr)` (20_memory.md R86): raised by a host access to a reserved offset (R49) or with a width or alignment
  that R85 forbids. It is the outcome of that access (`BusResponse.error`); no step stops with it, because the block's state
  does not change and the block goes on (log entry 5). Safe: the spec states this outcome and its whole effect. -/
  | busError (addr : Offset)
deriving DecidableEq, Repr

/-- Why an instruction has no meaning in the model. -/
inductive Refusal where
  /-- An instruction with no meaning yet, by its mnemonic; raised by no arm of `exec`, since every row has its meaning. Safe. -/
  | notModelled (mnemonic : String)
deriving DecidableEq, Repr

/-- The response to a host access (R80): OK, with data for a read, or ERROR. -/
inductive BusResponse where
  | ok
  | data (v : Word)
  | error (f : Fault)
deriving DecidableEq, Repr

/-- The bytes of TXBUF and RXBUF written since the last reset, by window offset, offsets strictly rising (R51, R52, R58). -/
abbrev Memory := List Host.Cell

/-- The whole state: the record of R59, then the model's own fields. -/
@[ext]
structure State where
  eng : Eng
  /-- The last CMD word accepted while idle (R36). -/
  cmdLast : Word
  /-- RESULT (R38). -/
  result : Word
  /-- XFER_COUNT.COUNT (R39). -/
  xferCount : Half
  /-- IRQ_STATUS[3:0] (R40). -/
  irqStatus : BitVec 4
  /-- IRQ_ENABLE[3:0] (R41). -/
  irqEnable : BitVec 4
  /-- RX_TIMEOUT (R42). -/
  rxTimeout : Word
  /-- TX_ID (R43). -/
  txId : Word
  /-- TX_HDR.STATUS (R44). -/
  txStatus : Byte
  /-- TX_HDR.CSUM (R44). -/
  txCsum : Byte
  /-- TX_HDR.LENGTH (R44). -/
  txLength : Half
  /-- RX_ID (R45). -/
  rxId : Word
  /-- RX_HDR.STATUS (R46). -/
  rxStatus : Byte
  /-- RX_HDR.CSUM (R46). -/
  rxCsumHdr : Byte
  /-- RX_HDR.LENGTH (R46). -/
  rxLength : Half
  /-- RX_CSUM.CALC (R47). -/
  rxCsumCalc : Byte
  /-- TXBUF and RXBUF (R51, R52). -/
  mem : Memory
  /-- The RX FIFO, oldest byte first (R54). -/
  rxq : List Byte
  /-- The bytes LinkTx has accepted since the hardware reset, oldest first (R55). -/
  txOut : List Byte
  /-- The model's own: how many resets came before; the index of the buffers' free draws (R53, log entry 1). -/
  draws : Nat
  /-- The model's own: the level of the `rst` pin (R350, log entry 4). -/
  rstActive : Bool
  /-- The model's own: the events to come, in order (R31, log entry 3). -/
  agenda : List Event
  /-- The model's own: how many events were taken from the free interleaving (R31, log entry 3). -/
  sched : Nat
  /-- The model's own: the response to the latest host access (R80, log entry 5). -/
  busResp : Option BusResponse
deriving DecidableEq, Repr

/-- FCODEC right after the hardware reset (R59, 70_reset_and_hazards.md R350, R351), with `rst` released (R353). -/
def State.reset : State where
  eng := Eng.idle
  cmdLast := 0
  result := 0
  xferCount := 0
  irqStatus := 0
  irqEnable := 0
  rxTimeout := Config.timeoutReset
  txId := 0
  txStatus := 0
  txCsum := 0
  txLength := 0
  rxId := 0
  rxStatus := 0
  rxCsumHdr := 0
  rxLength := 0
  rxCsumCalc := 0
  mem := []
  rxq := []
  txOut := []
  draws := 0
  rstActive := false
  agenda := []
  sched := 0
  busResp := Option.none

end Sys2Proof.Machine
end

