-- ==== Sys2Proof/Machine/Flags.lean ====
section
/-! DEFINITION. Every flag computation of the spec: BUSY and the opcode of `eng.op` (10_state.md R37), the four IRQ_STATUS bits and the
`irq` line (R40, R57), the checksum and its comparison, and the fields of RESULT (R38, 40_frame_codec.md R160, R164). -/

namespace Sys2Proof.Machine

/-- The opcode of a command, as written in CMD bits 3:0; 0 for NONE (30_encoding.md R122, R37). -/
def EngOp.code : EngOp → BitVec 4
  | .none => 0
  | .encb => 1
  | .decb => 2
  | .send => 3
  | .recv => 4
  | .enc => 5
  | .dec => 6

/-- The number of an error code (60_exceptions.md R300). -/
def ErrCode.code : ErrCode → Byte
  | .none => 0
  | .illegal => 1
  | .count => 2
  | .length => 3
  | .status => 4
  | .timeout => 5
  | .framingHdr => 6
  | .framingPay => 7
  | .aborted => 8

/-- STATUS.BUSY: the Engine is busy exactly when its phase is not Idle (R33, R37). -/
def State.busy (s : State) : Bool := s.eng.phase ≠ .idle

/-- IRQ_STATUS.DONE, bit 0 (R40). -/
def irqDone : BitVec 4 := 1

/-- IRQ_STATUS.ERR, bit 1 (R40). -/
def irqErr : BitVec 4 := 2

/-- IRQ_STATUS.OVR, bit 2 (R40). -/
def irqOvr : BitVec 4 := 4

/-- IRQ_STATUS.BSYERR, bit 3 (R40). -/
def irqBsyErr : BitVec 4 := 8

/-- The IRQ_STATUS bit a completion sets: DONE for NONE, ERR for every other code (R305). -/
def completionIrq (c : ErrCode) : BitVec 4 := if c = .none then irqDone else irqErr

/-- The `irq` output: high exactly when an enabled event is pending (R57, R308). -/
def State.irq (s : State) : Bool := s.irqStatus &&& s.irqEnable ≠ 0

/-- The closed set of status codes, FIN = 1 to BAD = 5 (40_frame_codec.md R164). -/
def knownStatus (st : Byte) : Bool := 1 ≤ st.toNat && st.toNat ≤ 5

/-- The additive checksum of a byte list (R160). -/
def csum (bs : List Byte) : Byte := BitVec.ofNat 8 (bs.map BitVec.toNat).sum

/-- The RESULT word: OP at 19:16, UNKSTAT at 9, CSUM_MATCH at 8, ERR_CODE at 7:0 (60_exceptions.md R305, 10_state.md R38). -/
def resultWord (op : BitVec 4) (c : ErrCode) (csumMatch unkstat : Bool) : Word :=
  (op.setWidth 32 <<< 16) ||| ((BitVec.ofBool unkstat).setWidth 32 <<< 9) ||| ((BitVec.ofBool csumMatch).setWidth 32 <<< 8) |||
    c.code.setWidth 32

end Sys2Proof.Machine
end

