-- ==== Sys2Proof/Machine/Ops.lean ====
section
/-! DEFINITION. The named operations over memory and registers: byte order (20_memory.md R82), the buffers (10_state.md R51 to R53), the
completion primitive `finish`, which plays the part of taking an exception (60_exceptions.md R305), acknowledgment beside it (R307),
acceptance of a command (30_encoding.md R127, R128) and the resets (70_reset_and_hazards.md R350, R352). -/

namespace Sys2Proof.Machine

/-! ### Byte order (R14, R82, R83) -/

/-- The `n`-byte little-endian image of a value: byte k is bits 8k+7 to 8k (R14, R82). -/
def leBytes {w : Nat} (n : Nat) (v : BitVec w) : List Byte := (List.range n).map fun k => v.extractLsb' (8 * k) 8

/-- The number a little-endian byte list stands for (R14). -/
def fromLE : List Byte → Nat
  | [] => 0
  | b :: bs => b.toNat + 256 * fromLE bs

/-! ### The buffers -/

/-- The offset of TXBUF[0] (R51). -/
@[simp] abbrev txBase : Nat := 0x1000

/-- The offset of RXBUF[0] (R52). -/
@[simp] abbrev rxBase : Nat := 0x2000

/-- The offsets that hold a buffer byte (R81). -/
def isBufAddr (a : Nat) : Bool :=
  (txBase ≤ a && a < txBase + Config.bufSize) || (rxBase ≤ a && a < rxBase + Config.bufSize)

/-- The byte listed at an offset, if one is. -/
def Memory.lookup : Memory → Nat → Option Byte
  | [], _ => none
  | (k, v) :: m, a => if k = a then some v else Memory.lookup m a

/-- Listing a byte at an offset, offsets kept strictly rising. -/
def Memory.write : Memory → Nat → Byte → Memory
  | [], a, b => [(a, b)]
  | (k, v) :: m, a, b =>
    if a < k then (a, b) :: (k, v) :: m else if a = k then (a, b) :: m else (k, v) :: Memory.write m a b

/-- The canonical form: offsets strictly rising, each of a buffer byte. An offset is listed exactly when its byte was written since
the last reset, which R58 counts as state (log entry 1). -/
abbrev Memory.wf (m : Memory) : Prop := m.Pairwise (fun c d => c.1 < d.1) ∧ ∀ c ∈ m, isBufAddr c.1 = true

/-- What an unlisted offset reads as: its draw at the last reset (R53). -/
def unwritten (draws a : Nat) : Byte := Config.bufDraw draws a

/-- The buffer byte at a window offset (R53, R87). -/
def State.readByte (s : State) (a : Nat) : Byte := (Memory.lookup s.mem a).getD (unwritten s.draws a)

/-- Writing the buffer byte at a window offset. -/
def State.writeByte (s : State) (a : Nat) (b : Byte) : State := { s with mem := Memory.write s.mem a b }

/-- The `n` buffer bytes from an offset on, lowest first. -/
def State.readBytes (s : State) (a n : Nat) : List Byte := (List.range n).map fun k => s.readByte (a + k)

/-- Writing a list of buffer bytes from an offset on, in ascending order (R93). -/
def State.writeBytes (s : State) (a : Nat) : List Byte → State
  | [] => s
  | b :: bs => State.writeBytes (s.writeByte a b) (a + 1) bs

/-- TXBUF[i..i+n) (R15). -/
def State.txBytes (s : State) (i n : Nat) : List Byte := s.readBytes (txBase + i) n

/-- RXBUF[i..i+n) (R15). -/
def State.rxBytes (s : State) (i n : Nat) : List Byte := s.readBytes (rxBase + i) n

/-! ### Events, completion, acknowledgment -/

/-- Setting sticky IRQ_STATUS bits (R40). -/
def State.setIrq (s : State) (bits : BitVec 4) : State := { s with irqStatus := s.irqStatus ||| bits }

/-- The event "a host write was ignored because the Engine was busy" (R40, 70_reset_and_hazards.md R360). -/
def State.busyError (s : State) : State := s.setIrq irqBsyErr

/-- `finish` with the OP field given: it writes RESULT, sets DONE or ERR, and returns the Engine to Idle; XFER_COUNT is left as it
stands (R305). Errors found at acceptance pass the word's own OP field (R127). -/
def State.finishAs (s : State) (op : BitVec 4) (c : ErrCode) (csumMatch unkstat : Bool) : State :=
  { s with
    result := resultWord op c csumMatch unkstat
    irqStatus := s.irqStatus ||| completionIrq c
    eng := Eng.idle }

/-- `finish(code, csum_match, unkstat)`: the single completion primitive (R305). -/
def State.finish (s : State) (c : ErrCode) (csumMatch unkstat : Bool) : State :=
  s.finishAs s.eng.op.code c csumMatch unkstat

/-- `finish(code)`, with csum_match = unkstat = 0 (R305). -/
def State.finishPlain (s : State) (c : ErrCode) : State := s.finish c false false

/-- Acknowledgment, the analogue of return from a trap: the W1C write of IRQ_STATUS clears exactly the bits written as 1
(R307, R40, 20_memory.md R98). -/
def State.ackIrq (s : State) (bits : BitVec 4) : State := { s with irqStatus := s.irqStatus &&& ~~~bits }

/-! ### Acceptance (30_encoding.md R127, R128) -/

/-- The Engine right after a command is accepted: the table of R128. -/
def startEng (op : EngOp) (count : Half) : Eng :=
  match op with
  | .none => Eng.idle
  | .encb => { op := .encb, phase := .build, idx := 0, endIdx := 0 }
  | .decb => { op := .decb, phase := .parse, idx := 0, endIdx := count }
  | .send => { op := .send, phase := .tx, idx := 0, endIdx := count }
  | .recv => { op := .recv, phase := .rxRaw, idx := 0, endIdx := count }
  | .enc => { op := .enc, phase := .build, idx := 0, endIdx := 0 }
  | .dec => { op := .dec, phase := .rxHdr, idx := 0, endIdx := 8 }

/-- Acceptance's first part (R127): a word written while busy is ignored and sets BSYERR; else CMD reads it back and XFER_COUNT is 0. -/
def State.accept (s : State) (w : Word) (k : State → State) : State :=
  if s.busy then s.busyError else k { s with cmdLast := w, xferCount := 0 }

/-- Starting the Engine on a command (R127, R128). -/
def State.startCmd (s : State) (op : EngOp) (count : Half) : State := { s with eng := startEng op count }

/-- Starting a command whose COUNT must be at most BUF_SIZE; a larger one ends at once with COUNT (R124, R127). -/
def State.startCounted (s : State) (op : EngOp) (count : Half) : State :=
  if count.toNat > Config.bufSize then s.finishAs op.code .count false false else s.startCmd op count

/-- Acceptance of an ILLEGAL word: it ends at once with ILLEGAL and the word's own OP field (R123, R127). -/
def State.acceptIllegal (s : State) (w : Word) : State :=
  s.accept w fun t => t.finishAs (opField w) .illegal false false

/-! ### Resets (70_reset_and_hazards.md R350, R352) -/

/-- The reset of R350 on every field of R59 except txOut: SRST (43_control.md R283, R352). The buffers take fresh draws (R53). -/
def State.softReset (s : State) : State :=
  { State.reset with
    txOut := s.txOut
    draws := s.draws + 1
    rstActive := s.rstActive
    agenda := s.agenda
    sched := s.sched
    busResp := s.busResp }

/-- The hardware reset: every field of R59 takes its reset value, the buffers fresh draws (R350, R53). What is yet to happen
outside the block is not reset. -/
def State.hardReset (s : State) : State :=
  { State.reset with
    draws := s.draws + 1
    agenda := s.agenda
    sched := s.sched }

/-- Applying a state change to the next state of an outcome. -/
def onNext (f : State → State) : Host.Outcome State Fault Refusal → Host.Outcome State Fault Refusal
  | .next s => .next (f s)
  | .fault r => .fault r
  | .refused r => .refused r

end Sys2Proof.Machine
end

