-- ==== Sys2Proof/Machine/Operands.lean ====
section
/-! DEFINITION. Operand forms: the frame header and payload in the buffers (40_frame_codec.md R161 to R163), the values of the
registers (10_state.md R34 to R48), and how a host access finds its target (20_memory.md R81, R85). -/

namespace Sys2Proof.Machine

/-! ### Frames -/

/-- The 8 header bytes of a frame (R161). -/
def headerBytes (id : Word) (st c : Byte) (len : Half) : List Byte := leBytes 4 id ++ [st, c] ++ leBytes 2 len

/-- The frame image of (id, st, pl) (R162). -/
def frame (id : Word) (st : Byte) (pl : List Byte) : List Byte :=
  headerBytes id st (csum pl) (BitVec.ofNat 16 pl.length) ++ pl

/-- The payload operand of ENCB and ENC: TXBUF[8..8+TX_HDR.LENGTH) (R163, R165). -/
def State.txPayload (s : State) : List Byte := s.txBytes 8 s.txLength.toNat

/-- The payload a decode sums: RXBUF[8..8+RX_HDR.LENGTH) (R170, R247). -/
def State.rxPayload (s : State) : List Byte := s.rxBytes 8 s.rxLength.toNat

/-! ### Register values (10_state.md R35 to R48) -/

/-- STATUS, every field computed from other state: RX_LEVEL at 31:16, OP at 7:4, BUSY at 0 (R37). -/
def State.statusReg (s : State) : Word :=
  (BitVec.ofNat 32 s.rxq.length <<< 16) ||| (s.eng.op.code.setWidth 32 <<< 4) ||| (BitVec.ofBool s.busy).setWidth 32

/-- A header register: LENGTH at 31:16, CSUM at 15:8, STATUS at 7:0 (R44, R46). -/
def hdrWord (len : Half) (c st : Byte) : Word := (len.setWidth 32 <<< 16) ||| (c.setWidth 32 <<< 8) ||| st.setWidth 32

/-- TX_HDR (R44). -/
def State.txHdrReg (s : State) : Word := hdrWord s.txLength s.txCsum s.txStatus

/-- RX_HDR (R46). -/
def State.rxHdrReg (s : State) : Word := hdrWord s.rxLength s.rxCsumHdr s.rxStatus

/-- CAPS, a constant of the block: FIFO_DEPTH at 31:16, MAX_PAYLOAD at 15:0 (R48, 00_scope.md R8). -/
def capsReg (depth : Nat := Config.rxFifoDepth) : Word := (BitVec.ofNat 32 depth <<< 16) ||| BitVec.ofNat 32 Config.maxPayload

/-- The value a host read of a register returns (R87). -/
def State.readReg (s : State) (r : Reg) (depth : Nat := Config.rxFifoDepth) : Word :=
  match r with
  | .ctrl => 0
  | .cmd => s.cmdLast
  | .status => s.statusReg
  | .result => s.result
  | .xferCount => s.xferCount.setWidth 32
  | .irqStatus => s.irqStatus.setWidth 32
  | .irqEnable => s.irqEnable.setWidth 32
  | .rxTimeout => s.rxTimeout
  | .txId => s.txId
  | .txHdr => s.txHdrReg
  | .rxId => s.rxId
  | .rxHdr => s.rxHdrReg
  | .rxCsum => s.rxCsumCalc.setWidth 32
  | .caps => capsReg depth

/-- A host write of a register that issues no instruction (R34, R40 to R44): read-only registers ignore it, TX_ID and TX_HDR ignore it
while busy and set BSYERR, TX_HDR.CSUM is never written. CMD and CTRL are not written this way. -/
def State.writeReg (s : State) (r : Reg) (v : Word) : State :=
  match r with
  | .irqStatus => s.ackIrq (v.extractLsb' 0 4)
  | .irqEnable => { s with irqEnable := v.extractLsb' 0 4 }
  | .rxTimeout => { s with rxTimeout := v }
  | .txId => if s.busy then s.busyError else { s with txId := v }
  | .txHdr =>
    if s.busy then s.busyError else { s with txStatus := v.extractLsb' 0 8, txLength := v.extractLsb' 16 16 }
  | .ctrl | .cmd | .status | .result | .xferCount | .rxId | .rxHdr | .rxCsum | .caps => s

/-! ### Where an access goes (R81, R85) -/

/-- The number of bytes of an access size (R80). -/
def sizeBytes : Size → Nat
  | .byte => 1
  | .half => 2
  | .word => 4

/-- The register at an offset (R34). -/
def regAt (a : Nat) : Option Reg :=
  if a = 0x00 then some .ctrl
  else if a = 0x04 then some .cmd
  else if a = 0x08 then some .status
  else if a = 0x0C then some .result
  else if a = 0x10 then some .xferCount
  else if a = 0x14 then some .irqStatus
  else if a = 0x18 then some .irqEnable
  else if a = 0x1C then some .rxTimeout
  else if a = 0x20 then some .txId
  else if a = 0x24 then some .txHdr
  else if a = 0x28 then some .rxId
  else if a = 0x2C then some .rxHdr
  else if a = 0x30 then some .rxCsum
  else if a = 0x34 then some .caps
  else none

/-- The register an access reaches: a register access has size 4 and an offset that is a register's (R85, R34). -/
def accessReg (addr : Offset) (size : Size) : Option Reg :=
  if size = .word then regAt addr.toNat else none

/-- An access that reaches a buffer: its offset is a buffer byte's and a multiple of its size (R85). -/
def accessBuf (addr : Offset) (size : Size) : Bool :=
  isBufAddr addr.toNat && addr.toNat % sizeBytes size = 0

/-- The value of a buffer read, little-endian, zero-extended to the data path (R82, R87, R13). -/
def State.readBuf (s : State) (addr : Offset) (size : Size) : Word :=
  BitVec.ofNat 32 (fromLE (s.readBytes addr.toNat (sizeBytes size)))

/-- A host write of a buffer: while busy it stores nothing and sets BSYERR (R88). -/
def State.writeBuf (s : State) (addr : Offset) (size : Size) (wdata : Word) : State :=
  if s.busy then s.busyError else s.writeBytes addr.toNat (leBytes (sizeBytes size) wdata)

end Sys2Proof.Machine
end

