-- ==== Sys2Proof/Machine/Codec.lean ====
section
/-! DEFINITION. The frame codec: ENCB and DECB (40_frame_codec.md), and the encode and decode parts that ENC and DEC share with them
(42_frame_pipeline.md R240, R246, R247). -/

namespace Sys2Proof.Machine

/-! ### Encoding -/

/-- The operand check of ENCB and ENC: LENGTH, then STATUS (R166). -/
def State.encodeError (s : State) : ErrCode :=
  if s.txLength.toNat > Config.maxPayload then .length
  else if !knownStatus s.txStatus then .status
  else .none

/-- What a successful ENCB or ENC writes: TXBUF[0..8) and TX_HDR.CSUM (R167). -/
def State.buildHeader (s : State) : State :=
  { s.writeBytes txBase (headerBytes s.txId s.txStatus (csum s.txPayload) s.txLength) with txCsum := csum s.txPayload }

/-- Build on the success path of ENCB: the header, XFER_COUNT = 8 + len, finish(NONE) (R165). -/
def State.encbBuilt (s : State) : State :=
  { s.buildHeader with xferCount := 8 + s.txLength }.finishPlain .none

/-- The Build step of ENCB (R165). -/
def State.encbBuild (s : State) : State :=
  if s.encodeError = .none then s.encbBuilt else s.finishPlain s.encodeError

/-! ### Decoding -/

/-- RX_ID and RX_HDR take the 8 header bytes RXBUF[0..8) (R170, R172, R246). -/
def State.latchHeader (s : State) : State :=
  { s with
    rxId := BitVec.ofNat 32 (fromLE (s.rxBytes 0 4))
    rxStatus := s.readByte (rxBase + 4)
    rxCsumHdr := s.readByte (rxBase + 5)
    rxLength := BitVec.ofNat 16 (fromLE (s.rxBytes 6 2)) }

/-- The end of a successful decode: RX_CSUM takes the payload's checksum, and the comparison and the unknown-status flag are reported
(R170, R174, R175, R247). -/
def State.decodeDone (s : State) : State :=
  { s with rxCsumCalc := csum s.rxPayload }.finish .none (csum s.rxPayload = s.rxCsumHdr) (!knownStatus s.rxStatus)

/-- The rest of the Parse step once the header is latched (R170, R171, R173). -/
def State.decbPayload (s : State) : State :=
  if s.rxLength.toNat > Config.maxPayload then s.finishPlain .length
  else if s.eng.endIdx.toNat < 8 + s.rxLength.toNat then s.finishPlain .framingPay
  else { s with xferCount := 8 + s.rxLength }.decodeDone

/-- The Parse step of DECB, with COUNT in `eng.end` (R170). -/
def State.decbParse (s : State) : State :=
  if s.eng.endIdx.toNat < 8 then s.finishPlain .framingHdr
  else { s.latchHeader with xferCount := 8 }.decbPayload

/-! ### Meanings -/

/-- ENCB, the write of its word to CMD (R127, R128, R165). -/
def execEncb (s : State) : Host.Outcome State Fault Refusal :=
  .next (s.accept (encode .encb) fun t => t.startCmd .encb 0)

/-- DECB, the write of its word to CMD (R124, R127, R128, R170). -/
def execDecb (count : Half) (s : State) : Host.Outcome State Fault Refusal :=
  .next (s.accept (encode (.decb count)) fun t => t.startCounted .decb count)

end Sys2Proof.Machine
end

