-- ==== Sys2Proof/Machine/Control.lean ====
section
/-! DEFINITION. The control actions ABORT, SRST and RXFLUSH (43_control.md). -/

namespace Sys2Proof.Machine

/-- The ABORT action: a busy Engine ends with ABORTED, XFER_COUNT kept; an idle one is left alone (R280). -/
def State.abort (s : State) : State := if s.busy then s.finishPlain .aborted else s

/-- The RXFLUSH action: it empties the FIFO when idle; when busy it is ignored and sets BSYERR (R286). -/
def State.rxFlush (s : State) : State := if s.busy then s.busyError else { s with rxq := [] }

/-- ABORT, then RXFLUSH when v[2] is set (R280, R289). -/
def execAbort (flush : Bool) (_ign : BitVec 29) (s : State) : Host.Outcome State Fault Refusal :=
  .next (if flush then s.abort.rxFlush else s.abort)

/-- SRST; nothing else of the same write happens (R283, R289). -/
def execSrst (_v0 _v2 : Bool) (_ign : BitVec 29) (s : State) : Host.Outcome State Fault Refusal :=
  .next s.softReset

/-- RXFLUSH, after an ABORT of the same write when v[0] is set (R286, R289). -/
def execRxflush (abortFirst : Bool) (_ign : BitVec 29) (s : State) : Host.Outcome State Fault Refusal :=
  .next (if abortFirst then s.abort.rxFlush else s.rxFlush)

end Sys2Proof.Machine
end

