-- ==== Sys2Proof/Machine/Transport.lean ====
section
/-! DEFINITION. The byte transport: the tx port, the rx port and its FIFO, the timeout, SEND and RECV (41_byte_transport.md). -/

namespace Sys2Proof.Machine

/-! ### The transmit port -/

/-- `tx_valid` (R200). -/
def State.txValid (s : State) : Bool := s.eng.phase = .tx && s.eng.idx.toNat < s.eng.endIdx.toNat

/-- `tx_data` (R200). -/
def State.txData (s : State) : Byte := s.readByte (txBase + s.eng.idx.toNat)

/-- The byte is taken: txOut, the index and XFER_COUNT move on (R201). -/
def State.txMoved (s : State) : State :=
  { s with
    txOut := s.txOut ++ [s.txData]
    eng := { s.eng with idx := s.eng.idx + 1 }
    xferCount := s.xferCount + 1 }

/-- TxEmit, when it is enabled (R201). -/
def State.txEmit (s : State) : State :=
  if s.txMoved.eng.idx = s.txMoved.eng.endIdx then s.txMoved.finishPlain .none else s.txMoved

/-! ### The receive port -/

/-- LinkRx offers a byte to a FIFO of a depth: queued, or dropped with OVR when the FIFO is full (R204, R8). -/
def State.offerByte (s : State) (b : Byte) (depth : Nat := Config.rxFifoDepth) : State :=
  if s.rxq.length < depth then { s with rxq := s.rxq ++ [b] } else s.setIrq irqOvr

/-- The phases that take bytes from the FIFO (R206, R207). -/
def Phase.receives : Phase → Bool
  | .rxRaw | .rxHdr | .rxPay => true
  | .idle | .build | .parse | .tx => false

/-- A receive phase with bytes still to come (R206, R207). -/
def State.receiving (s : State) : Bool := s.eng.phase.receives && s.eng.idx.toNat < s.eng.endIdx.toNat

/-- The byte `b`, popped from the FIFO and leaving `rest`, lands in RXBUF[idx] (R205, R206). -/
def State.rxMoved (s : State) (b : Byte) (rest : List Byte) : State :=
  { s.writeByte (rxBase + s.eng.idx.toNat) b with
    rxq := rest
    eng := { s.eng with idx := s.eng.idx + 1 }
    xferCount := s.xferCount + 1 }

/-- The last byte of RECV (R206, R211). -/
def State.recvDone (s : State) : State := s.finishPlain .none

/-- A SEND or RECV of nothing finishes in its next Engine step (R202). -/
def State.finishEmpty (s : State) : State := s.finishPlain .none

/-! ### The timeout -/

/-- The Timer step is enabled while the Engine waits on an empty FIFO and RX_TIMEOUT ≠ 0 (R207). -/
def State.timerEnabled (s : State) : Bool := s.receiving && s.rxq.isEmpty && s.rxTimeout ≠ 0

/-- The code a timeout ends a phase with (R207, 90_conflicts.md C1). -/
def timeoutCode : Phase → ErrCode
  | .rxHdr => .framingHdr
  | .rxPay => .framingPay
  | .rxRaw | .idle | .build | .parse | .tx => .timeout

/-- The Timer step (R207). -/
def State.timeout (s : State) : State := s.finishPlain (timeoutCode s.eng.phase)

/-! ### Meanings -/

/-- SEND, the write of its word to CMD (R124, R127, R128, R210). -/
def execSend (count : Half) (s : State) : Host.Outcome State Fault Refusal :=
  .next (s.accept (encode (.send count)) fun t => t.startCounted .send count)

/-- RECV, the write of its word to CMD (R124, R127, R128, R211). -/
def execRecv (count : Half) (s : State) : Host.Outcome State Fault Refusal :=
  .next (s.accept (encode (.recv count)) fun t => t.startCounted .recv count)

end Sys2Proof.Machine
end

