-- ==== Sys2Proof/Machine/Pipeline.lean ====
section
/-! DEFINITION. The pipelined commands ENC and DEC (42_frame_pipeline.md), and the step that consumes one received byte, whose last byte
depends on the phase (41_byte_transport.md R206). -/

namespace Sys2Proof.Machine

/-- Build on the success path of ENC: the header, then the Tx phase over 8 + len bytes; XFER_COUNT stays 0 (R240). -/
def State.encBuilt (s : State) : State :=
  { s.buildHeader with eng := { s.eng with phase := .tx, idx := 0, endIdx := 8 + s.txLength } }

/-- The Build step of ENC (R240). -/
def State.encBuild (s : State) : State :=
  if s.encodeError = .none then s.encBuilt else s.finishPlain s.encodeError

/-- `payload_done()` (R247). -/
def State.payloadDone (s : State) : State := s.decodeDone

/-- `header_done()` once the header is latched (R246, R248). -/
def State.headerChecked (s : State) : State :=
  if s.rxLength.toNat > Config.maxPayload then s.finishPlain .length
  else if s.rxLength = 0 then s.payloadDone
  else { s with eng := { s.eng with phase := .rxPay, endIdx := 8 + s.rxLength } }

/-- `header_done()` (R246). -/
def State.headerDone (s : State) : State := s.latchHeader.headerChecked

/-- The end of a receive phase (R206). -/
def State.phaseDone (s : State) : State :=
  match s.eng.phase with
  | .rxRaw => s.recvDone
  | .rxHdr => s.headerDone
  | .rxPay => s.payloadDone
  | .idle | .build | .parse | .tx => s

/-- RxByte with the FIFO non-empty: `b` is its head (R206). -/
def State.rxByte (s : State) (b : Byte) (rest : List Byte) : State :=
  if (s.rxMoved b rest).eng.idx = (s.rxMoved b rest).eng.endIdx then (s.rxMoved b rest).phaseDone else s.rxMoved b rest

/-- ENC, the write of its word to CMD (R127, R128, R240). -/
def execEnc (s : State) : Host.Outcome State Fault Refusal :=
  .next (s.accept (encode .enc) fun t => t.startCmd .enc 0)

/-- DEC, the write of its word to CMD (R127, R128, R245). -/
def execDec (s : State) : Host.Outcome State Fault Refusal :=
  .next (s.accept (encode .dec) fun t => t.startCmd .dec 0)

end Sys2Proof.Machine
end

