-- ==== Sys2Proof/Machine/Dispatch.lean ====
section
/-! DEFINITION. The dispatch: one arm per instruction. -/

namespace Sys2Proof.Machine

/-- The meaning of an instruction: the host step that writes its word to CMD (30_encoding.md R127) or CTRL (43_control.md). The
running command's further steps are the Engine's, LinkTx's and the Timer's (Machine/Agents.lean). -/
def exec (i : Instr) (s : State) : Host.Outcome State Fault Refusal :=
  match i with
  | .encb => Sys2Proof.Machine.execEncb s
  | .decb count => Sys2Proof.Machine.execDecb count s
  | .send count => Sys2Proof.Machine.execSend count s
  | .recv count => Sys2Proof.Machine.execRecv count s
  | .enc => Sys2Proof.Machine.execEnc s
  | .dec => Sys2Proof.Machine.execDec s
  | .abort flush ign => Sys2Proof.Machine.execAbort flush ign s
  | .srst v0 v2 ign => Sys2Proof.Machine.execSrst v0 v2 ign s
  | .rxflush abortFirst ign => Sys2Proof.Machine.execRxflush abortFirst ign s

end Sys2Proof.Machine
end

