-- ==== Sys2Proof/Machine/Agents.lean ====
section
/-! DEFINITION. The steps of the five agents (10_state.md R31): the Host's bus access (20_memory.md R80 to R89), the Engine, LinkTx,
LinkRx, the Timer; and the `rst` pin (70_reset_and_hazards.md R350). A step that is not enabled changes nothing. -/

namespace Sys2Proof.Machine

/-! ### Host -/

/-- The response to the access is recorded (R80). -/
def State.respond (s : State) (r : BusResponse) : State := { s with busResp := some r }

/-- A host read: a register, a buffer, or BusError; no read has a side effect (R85 to R87). -/
def State.hostRead (s : State) (addr : Offset) (size : Size) (depth : Nat := Config.rxFifoDepth) : State :=
  match accessReg addr size with
  | some r => s.respond (.data (s.readReg r depth))
  | none =>
    if accessBuf addr size then s.respond (.data (s.readBuf addr size)) else s.respond (.error (.busError addr))

/-- A word written to CMD (R127): an instruction's meaning, or the ILLEGAL rejection. -/
def cmdWrite (w : Word) (s : State) : Host.Outcome State Fault Refusal :=
  match decode .cmd w with
  | .instr i => exec i s
  | .illegal _ => .next (s.acceptIllegal w)
  | .noAction => .next s

/-- A word written to CTRL (R289): an action's meaning, or nothing when v[2:0] = 0. -/
def ctrlWrite (v : Word) (s : State) : Host.Outcome State Fault Refusal :=
  match decode .ctrl v with
  | .instr i => exec i s
  | .illegal _ => .next s
  | .noAction => .next s

/-- A register write (R89): CMD and CTRL run a word, the others store. -/
def regWrite (r : Reg) (v : Word) (s : State) : Host.Outcome State Fault Refusal :=
  match r with
  | .cmd => cmdWrite v s
  | .ctrl => ctrlWrite v s
  | .status | .result | .xferCount | .irqStatus | .irqEnable | .rxTimeout | .txId | .txHdr | .rxId | .rxHdr | .rxCsum
  | .caps => .next (s.writeReg r v)

/-- A host write: a register, a buffer, or BusError; every write that reaches its target gets the OK response (R85, R86, R88, R89). -/
def hostWrite (addr : Offset) (size : Size) (wdata : Word) (s : State) : Host.Outcome State Fault Refusal :=
  match accessReg addr size with
  | some r => onNext (fun t => t.respond .ok) (regWrite r wdata s)
  | none =>
    if accessBuf addr size then .next ((s.writeBuf addr size wdata).respond .ok)
    else .next (s.respond (.error (.busError addr)))

/-- A host access (R80). -/
def hostStep (a : Access) (s : State) (depth : Nat := Config.rxFifoDepth) : Host.Outcome State Fault Refusal :=
  match a with
  | .read addr size => .next (s.hostRead addr size depth)
  | .write addr size wdata => hostWrite addr size wdata s

/-! ### Engine, LinkTx, LinkRx, Timer -/

/-- RxByte, when it is enabled (R206). -/
def State.rxStep (s : State) : State :=
  if s.receiving then
    match s.rxq with
    | [] => s
    | b :: rest => s.rxByte b rest
  else s

/-- The Engine's own step: Build, Parse, RxByte, or the finish of a SEND or RECV of nothing (R165, R170, R202, R206, R240). Build runs
under ENCB or ENC and Parse under DECB only (R128). -/
def State.engineStep (s : State) : State :=
  match s.eng.phase with
  | .idle => s
  | .build =>
    match s.eng.op with
    | .encb => s.encbBuild
    | .enc => s.encBuild
    | .none | .decb | .send | .recv | .dec => s
  | .parse =>
    match s.eng.op with
    | .decb => s.decbParse
    | .none | .encb | .send | .recv | .enc | .dec => s
  | .tx => if s.eng.idx = s.eng.endIdx then s.finishEmpty else s
  | .rxRaw => if s.eng.idx = s.eng.endIdx then s.finishEmpty else s.rxStep
  | .rxHdr | .rxPay => s.rxStep

/-- LinkTx accepts the byte offered, when one is offered (R201). -/
def State.linkTxStep (s : State) : State := if s.txValid then s.txEmit else s

/-- The Timer fires, when it may (R207). -/
def State.timerStep (s : State) : State := if s.timerEnabled then s.timeout else s

/-- An Engine step is enabled: Build, Parse, RxByte, or the finish of a SEND or RECV of nothing (R209 (a)). -/
def State.engineEnabled (s : State) : Bool :=
  match s.eng.phase with
  | .idle => false
  | .build => s.eng.op = .encb || s.eng.op = .enc
  | .parse => s.eng.op = .decb
  | .tx => s.eng.idx = s.eng.endIdx
  | .rxRaw => s.eng.idx = s.eng.endIdx || s.receiving && !s.rxq.isEmpty
  | .rxHdr | .rxPay => s.receiving && !s.rxq.isEmpty

/-! ### The reset pin and the choice of the next event -/

/-- The `rst` pin takes a level while it is inactive: going active resets the block (R350). -/
def State.rstStep (s : State) (active : Bool) : State :=
  if active then { s.hardReset with rstActive := true } else s

/-- One event of a block with a FIFO of a depth. While `rst` is active no step of any agent is enabled, and a byte offered is lost without OVR (R350). -/
def runEvent (e : Event) (s : State) (depth : Nat := Config.rxFifoDepth) : Host.Outcome State Fault Refusal :=
  if s.rstActive then
    match e with
    | .rst active => .next { s with rstActive := active }
    | .host _ | .engine | .linkTx | .linkRx _ | .timer => .next s
  else
    match e with
    | .host a => hostStep a s depth
    | .engine => .next s.engineStep
    | .linkTx => .next s.linkTxStep
    | .linkRx b => .next (s.offerByte b depth)
    | .timer => .next s.timerStep
    | .rst active => .next (s.rstStep active)

/-- The next event: the agenda's head, or a free choice where the agenda is empty (R31, log entry 3). -/
def State.nextEvent (s : State) : Event :=
  match s.agenda with
  | e :: _ => e
  | [] => Config.freeEvent s.sched

/-- The state once its next event is chosen. -/
def State.takeEvent (s : State) : State :=
  match s.agenda with
  | _ :: rest => { s with agenda := rest }
  | [] => { s with sched := s.sched + 1 }

/-- The offset of a port's register (R34). -/
def portOffset : Port → Offset
  | .ctrl => 0x00
  | .cmd => 0x04

/-- The host write that issues a word at a port (R120, R131). -/
def issue (p : Port) (w : Word) : Event := .host (.write (portOffset p) .word w)

end Sys2Proof.Machine
end

