-- ==== Sys2Proof/Machine/Step.lean ====
section
/-! DEFINITION. One step of FCODEC: the next event, run as one atomic step (00_scope.md R20, 10_state.md R31). -/

namespace Sys2Proof.Machine

/-- One step of a block with a FIFO of a depth (00_scope.md R8). -/
def stepAt (depth : Nat) (s : State) : Host.Outcome State Fault Refusal := runEvent s.nextEvent s.takeEvent depth

/-- One step of the machine: this hardware's FIFO holds 64 bytes (00_scope.md R8, 10_state.md R48). -/
def step (s : State) : Host.Outcome State Fault Refusal := stepAt Config.rxFifoDepth s

/-- `s` with the host write of the word `w` next on the agenda, at the port the word is taken for (log entry 6), and with `rst`
released: the very next step runs the word. FCODEC fetches nothing; a host writes every word (R33, R99). -/
def State.withFetchWord (s : State) (nbits w : Nat) : State :=
  { s with
    rstActive := false
    agenda := issue (guessPort (tableWord nbits w)) (tableWord nbits w) :: s.agenda }

end Sys2Proof.Machine
end

