-- ==== Sys2Proof/Safety.lean ====
section
/-! DEFINITION. What claims say of runs: a run over a list of events, the invariant of reachable states, and which error codes a command
may end with (60_exceptions.md R302). -/

namespace Sys2Proof.Machine

/-- The events of a list, one step each, in order. -/
def runEvents (es : List Event) (s : State) (depth : Nat := Config.rxFifoDepth) : Host.Outcome State Fault Refusal :=
  match es with
  | [] => .next s
  | e :: es =>
    match runEvent e s depth with
    | .next t => runEvents es t depth
    | .fault r => .fault r
    | .refused r => .refused r

/-- The Engine state is one that the rules can lead to (10_state.md R33, 30_encoding.md R128, 41_byte_transport.md R201 to R206,
42_frame_pipeline.md R240, R246); XFER_COUNT counts the bytes moved (R39). -/
def engineConsistent (s : State) : Prop :=
  match s.eng.phase with
  | .idle => s.eng = Eng.idle
  | .build => (s.eng.op = .encb ∨ s.eng.op = .enc) ∧ s.eng.idx = 0 ∧ s.eng.endIdx = 0 ∧ s.xferCount = 0
  | .parse => s.eng.op = .decb ∧ s.eng.idx = 0 ∧ s.eng.endIdx.toNat ≤ Config.bufSize ∧ s.xferCount = 0
  | .tx =>
    (s.eng.op = .send ∧ s.eng.endIdx.toNat ≤ Config.bufSize ∨
      s.eng.op = .enc ∧ s.encodeError = .none ∧ s.eng.endIdx.toNat = 8 + s.txLength.toNat) ∧
    (s.eng.idx.toNat < s.eng.endIdx.toNat ∨ s.eng.op = .send ∧ s.eng.idx = 0 ∧ s.eng.endIdx = 0) ∧ s.xferCount = s.eng.idx
  | .rxRaw =>
    s.eng.op = .recv ∧ s.eng.endIdx.toNat ≤ Config.bufSize ∧
    (s.eng.idx.toNat < s.eng.endIdx.toNat ∨ s.eng.idx = 0 ∧ s.eng.endIdx = 0) ∧ s.xferCount = s.eng.idx
  | .rxHdr => s.eng.op = .dec ∧ s.eng.endIdx = 8 ∧ s.eng.idx.toNat < 8 ∧ s.xferCount = s.eng.idx
  | .rxPay =>
    s.eng.op = .dec ∧ s.rxLength.toNat ≤ Config.maxPayload ∧ s.eng.endIdx.toNat = 8 + s.rxLength.toNat ∧
    8 ≤ s.eng.idx.toNat ∧ s.eng.idx.toNat < s.eng.endIdx.toNat ∧ s.xferCount = s.eng.idx

/-- RESULT holds a completion record: a code of R300, reserved bits 0, and CSUM_MATCH or UNKSTAT only after a successful DECB or DEC
(10_state.md R38, R50). -/
abbrev resultConsistent (r : Word) : Prop :=
  (r.extractLsb' 0 8).toNat ≤ 8 ∧ r.extractLsb' 10 6 = 0 ∧ r.extractLsb' 20 12 = 0 ∧
  (r.extractLsb' 8 2 ≠ 0 → r.extractLsb' 0 8 = 0 ∧ (r.extractLsb' 16 4 = 2 ∨ r.extractLsb' 16 4 = 6))

/-- The invariant of every state that a run from reset can reach, in a block with a FIFO of a depth. -/
structure Inv (s : State) (depth : Nat := Config.rxFifoDepth) : Prop where
  engine : engineConsistent s
  result : resultConsistent s.result
  /-- The RX FIFO holds at most RX_FIFO_DEPTH bytes (10_state.md R54). -/
  fifo : s.rxq.length ≤ depth
  /-- The buffers keep their canonical form. -/
  mem : Memory.wf s.mem
  /-- While `rst` is active the block is in its reset state, every field of R59 (70_reset_and_hazards.md R350); the fields named here
  are the model's own. -/
  held : s.rstActive = true →
    s = { State.reset with
          draws := s.draws, rstActive := true, agenda := s.agenda, sched := s.sched, busResp := s.busResp }

/-! ### Infinite runs and their fairness (41_byte_transport.md R209) -/

/-- An infinite run: from each state the next one follows by the event of that place. What is yet to happen (the model's own fields
`agenda` and `sched`, log entry 3) is free between the steps, so that a run of `step` and a run of any chosen events are both runs. -/
def IsRun (states : Nat → State) (events : Nat → Event) (depth : Nat := Config.rxFifoDepth) : Prop :=
  ∀ n, ∃ agenda sched,
    runEvent (events n) { states n with agenda := agenda, sched := sched } depth = .next (states (n + 1))

/-- The events named stay enabled from place n on only if one is taken at n or later: weak fairness. -/
def WeaklyFair (enabled : State → Bool) (taken : Event) (states : Nat → State) (events : Nat → Event) : Prop :=
  ∀ n, (∀ m, n ≤ m → enabled (states m) = true) → ∃ m, n ≤ m ∧ events m = taken

/-- A fair run, R209: (a) Engine steps and (b) the Timer step are weakly fair; (c) LinkTx and LinkRx get no fairness. -/
structure IsFairRun (states : Nat → State) (events : Nat → Event) (depth : Nat := Config.rxFifoDepth) : Prop where
  run : IsRun states events depth
  engine : WeaklyFair State.engineEnabled .engine states events
  timer : WeaklyFair State.timerEnabled .timer states events

/-- An event that may end a running command from outside: CTRL with ABORT or SRST, or the hardware reset (43_control.md R281). -/
def endsFromOutside (e : Event) : Prop :=
  e = .rst true ∨ ∃ v : Word, e = issue .ctrl v ∧ (v.getLsbD 0 = true ∨ v.getLsbD 1 = true)

/-- The table of R302: which command can end with which code. -/
def mayEndWith (op : EngOp) (c : ErrCode) : Bool :=
  match op, c with
  | .none, _ => false
  | _, .none | _, .illegal | _, .aborted => true
  | .decb, .count | .send, .count | .recv, .count => true
  | .encb, .length | .decb, .length | .enc, .length | .dec, .length => true
  | .encb, .status | .enc, .status => true
  | .recv, .timeout => true
  | .decb, .framingHdr | .decb, .framingPay | .dec, .framingHdr | .dec, .framingPay => true
  | _, _ => false

end Sys2Proof.Machine
end

