-- ==== Sys2Proof/Certificates/Slice0/Obligations.lean ====
section
/-! DEFINITION. The statements about the model, each with the rule of spec/ it formalises. -/

open Sys2Proof Sys2Proof.Machine Host

/-! ### Decoding and encoding -/

/-- Decoding the word of an instruction, at the port it is written to, answers that instruction in its one spelling; a well-formed
instruction is its own spelling (30_encoding.md R120 to R122, 43_control.md R280, R283, R286; the one spelling of the action word with
v[2:0] = 5 is the model's choice, log entry 7). -/
def Obligations.DecodeOfEncodeIsTheInstruction : Prop :=
  ∀ i : Instr, decode (portOf i) (encode i) = .instr i.canonical ∧ (i.wellFormed = true → i.canonical = i)

/-- No bit of a decoded word is dropped: encoding what was decoded gives the word back, at the port it was written to. -/
def Obligations.EncodeOfDecodeIsTheWord : Prop :=
  ∀ (p : Port) (w : Word) (i : Instr), decode p w = .instr i → portOf i = p ∧ encode i = w

/-- The decode function of R125, clause by clause. -/
def Obligations.DecodeCmdIsTheSpecsFunction : Prop :=
  ∀ w : Word,
    decodeCmd w =
      if ¬ (1 ≤ (opField w).toNat ∧ (opField w).toNat ≤ 6) ∨ rsvdField w ≠ 0 then .illegal
      else if (opField w = 1 ∨ opField w = 5 ∨ opField w = 6) ∧ countField w ≠ 0 then .illegal
      else if (opField w = 2 ∨ opField w = 3 ∨ opField w = 4) ∧ (countField w).toNat > 1032 then .countError (opField w)
      else .cmd (opField w) (countField w)

/-- A command word's mnemonic follows from the match and mask pairs of R126 alone; a word that matches no row is ILLEGAL. -/
def Obligations.MatchMaskPairsTellTheMnemonic : Prop :=
  ∀ w : Word,
    (decode .cmd w = .instr .encb ↔ w &&& 0xFFFFFFFF#32 = 0x00000001#32) ∧
    (decode .cmd w = .instr (.decb (countField w)) ↔ w &&& 0x0000FFFF#32 = 0x00000002#32) ∧
    (decode .cmd w = .instr (.send (countField w)) ↔ w &&& 0x0000FFFF#32 = 0x00000003#32) ∧
    (decode .cmd w = .instr (.recv (countField w)) ↔ w &&& 0x0000FFFF#32 = 0x00000004#32) ∧
    (decode .cmd w = .instr .enc ↔ w &&& 0xFFFFFFFF#32 = 0x00000005#32) ∧
    (decode .cmd w = .instr .dec ↔ w &&& 0xFFFFFFFF#32 = 0x00000006#32) ∧
    (decode .cmd w = .illegal (opField w) ↔
      w &&& 0xFFFFFFFF#32 ≠ 0x00000001#32 ∧ w &&& 0x0000FFFF#32 ≠ 0x00000002#32 ∧ w &&& 0x0000FFFF#32 ≠ 0x00000003#32 ∧
      w &&& 0x0000FFFF#32 ≠ 0x00000004#32 ∧ w &&& 0xFFFFFFFF#32 ≠ 0x00000005#32 ∧ w &&& 0xFFFFFFFF#32 ≠ 0x00000006#32) ∧
    ((∃ op, decodeCmd w = .countError op) ↔
      (w &&& 0x0000FFFF#32 = 0x00000002#32 ∨ w &&& 0x0000FFFF#32 = 0x00000003#32 ∨ w &&& 0x0000FFFF#32 = 0x00000004#32) ∧
      (countField w).toNat > 1032)

/-- A few words written out from the spec's encodings decode to their instructions (30_encoding.md R131, 43_control.md). -/
def Obligations.WrittenOutWordsDecode : Prop :=
  decode .cmd 0x00000001 = .instr .encb ∧ decode .cmd 0x00080002 = .instr (.decb 8) ∧
  decode .cmd 0x00040003 = .instr (.send 4) ∧ decode .cmd 0x04080004 = .instr (.recv 1032) ∧
  decode .cmd 0x00000005 = .instr .enc ∧ decode .cmd 0x00000006 = .instr .dec ∧
  decode .ctrl 0x00000001 = .instr (.abort false 0) ∧ decode .ctrl 0x00000002 = .instr (.srst false false 0) ∧
  decode .ctrl 0x00000004 = .instr (.rxflush false 0) ∧ decode .cmd 0x00010001 = .illegal 1 ∧ decode .ctrl 0xFFFFFFF8 = .noAction

/-! ### One step -/

/-- A host write of a word to its port runs that word: where it decodes to an instruction, the step takes the event off the agenda, runs
`exec` of the instruction and records the OK response; a word that is no instruction takes the rejection of its port, or does nothing
(R127, R289; the recorded response and the agenda are the model's own fields, log entries 3 and 5). -/
def Obligations.StepRunsTheDecodedInstruction : Prop :=
  ∀ (s : State) (p : Port) (w : Word) (rest : List Event),
    s.rstActive = false → s.agenda = issue p w :: rest →
    (∀ i : Instr, decode p w = .instr i →
      step s = onNext (fun t => { t with busResp := some .ok }) (exec i { s with agenda := rest })) ∧
    ((∀ i : Instr, decode p w ≠ .instr i) →
      step s = onNext (fun t => { t with busResp := some .ok })
        (match p with
        | .cmd => cmdWrite w { s with agenda := rest }
        | .ctrl => .next { s with agenda := rest }))

/-- Every event is one step: the agenda's head runs next, on the state without it; where the agenda is empty, a free event runs; and an
endless run of `step` is a run in the sense of `IsRun`, whose fairness R209 speaks of (10_state.md R31; the agenda and the counter are the
model's own fields, log entry 3). -/
def Obligations.StepRunsTheNextEvent : Prop :=
  (∀ s : State,
    (∀ e rest, s.agenda = e :: rest → step s = runEvent e { s with agenda := rest }) ∧
    (s.agenda = [] → step s = runEvent (Config.freeEvent s.sched) { s with sched := s.sched + 1 })) ∧
  ∀ states : Nat → State, (∀ n, step (states n) = .next (states (n + 1))) → IsRun states fun n => (states n).nextEvent

/-- No step of FCODEC stops: every event has an effect, or none, and the machine goes on. That a bus error is a response after which the
machine goes on (log entry 5), and that an event which is not enabled is a step that changes nothing (log entry 3), are the model's
choices; the spec gives every command word and every enabled step a next state (30_encoding.md R129, 20_memory.md R86). -/
def Obligations.EveryStepAnswersANextState : Prop := ∀ s : State, ∃ t, step s = .next t

/-- An ILLEGAL word written to CMD while idle is rejected as it is accepted, with code ILLEGAL = 1 and its own OP field; nothing else
changes but the CMD readback and XFER_COUNT = 0, and the Engine stays idle (R123; R127, R305, R38). -/
def Obligations.IllegalWordIsRejectedAtAcceptance : Prop :=
  ∀ (s : State) (w : Word), s.eng = Eng.idle →
    (¬ (1 ≤ (w.extractLsb' 0 4).toNat ∧ (w.extractLsb' 0 4).toNat ≤ 6) ∨ w.extractLsb' 4 12 ≠ 0 ∨
      (w.extractLsb' 0 4 = 1 ∨ w.extractLsb' 0 4 = 5 ∨ w.extractLsb' 0 4 = 6) ∧ w.extractLsb' 16 16 ≠ 0) →
    ∃ r : Word,
      r.extractLsb' 0 8 = 1 ∧ r.extractLsb' 8 8 = 0 ∧ r.extractLsb' 16 4 = w.extractLsb' 0 4 ∧ r.extractLsb' 20 12 = 0 ∧
      cmdWrite w s = .next { s with cmdLast := w, xferCount := 0, result := r, irqStatus := s.irqStatus ||| 2 }

/-! ### Reset -/

/-- The register values right after reset or SRST; each buffer byte is its free draw (R351). -/
def Obligations.RegistersAfterReset : Prop :=
  ∀ s t : State, t = State.reset ∨ exec (.srst false false 0) s = .next t →
    t.readReg .ctrl = 0 ∧ t.readReg .cmd = 0 ∧ t.readReg .status = 0 ∧ t.readReg .result = 0 ∧ t.readReg .xferCount = 0 ∧
    t.readReg .irqStatus = 0 ∧ t.readReg .irqEnable = 0 ∧ t.readReg .rxTimeout = Config.timeoutReset ∧ t.readReg .txId = 0 ∧
    t.readReg .txHdr = 0 ∧ t.readReg .rxId = 0 ∧ t.readReg .rxHdr = 0 ∧ t.readReg .rxCsum = 0 ∧ t.readReg .caps = 0x00400400 ∧
    (∀ a, t.readByte a = Config.bufDraw t.draws a) ∧ t.irq = false

/-- The invariant holds at reset, whatever the FIFO's depth. -/
def Obligations.InvHoldsAtReset : Prop := ∀ depth : Nat, Inv State.reset depth

/-- Every step keeps the invariant, whatever the FIFO's depth and on this hardware: the Engine state is one the rules lead to, XFER_COUNT
counts the bytes moved, RESULT holds a completion record, the FIFO is within its depth, the buffers keep their canonical form (the model's
own, log entry 1), and while `rst` is active every field of R59 has its reset value (R350; the pin's level is the model's own field, log
entry 4). -/
def Obligations.EveryStepKeepsInv : Prop :=
  (∀ (depth : Nat) (s t : State), Inv s depth → stepAt depth s = .next t → Inv t depth) ∧
  ∀ s t : State, Inv s → step s = .next t → Inv t

/-- SRST, with any value of the bits it ignores, busy or idle: every field of R59 but txOut takes its reset value, and the buffers a
fresh draw (R283, R352). What is left of the model's own fields is not the block's. -/
def Obligations.SrstResetsTheBlock : Prop :=
  ∀ (s : State) (v0 v2 : Bool) (ign : BitVec 29),
    exec (.srst v0 v2 ign) s = .next
      { State.reset with
        txOut := s.txOut, draws := s.draws + 1, rstActive := s.rstActive, agenda := s.agenda, sched := s.sched,
        busResp := s.busResp }

/-- The hardware reset puts every field of R59 to its reset value, txOut too; while `rst` is active no event changes anything but
the pin itself, and a byte offered is lost without OVR (R350). -/
def Obligations.HardwareResetHoldsTheBlock : Prop :=
  ∀ s : State,
    (s.rstActive = false →
      runEvent (.rst true) s = .next
        { State.reset with draws := s.draws + 1, agenda := s.agenda, sched := s.sched, rstActive := true }) ∧
    (s.rstActive = true → ∀ e : Event, (∀ l, e ≠ .rst l) → runEvent e s = .next s) ∧
    (s.rstActive = true → runEvent (.rst false) s = .next { s with rstActive := false })

/-! ### Acceptance -/

/-- A command accepted while idle starts the Engine as R128 says; CMD reads its word back, XFER_COUNT is 0, and nothing else
changes (R127, R128). -/
def Obligations.AcceptedCommandStartsTheEngine : Prop :=
  ∀ (s : State) (n : Half), s.eng.phase = .idle →
    exec .encb s = .next { s with cmdLast := 0x00000001, xferCount := 0, eng := ⟨.encb, .build, 0, 0⟩ } ∧
    exec .enc s = .next { s with cmdLast := 0x00000005, xferCount := 0, eng := ⟨.enc, .build, 0, 0⟩ } ∧
    exec .dec s = .next { s with cmdLast := 0x00000006, xferCount := 0, eng := ⟨.dec, .rxHdr, 0, 8⟩ } ∧
    (n.toNat ≤ 1032 →
      exec (.decb n) s = .next { s with cmdLast := (n.setWidth 32 <<< 16) ||| 0x2#32, xferCount := 0, eng := ⟨.decb, .parse, 0, n⟩ } ∧
      exec (.send n) s = .next { s with cmdLast := (n.setWidth 32 <<< 16) ||| 0x3#32, xferCount := 0, eng := ⟨.send, .tx, 0, n⟩ } ∧
      exec (.recv n) s = .next { s with cmdLast := (n.setWidth 32 <<< 16) ||| 0x4#32, xferCount := 0, eng := ⟨.recv, .rxRaw, 0, n⟩ })

/-- A COUNT above 1032 is rejected when the word is accepted, with code COUNT = 2: no buffer, FIFO or port byte changes
(R124, R127, R305). -/
def Obligations.CountAboveBufferIsRejected : Prop :=
  ∀ (s : State) (n : Half), s.eng = Eng.idle → n.toNat > 1032 →
    exec (.decb n) s = .next
      { s with cmdLast := (n.setWidth 32 <<< 16) ||| 0x2#32, xferCount := 0, result := 0x00020002, irqStatus := s.irqStatus ||| 2 } ∧
    exec (.send n) s = .next
      { s with cmdLast := (n.setWidth 32 <<< 16) ||| 0x3#32, xferCount := 0, result := 0x00030002, irqStatus := s.irqStatus ||| 2 } ∧
    exec (.recv n) s = .next
      { s with cmdLast := (n.setWidth 32 <<< 16) ||| 0x4#32, xferCount := 0, result := 0x00040002, irqStatus := s.irqStatus ||| 2 }

/-- Any word written to CMD while busy, legal or not, is ignored and sets BSYERR; the write is answered OK (R36, R127). -/
def Obligations.CommandWhileBusyIsIgnored : Prop :=
  ∀ (s : State) (w : Word), s.rstActive = false → s.eng.phase ≠ .idle →
    runEvent (issue .cmd w) s = .next { s with irqStatus := s.irqStatus ||| 8, busResp := some .ok }

/-! ### The codec -/

/-- ENCB on legal operands, from acceptance to its Build step: TXBUF[0..8+LENGTH) is the frame image of its operands, TX_HDR.CSUM its
checksum, XFER_COUNT = 8 + LENGTH, RESULT and DONE as finish(NONE) writes them; every other byte and every other field is unchanged
(R165, R167, R162, R305). -/
def Obligations.EncbBuildsTheFrame : Prop :=
  ∀ s : State, s.rstActive = false → s.eng.phase = .idle → s.txLength.toNat ≤ 1024 → 1 ≤ s.txStatus.toNat → s.txStatus.toNat ≤ 5 →
    ∃ t u, exec .encb s = .next t ∧ runEvents [.engine] t = .next u ∧
      u = { s with
            eng := Eng.idle, cmdLast := 0x00000001, xferCount := 8 + s.txLength, result := 0x00010000,
            irqStatus := s.irqStatus ||| 1, txCsum := csum s.txPayload, mem := u.mem } ∧
      u.txBytes 0 (8 + s.txLength.toNat) = frame s.txId s.txStatus s.txPayload ∧
      ∀ a, ¬ (0x1000 ≤ a ∧ a < 0x1008) → u.readByte a = s.readByte a

/-- ENCB and ENC refuse their operands before any byte changes: LENGTH first, then STATUS; XFER_COUNT stays as it was (R166, R306). -/
def Obligations.EncodeRefusesBadOperands : Prop :=
  ∀ s : State, s.eng.phase = .build →
    (s.eng.op = .encb →
      (s.txLength.toNat > 1024 → s.engineStep = { s with eng := Eng.idle, result := 0x00010003, irqStatus := s.irqStatus ||| 2 }) ∧
      (s.txLength.toNat ≤ 1024 → ¬ (1 ≤ s.txStatus.toNat ∧ s.txStatus.toNat ≤ 5) →
        s.engineStep = { s with eng := Eng.idle, result := 0x00010004, irqStatus := s.irqStatus ||| 2 })) ∧
    (s.eng.op = .enc →
      (s.txLength.toNat > 1024 → s.engineStep = { s with eng := Eng.idle, result := 0x00050003, irqStatus := s.irqStatus ||| 2 }) ∧
      (s.txLength.toNat ≤ 1024 → ¬ (1 ≤ s.txStatus.toNat ∧ s.txStatus.toNat ≤ 5) →
        s.engineStep = { s with eng := Eng.idle, result := 0x00050004, irqStatus := s.irqStatus ||| 2 }))

/-- The frame of a Build step, whatever its operands: ENCB and ENC change no byte but TXBUF[0..8), and no register but the Engine,
TX_HDR.CSUM, XFER_COUNT, RESULT and IRQ_STATUS (R165, R167, R240). -/
def Obligations.BuildStepFrame : Prop :=
  ∀ s : State, s.eng.phase = .build → s.eng.op = .encb ∨ s.eng.op = .enc →
    s.engineStep =
      { s with
        eng := s.engineStep.eng, txCsum := s.engineStep.txCsum, xferCount := s.engineStep.xferCount,
        result := s.engineStep.result, irqStatus := s.engineStep.irqStatus, mem := s.engineStep.mem } ∧
    ∀ a, ¬ (0x1000 ≤ a ∧ a < 0x1008) → s.engineStep.readByte a = s.readByte a

/-- The reads R84 lists: after the Build step of ENCB or ENC succeeds, the header words of TXBUF read as TX_ID and TX_HDR; after a Parse
step that found a header, those of RXBUF read as RX_ID and RX_HDR. -/
def Obligations.HeaderReadsAsTheRegisters : Prop :=
  ∀ s : State,
    (s.eng.phase = .build → s.eng.op = .encb ∨ s.eng.op = .enc → s.encodeError = .none →
      s.engineStep.hostRead 0x1000 .word = s.engineStep.respond (.data s.txId) ∧
      s.engineStep.hostRead 0x1004 .word = s.engineStep.respond (.data (s.engineStep.readReg .txHdr)) ∧
      s.engineStep.hostRead 0x1006 .half = s.engineStep.respond (.data (s.txLength.setWidth 32)) ∧
      s.engineStep.hostRead 0x1004 .byte = s.engineStep.respond (.data (s.txStatus.setWidth 32))) ∧
    (s.eng.phase = .parse → s.eng.op = .decb → 8 ≤ s.eng.endIdx.toNat →
      s.engineStep.hostRead 0x2000 .word = s.engineStep.respond (.data (s.engineStep.readReg .rxId)) ∧
      s.engineStep.hostRead 0x2004 .word = s.engineStep.respond (.data (s.engineStep.readReg .rxHdr)) ∧
      s.engineStep.hostRead 0x2006 .half = s.engineStep.respond (.data (s.engineStep.rxLength.setWidth 32)) ∧
      s.engineStep.hostRead 0x2004 .byte = s.engineStep.respond (.data (s.engineStep.rxStatus.setWidth 32)))

/-- DECB on an image that is whole, from acceptance to its Parse step: the header fields are those of RXBUF[0..8), RX_CSUM is the
payload's checksum, XFER_COUNT = 8 + length; CSUM_MATCH and UNKSTAT report and are never errors, and no byte changes (R170, R173 to
R175). -/
def Obligations.DecbParsesTheImage : Prop :=
  ∀ (s : State) (n : Half) (id : Word) (st c : Byte) (len : Half),
    s.rstActive = false → s.eng.phase = .idle → n.toNat ≤ 1032 → len.toNat ≤ 1024 → 8 + len.toNat ≤ n.toNat →
    s.rxBytes 0 8 = headerBytes id st c len →
    ∃ t, exec (.decb n) s = .next t ∧
      runEvents [.engine] t = .next
        { s with
          eng := Eng.idle, cmdLast := (n.setWidth 32 <<< 16) ||| 0x2#32, xferCount := 8 + len, rxId := id, rxStatus := st, rxCsumHdr := c,
          rxLength := len, rxCsumCalc := csum (s.rxBytes 8 len.toNat), irqStatus := s.irqStatus ||| 1,
          result :=
            0x00020000#32 ||| (if csum (s.rxBytes 8 len.toNat) = c then 0x100#32 else 0) |||
              (if 1 ≤ st.toNat ∧ st.toNat ≤ 5 then 0 else 0x200#32) }

/-- DECB's errors in their order: FRAMING_HDR with no register written; LENGTH, then FRAMING_PAY, with RX_ID and RX_HDR written and
RX_CSUM not; no byte changes (R170 to R172). -/
def Obligations.DecbReportsShortAndLongImages : Prop :=
  ∀ (s : State) (id : Word) (st c : Byte) (len : Half), s.eng.phase = .parse → s.eng.op = .decb →
    s.rxBytes 0 8 = headerBytes id st c len →
    (s.eng.endIdx.toNat < 8 →
      s.engineStep = { s with eng := Eng.idle, result := 0x00020006, irqStatus := s.irqStatus ||| 2 }) ∧
    (8 ≤ s.eng.endIdx.toNat → len.toNat > 1024 →
      s.engineStep =
        { s with
          eng := Eng.idle, result := 0x00020003, irqStatus := s.irqStatus ||| 2, xferCount := 8, rxId := id, rxStatus := st,
          rxCsumHdr := c, rxLength := len }) ∧
    (8 ≤ s.eng.endIdx.toNat → len.toNat ≤ 1024 → s.eng.endIdx.toNat < 8 + len.toNat →
      s.engineStep =
        { s with
          eng := Eng.idle, result := 0x00020007, irqStatus := s.irqStatus ||| 2, xferCount := 8, rxId := id, rxStatus := st,
          rxCsumHdr := c, rxLength := len })

/-- Round trip: after ENCB, a block whose RXBUF holds the image decodes it with `DECB n` to the original fields, whatever n between the
image's size and 1032 (R176). -/
def Obligations.DecodeReproducesTheEncodedFrame : Prop :=
  ∀ (s v : State) (n : Half),
    s.rstActive = false → s.eng.phase = .idle → s.txLength.toNat ≤ 1024 → 1 ≤ s.txStatus.toNat → s.txStatus.toNat ≤ 5 →
    8 + s.txLength.toNat ≤ n.toNat → n.toNat ≤ 1032 → v.rstActive = false → v.eng.phase = .idle →
    ∃ t u, exec .encb s = .next t ∧ runEvents [.engine] t = .next u ∧
      (v.rxBytes 0 (8 + s.txLength.toNat) = u.txBytes 0 (8 + s.txLength.toNat) →
        ∃ x y, exec (.decb n) v = .next x ∧ runEvents [.engine] x = .next y ∧
          y.result = 0x00020100 ∧ y.rxId = s.txId ∧ y.rxStatus = s.txStatus ∧ y.rxLength = s.txLength ∧
          y.rxCsumHdr = csum s.txPayload ∧ y.rxCsumCalc = csum s.txPayload ∧
          y.rxBytes 8 s.txLength.toNat = s.txPayload)

/-- The checksum is the sum of the bytes mod 256, and no reordering of them changes it (R160, R177). -/
def Obligations.ChecksumIgnoresOrder : Prop :=
  (∀ bs : List Byte, (csum bs).toNat = (bs.map BitVec.toNat).sum % 256) ∧
  ∀ p q : List Byte, p.Perm q → csum p = csum q

/-! ### The transport -/

/-- SEND of COUNT bytes, from acceptance on, with LinkTx accepting each byte: txOut gains exactly TXBUF[0..COUNT), in order;
XFER_COUNT = COUNT, RESULT and DONE as finish(NONE) writes them, and nothing else changes. SEND 0 finishes in its next Engine step
(R210, R214, R201, R202). -/
def Obligations.SendTransmitsExactlyItsBytes : Prop :=
  ∀ (s : State) (n : Half), s.rstActive = false → s.eng.phase = .idle → n.toNat ≤ 1032 →
    ∃ t, exec (.send n) s = .next t ∧
      runEvents (if n = 0 then [.engine] else List.replicate n.toNat .linkTx) t = .next
        { s with
          eng := Eng.idle, cmdLast := (n.setWidth 32 <<< 16) ||| 0x3#32, xferCount := n, txOut := s.txOut ++ s.txBytes 0 n.toNat,
          result := 0x00030000, irqStatus := s.irqStatus ||| 1 }

/-- A SEND ended by ABORT after k of its bytes were accepted: txOut gained exactly TXBUF[0..k), XFER_COUNT = k, code ABORTED; nothing
else changes (R214, R280). -/
def Obligations.AbortedSendKeepsWhatWasSent : Prop :=
  ∀ (s : State) (n : Half) (k : Nat) (ign : BitVec 29),
    s.rstActive = false → s.eng.phase = .idle → n.toNat ≤ 1032 → k < n.toNat →
    ∃ t u, exec (.send n) s = .next t ∧ runEvents (List.replicate k .linkTx) t = .next u ∧
      exec (.abort false ign) u = .next
        { s with
          eng := Eng.idle, cmdLast := (n.setWidth 32 <<< 16) ||| 0x3#32, xferCount := BitVec.ofNat 16 k,
          txOut := s.txOut ++ s.txBytes 0 k, result := 0x00030008, irqStatus := s.irqStatus ||| 2 }

/-- TxEmit, one byte: enabled exactly in the Tx phase before its end, it appends TXBUF[idx] to txOut, and the last one finishes with NONE;
where it is not enabled, LinkTx does nothing, which is the model's choice (R201, log entry 3). -/
def Obligations.TxEmitMovesOneByte : Prop :=
  ∀ s : State, s.rstActive = false →
    (s.eng.phase = .tx → s.eng.idx.toNat < s.eng.endIdx.toNat →
      (s.eng.idx.toNat + 1 ≠ s.eng.endIdx.toNat →
        runEvent .linkTx s = .next
          { s with
            txOut := s.txOut ++ [s.readByte (0x1000 + s.eng.idx.toNat)], xferCount := s.xferCount + 1,
            eng := { s.eng with idx := s.eng.idx + 1 } }) ∧
      (s.eng.idx.toNat + 1 = s.eng.endIdx.toNat →
        ∃ r : Word, r.extractLsb' 0 16 = 0 ∧ r.extractLsb' 16 4 = s.eng.op.code ∧ r.extractLsb' 20 12 = 0 ∧
          runEvent .linkTx s = .next
            { s with
              txOut := s.txOut ++ [s.readByte (0x1000 + s.eng.idx.toNat)], xferCount := s.xferCount + 1, eng := Eng.idle,
              result := r, irqStatus := s.irqStatus ||| 1 })) ∧
    (s.eng.phase ≠ .tx ∨ s.eng.endIdx.toNat ≤ s.eng.idx.toNat → runEvent .linkTx s = .next s)

/-- While a byte waits for LinkTx, `tx_valid` stays high and `tx_data` does not change, unless LinkTx takes it or ABORT, SRST or the
hardware reset ends the command (R200, R203). -/
def Obligations.OfferedByteIsStable : Prop :=
  ∀ (s t : State) (e : Event), s.txValid = true → e ≠ .linkTx → e ≠ .rst true →
    (∀ v : Word, e = issue .ctrl v → v.getLsbD 0 = false ∧ v.getLsbD 1 = false) →
    runEvent e s = .next t → t.txValid = true ∧ t.txData = s.txData

/-- LinkRx offers a byte, whatever the Engine is doing and whatever the FIFO's depth: it is queued last, or, with the FIFO full, dropped with
OVR; nothing else changes (R204; the depth is a parameter, R8). -/
def Obligations.OfferedByteIsQueuedOrDropped : Prop :=
  ∀ (depth : Nat) (s : State) (b : Byte), s.rstActive = false →
    (s.rxq.length < depth → runEvent (.linkRx b) s depth = .next { s with rxq := s.rxq ++ [b] }) ∧
    (depth ≤ s.rxq.length → runEvent (.linkRx b) s depth = .next { s with irqStatus := s.irqStatus ||| 4 })

/-- RECV of COUNT bytes: RXBUF[0..COUNT) takes them in arrival order, XFER_COUNT = COUNT, code NONE; RXBUF beyond COUNT, every other byte and
every other field is unchanged. First with at least COUNT bytes queued, the rest staying queued; RECV 0 takes nothing. Then with fewer or
none queued and the others arriving while RECV runs, each taken as it comes (R211, R206, R202, R204). -/
def Obligations.RecvStoresExactlyItsBytes : Prop :=
  (∀ (s : State) (n : Half) (bs rest : List Byte),
    s.rstActive = false → s.eng.phase = .idle → n.toNat ≤ 1032 → bs.length = n.toNat → s.rxq = bs ++ rest →
    ∃ t u, exec (.recv n) s = .next t ∧
      runEvents (if n = 0 then [.engine] else List.replicate n.toNat .engine) t = .next u ∧
      u = { s with
            eng := Eng.idle, cmdLast := (n.setWidth 32 <<< 16) ||| 0x4#32, xferCount := n, rxq := rest, result := 0x00040000,
            irqStatus := s.irqStatus ||| 1, mem := u.mem } ∧
      u.rxBytes 0 n.toNat = bs ∧
      ∀ a, ¬ (0x2000 ≤ a ∧ a < 0x2000 + n.toNat) → u.readByte a = s.readByte a) ∧
  ∀ (s : State) (n : Half) (queued arriving : List Byte),
    s.rstActive = false → s.eng.phase = .idle → n.toNat ≤ 1032 → n ≠ 0 → queued.length + arriving.length = n.toNat → s.rxq = queued →
    ∃ t u, exec (.recv n) s = .next t ∧
      runEvents (List.replicate queued.length .engine ++ arriving.flatMap fun b => [.linkRx b, .engine]) t = .next u ∧
      u = { s with
            eng := Eng.idle, cmdLast := (n.setWidth 32 <<< 16) ||| 0x4#32, xferCount := n, rxq := [], result := 0x00040000,
            irqStatus := s.irqStatus ||| 1, mem := u.mem } ∧
      u.rxBytes 0 n.toNat = queued ++ arriving ∧
      ∀ a, ¬ (0x2000 ≤ a ∧ a < 0x2000 + n.toNat) → u.readByte a = s.readByte a

/-- Success of RECV means exactly COUNT bytes: from a consistent receiving RECV, an event that leaves the Engine idle is an Engine step
with XFER_COUNT = COUNT and code NONE, or a Timer step with XFER_COUNT < COUNT and code TIMEOUT, or a write to CTRL, or the hardware
reset (R212). -/
def Obligations.RecvSucceedsOnlyWithAllItsBytes : Prop :=
  ∀ (s t : State) (e : Event), Inv s → s.eng.phase = .rxRaw → runEvent e s = .next t → t.eng.phase = .idle →
    (e = .engine ∧ t.xferCount = s.eng.endIdx ∧ t.result = 0x00040000) ∨
    (e = .timer ∧ t.xferCount.toNat < s.eng.endIdx.toNat ∧ t.result = 0x00040005) ∨
    (∃ v, e = issue .ctrl v ∧ v.getLsbD 1 = false ∧ t.xferCount = s.eng.idx ∧ t.result = 0x00040008) ∨
    (∃ v, e = issue .ctrl v ∧ v.getLsbD 1 = true ∧ t.result = 0) ∨
    (e = .rst true ∧ t.result = 0)

/-- The timeout: enabled exactly while a receive phase waits on an empty FIFO with RX_TIMEOUT ≠ 0; it ends RECV with TIMEOUT and DEC with
FRAMING_HDR or FRAMING_PAY, keeping XFER_COUNT and every byte (R207). Where it is not enabled the Timer does nothing, which is the model's choice (log entry 3). -/
def Obligations.TimeoutEndsAReceive : Prop :=
  ∀ s : State, s.rstActive = false →
    (s.eng.idx.toNat < s.eng.endIdx.toNat → s.rxq = [] → s.rxTimeout ≠ 0 →
      (s.eng = ⟨.recv, .rxRaw, s.eng.idx, s.eng.endIdx⟩ →
        runEvent .timer s = .next { s with eng := Eng.idle, result := 0x00040005, irqStatus := s.irqStatus ||| 2 }) ∧
      (s.eng = ⟨.dec, .rxHdr, s.eng.idx, s.eng.endIdx⟩ →
        runEvent .timer s = .next { s with eng := Eng.idle, result := 0x00060006, irqStatus := s.irqStatus ||| 2 }) ∧
      (s.eng = ⟨.dec, .rxPay, s.eng.idx, s.eng.endIdx⟩ →
        runEvent .timer s = .next { s with eng := Eng.idle, result := 0x00060007, irqStatus := s.irqStatus ||| 2 })) ∧
    (s.rxTimeout = 0 ∨ s.rxq ≠ [] ∨ s.eng.endIdx.toNat ≤ s.eng.idx.toNat ∨ s.eng.phase = .idle ∨ s.eng.phase = .build ∨
        s.eng.phase = .parse ∨ s.eng.phase = .tx →
      runEvent .timer s = .next s)

/-- A receive with RX_TIMEOUT ≠ 0 always finishes (R209). Bounded: from any consistent state in which RECV or DEC runs, Engine steps while
bytes are queued and one Timer step leave the Engine idle (a step that is not enabled changes nothing, log entry 3). Over endless runs: in
every run in which Engine and Timer steps are weakly fair, a RECV or DEC that runs with RX_TIMEOUT ≠ 0 as long as it runs becomes idle. -/
def Obligations.ReceiveWithTimeoutFinishes : Prop :=
  (∀ s : State, Inv s → s.rstActive = false → s.rxTimeout ≠ 0 → s.eng.op = .recv ∨ s.eng.op = .dec →
    ∃ t, runEvents (List.replicate (s.rxq.length + 1) .engine ++ [.timer]) s = .next t ∧ t.eng = Eng.idle) ∧
  ∀ (states : Nat → State) (events : Nat → Event) (n : Nat),
    IsFairRun states events → Inv (states n) → (states n).eng.op = .recv ∨ (states n).eng.op = .dec →
    (∀ m, n ≤ m → (∀ k, n ≤ k → k ≤ m → (states k).eng.phase ≠ .idle) → (states m).rxTimeout ≠ 0) →
    ∃ m, n ≤ m ∧ (states m).eng = Eng.idle

/-- Without LinkTx a transmission waits, and without LinkRx and with RX_TIMEOUT = 0 a receive waits: no Engine or Timer step moves
either (a step that is not enabled changes nothing, log entry 3), and no run ends either but by ABORT, SRST or the hardware reset. In a
run that is fair to the Engine and in which LinkTx keeps accepting, a SEND or ENC becomes idle (R203, R209, 43_control.md R281,
70_reset_and_hazards.md R362). -/
def Obligations.StalledCommandsWait : Prop :=
  (∀ s : State, s.rstActive = false → s.eng.idx.toNat < s.eng.endIdx.toNat →
    (s.eng.phase = .tx → runEvent .engine s = .next s ∧ runEvent .timer s = .next s) ∧
    (s.eng.phase = .rxRaw ∨ s.eng.phase = .rxHdr ∨ s.eng.phase = .rxPay → s.rxq = [] → s.rxTimeout = 0 →
      runEvent .engine s = .next s ∧ runEvent .timer s = .next s ∧ runEvent .linkTx s = .next s)) ∧
  ∀ (states : Nat → State) (events : Nat → Event) (n : Nat), IsRun states events →
    ((states n).eng.phase = .tx → (states n).eng.idx.toNat < (states n).eng.endIdx.toNat →
      (∀ m, n ≤ m → events m ≠ .linkTx ∧ ¬ endsFromOutside (events m)) → ∀ m, n ≤ m → (states m).eng = (states n).eng) ∧
    ((states n).eng.phase = .rxRaw ∨ (states n).eng.phase = .rxHdr ∨ (states n).eng.phase = .rxPay →
      (states n).eng.idx.toNat < (states n).eng.endIdx.toNat → (states n).rxq = [] → (states n).rxTimeout = 0 →
      (∀ m, n ≤ m → (∀ b, events m ≠ .linkRx b) ∧ (∀ v : Word, v ≠ 0 → events m ≠ .host (.write 0x1C .word v)) ∧
        ¬ endsFromOutside (events m)) →
      ∀ m, n ≤ m → (states m).eng = (states n).eng) ∧
    (IsFairRun states events → Inv (states n) → (states n).eng.op = .send ∨ (states n).eng.op = .enc →
      (∀ k, ∃ m, k ≤ m ∧ events m = .linkTx) → ∃ m, n ≤ m ∧ (states m).eng = Eng.idle)

/-! ### The pipeline -/

/-- ENC on legal operands, from acceptance on, with LinkTx accepting each byte: txOut gains the frame of (TX_ID, STATUS, payload),
TXBUF[0..8+LENGTH) holds it, TX_HDR.CSUM is its checksum, XFER_COUNT = 8 + LENGTH, code NONE; nothing else changes (R240, R242). -/
def Obligations.EncTransmitsTheFrame : Prop :=
  ∀ s : State, s.rstActive = false → s.eng.phase = .idle → s.txLength.toNat ≤ 1024 → 1 ≤ s.txStatus.toNat → s.txStatus.toNat ≤ 5 →
    ∃ t u, exec .enc s = .next t ∧
      runEvents (.engine :: List.replicate (8 + s.txLength.toNat) .linkTx) t = .next u ∧
      u = { s with
            eng := Eng.idle, cmdLast := 0x00000005, xferCount := 8 + s.txLength, result := 0x00050000,
            irqStatus := s.irqStatus ||| 1, txCsum := csum s.txPayload,
            txOut := s.txOut ++ frame s.txId s.txStatus s.txPayload, mem := u.mem } ∧
      u.txBytes 0 (8 + s.txLength.toNat) = frame s.txId s.txStatus s.txPayload ∧
      ∀ a, ¬ (0x1000 ≤ a ∧ a < 0x1008) → u.readByte a = s.readByte a

/-- An ENC ended by ABORT after k of its bytes were accepted: txOut gained the first k bytes of the frame, XFER_COUNT = k, the header was
built, code ABORTED; nothing else changes (R242, R280). -/
def Obligations.AbortedEncSendsAPrefix : Prop :=
  ∀ (s : State) (k : Nat) (ign : BitVec 29),
    s.rstActive = false → s.eng.phase = .idle → s.encodeError = .none → k < 8 + s.txLength.toNat →
    ∃ t u v, exec .enc s = .next t ∧ runEvents (.engine :: List.replicate k .linkTx) t = .next u ∧ exec (.abort false ign) u = .next v ∧
      v = { s with
            eng := Eng.idle, cmdLast := 0x00000005, xferCount := BitVec.ofNat 16 k, result := 0x00050008, irqStatus := s.irqStatus ||| 2,
            txCsum := csum s.txPayload, txOut := s.txOut ++ (frame s.txId s.txStatus s.txPayload).take k, mem := v.mem } ∧
      v.txBytes 0 (8 + s.txLength.toNat) = frame s.txId s.txStatus s.txPayload ∧
      ∀ a, ¬ (0x1000 ≤ a ∧ a < 0x1008) → v.readByte a = s.readByte a

/-- A successful ENC leaves the same buffers, TX_HDR and txOut as a successful ENCB followed at once by SEND (8 + LENGTH) (R241). -/
def Obligations.EncEqualsEncbThenSend : Prop :=
  ∀ s : State, s.rstActive = false → s.eng.phase = .idle → s.encodeError = .none →
    ∃ t u v w x y, exec .enc s = .next t ∧
      runEvents (.engine :: List.replicate (8 + s.txLength.toNat) .linkTx) t = .next u ∧
      exec .encb s = .next v ∧ runEvents [.engine] v = .next w ∧
      exec (.send (8 + s.txLength)) w = .next x ∧
      runEvents (List.replicate (8 + s.txLength.toNat) .linkTx) x = .next y ∧
      u.mem = y.mem ∧ u.readReg .txHdr = y.readReg .txHdr ∧ u.txOut = y.txOut ∧
      u.irqStatus = y.irqStatus ∧ u.xferCount = y.xferCount ∧ u.rxq = y.rxq

/-- DEC of a frame, its bytes already queued at acceptance, or arriving while DEC runs, or the first queued and the others arriving, each
taken as it comes: RX_ID and RX_HDR are the header's fields, RX_CSUM the payload's checksum, RXBUF[0..8+length) the frame image, XFER_COUNT
= 8 + length; a checksum mismatch or an unknown status is reported and is no error; every other byte and every other field is unchanged.
The bytes queued are taken first, and those behind a frame wholly queued, such as the next frame, stay queued (R245 to R247). -/
def Obligations.DecReceivesTheFrame : Prop :=
  ∀ (s : State) (id : Word) (st c : Byte) (pl queued arriving rest : List Byte),
    s.rstActive = false → s.eng.phase = .idle → pl.length ≤ 1024 →
    headerBytes id st c (BitVec.ofNat 16 pl.length) ++ pl = queued ++ arriving →
    s.rxq = queued ++ rest → arriving = [] ∨ rest = [] →
    ∃ t u, exec .dec s = .next t ∧
      runEvents (List.replicate queued.length .engine ++ arriving.flatMap fun b => [.linkRx b, .engine]) t = .next u ∧
      u = { s with
            eng := Eng.idle, cmdLast := 0x00000006, xferCount := BitVec.ofNat 16 (8 + pl.length), rxq := rest, rxId := id, rxStatus := st,
            rxCsumHdr := c, rxLength := BitVec.ofNat 16 pl.length, rxCsumCalc := csum pl, irqStatus := s.irqStatus ||| 1,
            result :=
              0x00060000#32 ||| (if csum pl = c then 0x100#32 else 0) |||
                (if 1 ≤ st.toNat ∧ st.toNat ≤ 5 then 0 else 0x200#32),
            mem := u.mem } ∧
      u.rxBytes 0 (8 + pl.length) = headerBytes id st c (BitVec.ofNat 16 pl.length) ++ pl ∧
      ∀ a, ¬ (0x2000 ≤ a ∧ a < 0x2000 + (8 + pl.length)) → u.readByte a = s.readByte a

/-- DEC stops after a header that declares more than 1024 bytes: code LENGTH in the step of the 8th byte, RX_ID and RX_HDR written,
RX_CSUM not, the rest of the stream left queued (R246, R248). -/
def Obligations.DecStopsAfterAnOverlongHeader : Prop :=
  ∀ (s : State) (bs rest : List Byte) (id : Word) (st c : Byte) (len : Half),
    s.rstActive = false → s.eng.phase = .idle → bs = headerBytes id st c len → len.toNat > 1024 → s.rxq = bs ++ rest →
    ∃ t u, exec .dec s = .next t ∧ runEvents (List.replicate 8 .engine) t = .next u ∧
      u = { s with
            eng := Eng.idle, cmdLast := 0x00000006, xferCount := 8, rxq := rest, rxId := id, rxStatus := st, rxCsumHdr := c,
            rxLength := len, result := 0x00060003, irqStatus := s.irqStatus ||| 2, mem := u.mem } ∧
      u.rxBytes 0 8 = bs ∧ ∀ a, ¬ (0x2000 ≤ a ∧ a < 0x2008) → u.readByte a = s.readByte a

/-- The frame of an Engine step of RECV or DEC: no byte changes but RXBUF[idx], and no field but the Engine, XFER_COUNT, the FIFO, RX_ID,
RX_HDR, RX_CSUM, RESULT and IRQ_STATUS (R206, R246, R247). -/
def Obligations.ReceiveStepFrame : Prop :=
  ∀ s : State, s.eng.phase = .rxRaw ∨ s.eng.phase = .rxHdr ∨ s.eng.phase = .rxPay →
    s.engineStep =
      { s with
        eng := s.engineStep.eng, xferCount := s.engineStep.xferCount, rxq := s.engineStep.rxq, mem := s.engineStep.mem,
        rxId := s.engineStep.rxId, rxStatus := s.engineStep.rxStatus, rxCsumHdr := s.engineStep.rxCsumHdr,
        rxLength := s.engineStep.rxLength, rxCsumCalc := s.engineStep.rxCsumCalc, result := s.engineStep.result,
        irqStatus := s.engineStep.irqStatus } ∧
    ∀ a, a ≠ 0x2000 + s.eng.idx.toNat → s.engineStep.readByte a = s.readByte a

/-! ### Control actions -/

/-- ABORT without RXFLUSH, whatever the ignored bits: busy, the command ends with ABORTED and XFER_COUNT is kept; idle, nothing changes
(R280). -/
def Obligations.AbortEndsTheCommand : Prop :=
  ∀ (s : State) (ign : BitVec 29),
    (s.eng.phase = .idle → exec (.abort false ign) s = .next s) ∧
    (s.eng.phase ≠ .idle →
      ∃ r : Word, r.extractLsb' 0 16 = 8 ∧ r.extractLsb' 16 4 = s.eng.op.code ∧ r.extractLsb' 20 12 = 0 ∧
        exec (.abort false ign) s = .next { s with eng := Eng.idle, result := r, irqStatus := s.irqStatus ||| 2 })

/-- RXFLUSH empties the FIFO when idle; when busy it is ignored and sets BSYERR. With ABORT in the same write, in either spelling of the
word, the abort comes first, so the FIFO is emptied with no BSYERR (R286, R289). -/
def Obligations.RxflushEmptiesTheFifo : Prop :=
  ∀ (s : State) (ign : BitVec 29),
    (s.eng.phase = .idle →
      exec (.rxflush false ign) s = .next { s with rxq := [] } ∧
      exec (.rxflush true ign) s = .next { s with rxq := [] } ∧ exec (.abort true ign) s = .next { s with rxq := [] }) ∧
    (s.eng.phase ≠ .idle →
      exec (.rxflush false ign) s = .next { s with irqStatus := s.irqStatus ||| 8 } ∧
      ∃ r : Word, r.extractLsb' 0 16 = 8 ∧ r.extractLsb' 16 4 = s.eng.op.code ∧ r.extractLsb' 20 12 = 0 ∧
        exec (.rxflush true ign) s = .next { s with eng := Eng.idle, rxq := [], result := r, irqStatus := s.irqStatus ||| 2 } ∧
        exec (.abort true ign) s = .next { s with eng := Eng.idle, rxq := [], result := r, irqStatus := s.irqStatus ||| 2 })

/-- One CTRL write with several action bits set (R289): SRST alone when v[1] = 1; else ABORT, then RXFLUSH; nothing when v[2:0] = 0;
bits 31:3 ignored. -/
def Obligations.CtrlWriteResolvesItsBits : Prop :=
  ∀ (s : State) (v : Word),
    ctrlWrite v s = .next
      (if v.getLsbD 1 then s.softReset
       else
         let a := if v.getLsbD 0 ∧ s.eng.phase ≠ .idle then s.finish .aborted false false else s
         if v.getLsbD 2 then (if a.eng.phase = .idle then { a with rxq := [] } else { a with irqStatus := a.irqStatus ||| 8 })
         else a)

/-! ### The host bus -/

/-- A host read changes nothing but the recorded response (the model's own field, log entry 5). At each register's offset it answers that
register's value, CAPS with the FIFO's depth in it (R34 to R48, R87); in a buffer, byte k of the value is the byte at offset + k, zeros
above (R82, R87). -/
def Obligations.ReadsHaveNoSideEffect : Prop :=
  ∀ (depth : Nat) (s : State), s.rstActive = false →
    (∀ addr size, ∃ r, runEvent (.host (.read addr size)) s depth = .next { s with busResp := some r }) ∧
    (∀ (a : Offset) (v : Word),
      (a, v) ∈
        ([(0x00, 0), (0x04, s.cmdLast),
         (0x08, (BitVec.ofNat 32 s.rxq.length <<< 16) ||| (s.eng.op.code.setWidth 32 <<< 4) ||| (if s.eng.phase = .idle then 0 else 1)),
         (0x0C, s.result), (0x10, s.xferCount.setWidth 32), (0x14, s.irqStatus.setWidth 32), (0x18, s.irqEnable.setWidth 32),
         (0x1C, s.rxTimeout), (0x20, s.txId),
         (0x24, (s.txLength.setWidth 32 <<< 16) ||| (s.txCsum.setWidth 32 <<< 8) ||| s.txStatus.setWidth 32), (0x28, s.rxId),
         (0x2C, (s.rxLength.setWidth 32 <<< 16) ||| (s.rxCsumHdr.setWidth 32 <<< 8) ||| s.rxStatus.setWidth 32),
         (0x30, s.rxCsumCalc.setWidth 32), (0x34, (BitVec.ofNat 32 depth <<< 16) ||| 0x0400#32)] : List (Offset × Word)) →
      runEvent (.host (.read a .word)) s depth = .next { s with busResp := some (.data v) }) ∧
    ∀ (a : Offset) (size : Size),
      0x1000 ≤ a.toNat ∧ a.toNat < 0x1408 ∨ 0x2000 ≤ a.toNat ∧ a.toNat < 0x2408 → a.toNat % sizeBytes size = 0 →
      ∃ v : Word,
        v.toNat < 2 ^ (8 * sizeBytes size) ∧
        (∀ k, k < sizeBytes size → v.extractLsb' (8 * k) 8 = s.readByte (a.toNat + k)) ∧
        runEvent (.host (.read a size)) s depth = .next { s with busResp := some (.data v) }

/-- An access to a reserved offset, a register access that is not an aligned word, and a buffer access that is not aligned to its size, end
with the ERROR response and change no state of the block (R85, R86, R49). -/
def Obligations.ForbiddenAccessIsABusError : Prop :=
  ∀ (s : State) (addr : Offset) (size : Size) (wdata : Word), s.rstActive = false →
    (addr.toNat < 0x038 ∧ (size ≠ .word ∨ addr.toNat % 4 ≠ 0) ∨ 0x038 ≤ addr.toNat ∧ addr.toNat < 0x1000 ∨
      0x1408 ≤ addr.toNat ∧ addr.toNat < 0x2000 ∨ 0x2408 ≤ addr.toNat ∨
      0x1000 ≤ addr.toNat ∧ (size = .half ∧ addr.toNat % 2 ≠ 0 ∨ size = .word ∧ addr.toNat % 4 ≠ 0)) →
    runEvent (.host (.read addr size)) s = .next { s with busResp := some (.error (.busError addr)) } ∧
    runEvent (.host (.write addr size wdata)) s = .next { s with busResp := some (.error (.busError addr)) }

/-- A buffer write while idle stores its bytes, byte k of the value at offset + k, and no other; a read of the same size then returns
the value's bytes, zero-extended (R82, R87, R88). -/
def Obligations.BufferWriteReadsBack : Prop :=
  ∀ (s : State) (addr : Offset) (size : Size) (wdata : Word),
    s.rstActive = false → s.eng.phase = .idle → isBufAddr addr.toNat = true → addr.toNat % sizeBytes size = 0 →
    ∃ t, runEvent (.host (.write addr size wdata)) s = .next t ∧
      t = { s with mem := t.mem, busResp := some .ok } ∧
      (∀ k, k < sizeBytes size → t.readByte (addr.toNat + k) = wdata.extractLsb' (8 * k) 8) ∧
      (∀ a, ¬ (addr.toNat ≤ a ∧ a < addr.toNat + sizeBytes size) → t.readByte a = s.readByte a) ∧
      runEvent (.host (.read addr size)) t = .next
        { t with busResp := some (.data (BitVec.ofNat 32 (wdata.toNat % 2 ^ (8 * sizeBytes size)))) }

/-- Host writes ignored while busy: TX_ID, TX_HDR, either buffer, and CTRL with RXFLUSH = 1, SRST = 0, ABORT = 0; each sets BSYERR, is
answered OK, and changes nothing else (R43, R44, R88, R286, R360). -/
def Obligations.HostWriteWhileBusyIsIgnored : Prop :=
  ∀ (s : State) (a : Access) (v : Word), s.rstActive = false → s.eng.phase ≠ .idle →
    (a = .write 0x20 .word v ∨ a = .write 0x24 .word v ∨
      a = .write 0x00 .word v ∧ v.getLsbD 2 = true ∧ v.getLsbD 1 = false ∧ v.getLsbD 0 = false ∨
      ∃ addr size, a = .write addr size v ∧ isBufAddr addr.toNat = true ∧ addr.toNat % sizeBytes size = 0) →
    runEvent (.host a) s = .next { s with irqStatus := s.irqStatus ||| 8, busResp := some .ok }

/-- The writable registers, busy or idle: IRQ_ENABLE takes bits 3:0, RX_TIMEOUT all 32 bits; while idle TX_ID takes all 32 bits and TX_HDR
its STATUS and LENGTH, not CSUM (R41 to R44). -/
def Obligations.RegisterWritesStore : Prop :=
  ∀ (s : State) (v : Word), s.rstActive = false →
    runEvent (.host (.write 0x18 .word v)) s = .next { s with irqEnable := v.extractLsb' 0 4, busResp := some .ok } ∧
    runEvent (.host (.write 0x1C .word v)) s = .next { s with rxTimeout := v, busResp := some .ok } ∧
    (s.eng.phase = .idle →
      runEvent (.host (.write 0x20 .word v)) s = .next { s with txId := v, busResp := some .ok } ∧
      runEvent (.host (.write 0x24 .word v)) s = .next
        { s with txStatus := v.extractLsb' 0 8, txLength := v.extractLsb' 16 16, busResp := some .ok })

/-- A write to a read-only register changes nothing and returns OK; CAPS always reads 0x00400400 (R34, R48). -/
def Obligations.ReadOnlyRegistersIgnoreWrites : Prop :=
  ∀ (s : State) (v : Word) (a : Offset), s.rstActive = false →
    (a = 0x08 ∨ a = 0x0C ∨ a = 0x10 ∨ a = 0x28 ∨ a = 0x2C ∨ a = 0x30 ∨ a = 0x34) →
    runEvent (.host (.write a .word v)) s = .next { s with busResp := some .ok } ∧
    runEvent (.host (.read 0x34 .word)) s = .next { s with busResp := some (.data 0x00400400) }

/-- STATUS, whatever the FIFO's depth: BUSY, OP and RX_LEVEL at their bits, reserved bits 0; after reset it reads 0 (R37). -/
def Obligations.StatusShowsTheEngineAndTheFifo : Prop :=
  (∀ (depth : Nat) (s : State), Config.depthLegal depth → Inv s depth →
    (s.readReg .status).extractLsb' 0 1 = BitVec.ofBool (decide (s.eng.phase ≠ .idle)) ∧
    (s.readReg .status).extractLsb' 1 3 = 0 ∧
    (s.readReg .status).extractLsb' 4 4 = s.eng.op.code ∧ (s.eng.phase = .idle → (s.readReg .status).extractLsb' 4 4 = 0) ∧
    (s.readReg .status).extractLsb' 8 8 = 0 ∧
    ((s.readReg .status).extractLsb' 16 16).toNat = s.rxq.length ∧ s.rxq.length ≤ depth) ∧
  State.reset.readReg .status = 0

/-! ### Interrupts -/

/-- The W1C write of IRQ_STATUS clears exactly the bits written as 1, busy or idle, and changes nothing else (R40, R98). -/
def Obligations.IrqStatusIsWriteOneToClear : Prop :=
  ∀ (s : State) (v : Word), s.rstActive = false →
    ∃ q : BitVec 4, (∀ i, i < 4 → q.getLsbD i = (s.irqStatus.getLsbD i && !v.getLsbD i)) ∧
      runEvent (.host (.write 0x14 .word v)) s = .next { s with irqStatus := q, busResp := some .ok }

/-- `irq` is high exactly when some source is pending and enabled; after reset it is low (R57, R308). -/
def Obligations.IrqLineIsPendingAndEnabled : Prop :=
  (∀ s : State, s.irq = true ↔ ∃ i, i < 4 ∧ s.irqStatus.getLsbD i = true ∧ s.irqEnable.getLsbD i = true) ∧ State.reset.irq = false

/-- The IRQ_STATUS bits are sticky: a bit once set stays set until a W1C write of it, SRST or the hardware reset (R40). -/
def Obligations.IrqStatusBitsAreSticky : Prop :=
  ∀ (s t : State) (e : Event) (i : Nat), runEvent e s = .next t → s.irqStatus.getLsbD i = true →
    t.irqStatus.getLsbD i = true ∨ (∃ v : Word, e = .host (.write 0x14 .word v) ∧ v.getLsbD i = true) ∨
      (∃ v : Word, e = issue .ctrl v ∧ v.getLsbD 1 = true) ∨ e = .rst true

/-! ### Rules about the whole machine -/

/-- Which command can end with which code: when a busy Engine becomes idle by no reset, RESULT is a completion record of the command
that ran, with a code that R302 gives it, and exactly DONE or ERR was set accordingly (R302, R305). -/
def Obligations.CommandsEndAsTheTableSays : Prop :=
  ∀ (s t : State) (e : Event), Inv s → s.eng.phase ≠ .idle → runEvent e s = .next t → t.eng.phase = .idle → e ≠ .rst true →
    (∀ v : Word, e = issue .ctrl v → v.getLsbD 1 = false) →
    ∃ (c : ErrCode) (m u : Bool), mayEndWith s.eng.op c = true ∧ t.result = resultWord s.eng.op.code c m u ∧
      t.irqStatus.getLsbD 0 = (s.irqStatus.getLsbD 0 || decide (c = .none)) ∧
      t.irqStatus.getLsbD 1 = (s.irqStatus.getLsbD 1 || decide (c ≠ .none)) ∧
      (m = true ∨ u = true → c = .none ∧ (s.eng.op = .decb ∨ s.eng.op = .dec))

/-- While a command runs, RESULT holds the previous record: an event that leaves the Engine busy does not change it (R38, R361). -/
def Obligations.ResultIsKeptWhileBusy : Prop :=
  ∀ (s t : State) (e : Event), runEvent e s = .next t → t.eng.phase ≠ .idle → t.result = s.result

/-- A running command's operands do not change under it, unless a reset ends it: TX_ID, TX_HDR.STATUS, TX_HDR.LENGTH and the payload bytes of
TXBUF under every command; TXBUF[0..8) too under SEND and in every transmit phase (before it ENCB and ENC write the header themselves);
all of RXBUF under DECB (RECV and DEC write it themselves) (R99, R43, R44, R88). -/
def Obligations.OperandsHoldWhileBusy : Prop :=
  ∀ (s t : State) (e : Event), s.eng.phase ≠ .idle → runEvent e s = .next t → e ≠ .rst true →
    (∀ v : Word, e = issue .ctrl v → v.getLsbD 1 = false) →
    t.txId = s.txId ∧ t.txStatus = s.txStatus ∧ t.txLength = s.txLength ∧
    (∀ a, 0x1008 ≤ a → a < 0x1408 → t.readByte a = s.readByte a) ∧
    (s.eng.op = .send ∨ s.eng.phase = .tx → ∀ a, 0x1000 ≤ a → a < 0x1408 → t.readByte a = s.readByte a) ∧
    (Inv s → s.eng.op = .decb → ∀ a, 0x2000 ≤ a → a < 0x2408 → t.readByte a = s.readByte a)

/-- TX_ID is opaque: nothing changes it but a host write of TX_ID while idle, SRST and the hardware reset (R5, R43). -/
def Obligations.TxIdChangesOnlyByHostWrite : Prop :=
  ∀ (s t : State) (e : Event), runEvent e s = .next t →
    t.txId = s.txId ∨ (∃ v : Word, e = .host (.write 0x20 .word v) ∧ s.eng.phase = .idle ∧ t.txId = v) ∨
      (∃ v : Word, e = issue .ctrl v ∧ v.getLsbD 1 = true ∧ t.txId = 0) ∨ (e = .rst true ∧ t.txId = 0)

/-- The FIFO changes only as R54 says: LinkRx appends a byte, an Engine step removes the head, RXFLUSH, SRST and the hardware reset empty
it. -/
def Obligations.FifoChangesOnlyAsStated : Prop :=
  ∀ (s t : State) (e : Event), runEvent e s = .next t →
    t.rxq = s.rxq ∨ (∃ b, e = .linkRx b ∧ t.rxq = s.rxq ++ [b]) ∨ (∃ b, e = .engine ∧ s.rxq = b :: t.rxq) ∨
      (∃ v : Word, e = issue .ctrl v ∧ (v.getLsbD 1 = true ∨ v.getLsbD 2 = true) ∧ t.rxq = []) ∨ (e = .rst true ∧ t.rxq = [])

/-- What LinkTx accepted stays: txOut only gains the byte offered, by TxEmit; only the hardware reset empties it (R55, R201). -/
def Obligations.TxOutOnlyGrowsByTheOfferedByte : Prop :=
  ∀ (s t : State) (e : Event), runEvent e s = .next t →
    t.txOut = s.txOut ∨ (e = .linkTx ∧ s.txValid = true ∧ t.txOut = s.txOut ++ [s.txData]) ∨ (e = .rst true ∧ t.txOut = [])
end

