-- ==== Sys2Proof/Laws/State.lean ====
section
/-! SUPPORT. One lemma per field per update of State: what each named update leaves in each field. -/

namespace Sys2Proof.Machine

/-! ### The fields after a buffer write -/

@[simp] theorem writeByte_eng (s : State) (a : Nat) (b : Byte) : (s.writeByte a b).eng = s.eng := rfl
@[simp] theorem writeByte_cmdLast (s : State) (a : Nat) (b : Byte) : (s.writeByte a b).cmdLast = s.cmdLast := rfl
@[simp] theorem writeByte_result (s : State) (a : Nat) (b : Byte) : (s.writeByte a b).result = s.result := rfl
@[simp] theorem writeByte_xferCount (s : State) (a : Nat) (b : Byte) : (s.writeByte a b).xferCount = s.xferCount := rfl
@[simp] theorem writeByte_irqStatus (s : State) (a : Nat) (b : Byte) : (s.writeByte a b).irqStatus = s.irqStatus := rfl
@[simp] theorem writeByte_irqEnable (s : State) (a : Nat) (b : Byte) : (s.writeByte a b).irqEnable = s.irqEnable := rfl
@[simp] theorem writeByte_rxTimeout (s : State) (a : Nat) (b : Byte) : (s.writeByte a b).rxTimeout = s.rxTimeout := rfl
@[simp] theorem writeByte_txId (s : State) (a : Nat) (b : Byte) : (s.writeByte a b).txId = s.txId := rfl
@[simp] theorem writeByte_txStatus (s : State) (a : Nat) (b : Byte) : (s.writeByte a b).txStatus = s.txStatus := rfl
@[simp] theorem writeByte_txCsum (s : State) (a : Nat) (b : Byte) : (s.writeByte a b).txCsum = s.txCsum := rfl
@[simp] theorem writeByte_txLength (s : State) (a : Nat) (b : Byte) : (s.writeByte a b).txLength = s.txLength := rfl
@[simp] theorem writeByte_rxId (s : State) (a : Nat) (b : Byte) : (s.writeByte a b).rxId = s.rxId := rfl
@[simp] theorem writeByte_rxStatus (s : State) (a : Nat) (b : Byte) : (s.writeByte a b).rxStatus = s.rxStatus := rfl
@[simp] theorem writeByte_rxCsumHdr (s : State) (a : Nat) (b : Byte) : (s.writeByte a b).rxCsumHdr = s.rxCsumHdr := rfl
@[simp] theorem writeByte_rxLength (s : State) (a : Nat) (b : Byte) : (s.writeByte a b).rxLength = s.rxLength := rfl
@[simp] theorem writeByte_rxCsumCalc (s : State) (a : Nat) (b : Byte) : (s.writeByte a b).rxCsumCalc = s.rxCsumCalc := rfl
@[simp] theorem writeByte_mem (s : State) (a : Nat) (b : Byte) : (s.writeByte a b).mem = Memory.write s.mem a b := rfl
@[simp] theorem writeByte_rxq (s : State) (a : Nat) (b : Byte) : (s.writeByte a b).rxq = s.rxq := rfl
@[simp] theorem writeByte_txOut (s : State) (a : Nat) (b : Byte) : (s.writeByte a b).txOut = s.txOut := rfl
@[simp] theorem writeByte_draws (s : State) (a : Nat) (b : Byte) : (s.writeByte a b).draws = s.draws := rfl
@[simp] theorem writeByte_rstActive (s : State) (a : Nat) (b : Byte) : (s.writeByte a b).rstActive = s.rstActive := rfl
@[simp] theorem writeByte_agenda (s : State) (a : Nat) (b : Byte) : (s.writeByte a b).agenda = s.agenda := rfl
@[simp] theorem writeByte_sched (s : State) (a : Nat) (b : Byte) : (s.writeByte a b).sched = s.sched := rfl
@[simp] theorem writeByte_busResp (s : State) (a : Nat) (b : Byte) : (s.writeByte a b).busResp = s.busResp := rfl

/-! ### The fields after setting IRQ_STATUS bits -/

@[simp] theorem setIrq_eng (s : State) (q : BitVec 4) : (s.setIrq q).eng = s.eng := rfl
@[simp] theorem setIrq_cmdLast (s : State) (q : BitVec 4) : (s.setIrq q).cmdLast = s.cmdLast := rfl
@[simp] theorem setIrq_result (s : State) (q : BitVec 4) : (s.setIrq q).result = s.result := rfl
@[simp] theorem setIrq_xferCount (s : State) (q : BitVec 4) : (s.setIrq q).xferCount = s.xferCount := rfl
@[simp] theorem setIrq_irqStatus (s : State) (q : BitVec 4) : (s.setIrq q).irqStatus = s.irqStatus ||| q := rfl
@[simp] theorem setIrq_irqEnable (s : State) (q : BitVec 4) : (s.setIrq q).irqEnable = s.irqEnable := rfl
@[simp] theorem setIrq_rxTimeout (s : State) (q : BitVec 4) : (s.setIrq q).rxTimeout = s.rxTimeout := rfl
@[simp] theorem setIrq_txId (s : State) (q : BitVec 4) : (s.setIrq q).txId = s.txId := rfl
@[simp] theorem setIrq_txStatus (s : State) (q : BitVec 4) : (s.setIrq q).txStatus = s.txStatus := rfl
@[simp] theorem setIrq_txCsum (s : State) (q : BitVec 4) : (s.setIrq q).txCsum = s.txCsum := rfl
@[simp] theorem setIrq_txLength (s : State) (q : BitVec 4) : (s.setIrq q).txLength = s.txLength := rfl
@[simp] theorem setIrq_rxId (s : State) (q : BitVec 4) : (s.setIrq q).rxId = s.rxId := rfl
@[simp] theorem setIrq_rxStatus (s : State) (q : BitVec 4) : (s.setIrq q).rxStatus = s.rxStatus := rfl
@[simp] theorem setIrq_rxCsumHdr (s : State) (q : BitVec 4) : (s.setIrq q).rxCsumHdr = s.rxCsumHdr := rfl
@[simp] theorem setIrq_rxLength (s : State) (q : BitVec 4) : (s.setIrq q).rxLength = s.rxLength := rfl
@[simp] theorem setIrq_rxCsumCalc (s : State) (q : BitVec 4) : (s.setIrq q).rxCsumCalc = s.rxCsumCalc := rfl
@[simp] theorem setIrq_mem (s : State) (q : BitVec 4) : (s.setIrq q).mem = s.mem := rfl
@[simp] theorem setIrq_rxq (s : State) (q : BitVec 4) : (s.setIrq q).rxq = s.rxq := rfl
@[simp] theorem setIrq_txOut (s : State) (q : BitVec 4) : (s.setIrq q).txOut = s.txOut := rfl
@[simp] theorem setIrq_draws (s : State) (q : BitVec 4) : (s.setIrq q).draws = s.draws := rfl
@[simp] theorem setIrq_rstActive (s : State) (q : BitVec 4) : (s.setIrq q).rstActive = s.rstActive := rfl
@[simp] theorem setIrq_agenda (s : State) (q : BitVec 4) : (s.setIrq q).agenda = s.agenda := rfl
@[simp] theorem setIrq_sched (s : State) (q : BitVec 4) : (s.setIrq q).sched = s.sched := rfl
@[simp] theorem setIrq_busResp (s : State) (q : BitVec 4) : (s.setIrq q).busResp = s.busResp := rfl

/-! ### The fields after acknowledgment -/

@[simp] theorem ackIrq_eng (s : State) (q : BitVec 4) : (s.ackIrq q).eng = s.eng := rfl
@[simp] theorem ackIrq_cmdLast (s : State) (q : BitVec 4) : (s.ackIrq q).cmdLast = s.cmdLast := rfl
@[simp] theorem ackIrq_result (s : State) (q : BitVec 4) : (s.ackIrq q).result = s.result := rfl
@[simp] theorem ackIrq_xferCount (s : State) (q : BitVec 4) : (s.ackIrq q).xferCount = s.xferCount := rfl
@[simp] theorem ackIrq_irqStatus (s : State) (q : BitVec 4) : (s.ackIrq q).irqStatus = s.irqStatus &&& ~~~q := rfl
@[simp] theorem ackIrq_irqEnable (s : State) (q : BitVec 4) : (s.ackIrq q).irqEnable = s.irqEnable := rfl
@[simp] theorem ackIrq_rxTimeout (s : State) (q : BitVec 4) : (s.ackIrq q).rxTimeout = s.rxTimeout := rfl
@[simp] theorem ackIrq_txId (s : State) (q : BitVec 4) : (s.ackIrq q).txId = s.txId := rfl
@[simp] theorem ackIrq_txStatus (s : State) (q : BitVec 4) : (s.ackIrq q).txStatus = s.txStatus := rfl
@[simp] theorem ackIrq_txCsum (s : State) (q : BitVec 4) : (s.ackIrq q).txCsum = s.txCsum := rfl
@[simp] theorem ackIrq_txLength (s : State) (q : BitVec 4) : (s.ackIrq q).txLength = s.txLength := rfl
@[simp] theorem ackIrq_rxId (s : State) (q : BitVec 4) : (s.ackIrq q).rxId = s.rxId := rfl
@[simp] theorem ackIrq_rxStatus (s : State) (q : BitVec 4) : (s.ackIrq q).rxStatus = s.rxStatus := rfl
@[simp] theorem ackIrq_rxCsumHdr (s : State) (q : BitVec 4) : (s.ackIrq q).rxCsumHdr = s.rxCsumHdr := rfl
@[simp] theorem ackIrq_rxLength (s : State) (q : BitVec 4) : (s.ackIrq q).rxLength = s.rxLength := rfl
@[simp] theorem ackIrq_rxCsumCalc (s : State) (q : BitVec 4) : (s.ackIrq q).rxCsumCalc = s.rxCsumCalc := rfl
@[simp] theorem ackIrq_mem (s : State) (q : BitVec 4) : (s.ackIrq q).mem = s.mem := rfl
@[simp] theorem ackIrq_rxq (s : State) (q : BitVec 4) : (s.ackIrq q).rxq = s.rxq := rfl
@[simp] theorem ackIrq_txOut (s : State) (q : BitVec 4) : (s.ackIrq q).txOut = s.txOut := rfl
@[simp] theorem ackIrq_draws (s : State) (q : BitVec 4) : (s.ackIrq q).draws = s.draws := rfl
@[simp] theorem ackIrq_rstActive (s : State) (q : BitVec 4) : (s.ackIrq q).rstActive = s.rstActive := rfl
@[simp] theorem ackIrq_agenda (s : State) (q : BitVec 4) : (s.ackIrq q).agenda = s.agenda := rfl
@[simp] theorem ackIrq_sched (s : State) (q : BitVec 4) : (s.ackIrq q).sched = s.sched := rfl
@[simp] theorem ackIrq_busResp (s : State) (q : BitVec 4) : (s.ackIrq q).busResp = s.busResp := rfl

/-! ### The fields after completion -/

@[simp] theorem finishAs_eng (s : State) (o : BitVec 4) (c : ErrCode) (m u : Bool) : (s.finishAs o c m u).eng = Eng.idle := rfl
@[simp] theorem finishAs_cmdLast (s : State) (o : BitVec 4) (c : ErrCode) (m u : Bool) : (s.finishAs o c m u).cmdLast = s.cmdLast := rfl
@[simp] theorem finishAs_result (s : State) (o : BitVec 4) (c : ErrCode) (m u : Bool) : (s.finishAs o c m u).result = resultWord o c m u := rfl
@[simp] theorem finishAs_xferCount (s : State) (o : BitVec 4) (c : ErrCode) (m u : Bool) : (s.finishAs o c m u).xferCount = s.xferCount := rfl
@[simp] theorem finishAs_irqStatus (s : State) (o : BitVec 4) (c : ErrCode) (m u : Bool) : (s.finishAs o c m u).irqStatus = s.irqStatus ||| completionIrq c := rfl
@[simp] theorem finishAs_irqEnable (s : State) (o : BitVec 4) (c : ErrCode) (m u : Bool) : (s.finishAs o c m u).irqEnable = s.irqEnable := rfl
@[simp] theorem finishAs_rxTimeout (s : State) (o : BitVec 4) (c : ErrCode) (m u : Bool) : (s.finishAs o c m u).rxTimeout = s.rxTimeout := rfl
@[simp] theorem finishAs_txId (s : State) (o : BitVec 4) (c : ErrCode) (m u : Bool) : (s.finishAs o c m u).txId = s.txId := rfl
@[simp] theorem finishAs_txStatus (s : State) (o : BitVec 4) (c : ErrCode) (m u : Bool) : (s.finishAs o c m u).txStatus = s.txStatus := rfl
@[simp] theorem finishAs_txCsum (s : State) (o : BitVec 4) (c : ErrCode) (m u : Bool) : (s.finishAs o c m u).txCsum = s.txCsum := rfl
@[simp] theorem finishAs_txLength (s : State) (o : BitVec 4) (c : ErrCode) (m u : Bool) : (s.finishAs o c m u).txLength = s.txLength := rfl
@[simp] theorem finishAs_rxId (s : State) (o : BitVec 4) (c : ErrCode) (m u : Bool) : (s.finishAs o c m u).rxId = s.rxId := rfl
@[simp] theorem finishAs_rxStatus (s : State) (o : BitVec 4) (c : ErrCode) (m u : Bool) : (s.finishAs o c m u).rxStatus = s.rxStatus := rfl
@[simp] theorem finishAs_rxCsumHdr (s : State) (o : BitVec 4) (c : ErrCode) (m u : Bool) : (s.finishAs o c m u).rxCsumHdr = s.rxCsumHdr := rfl
@[simp] theorem finishAs_rxLength (s : State) (o : BitVec 4) (c : ErrCode) (m u : Bool) : (s.finishAs o c m u).rxLength = s.rxLength := rfl
@[simp] theorem finishAs_rxCsumCalc (s : State) (o : BitVec 4) (c : ErrCode) (m u : Bool) : (s.finishAs o c m u).rxCsumCalc = s.rxCsumCalc := rfl
@[simp] theorem finishAs_mem (s : State) (o : BitVec 4) (c : ErrCode) (m u : Bool) : (s.finishAs o c m u).mem = s.mem := rfl
@[simp] theorem finishAs_rxq (s : State) (o : BitVec 4) (c : ErrCode) (m u : Bool) : (s.finishAs o c m u).rxq = s.rxq := rfl
@[simp] theorem finishAs_txOut (s : State) (o : BitVec 4) (c : ErrCode) (m u : Bool) : (s.finishAs o c m u).txOut = s.txOut := rfl
@[simp] theorem finishAs_draws (s : State) (o : BitVec 4) (c : ErrCode) (m u : Bool) : (s.finishAs o c m u).draws = s.draws := rfl
@[simp] theorem finishAs_rstActive (s : State) (o : BitVec 4) (c : ErrCode) (m u : Bool) : (s.finishAs o c m u).rstActive = s.rstActive := rfl
@[simp] theorem finishAs_agenda (s : State) (o : BitVec 4) (c : ErrCode) (m u : Bool) : (s.finishAs o c m u).agenda = s.agenda := rfl
@[simp] theorem finishAs_sched (s : State) (o : BitVec 4) (c : ErrCode) (m u : Bool) : (s.finishAs o c m u).sched = s.sched := rfl
@[simp] theorem finishAs_busResp (s : State) (o : BitVec 4) (c : ErrCode) (m u : Bool) : (s.finishAs o c m u).busResp = s.busResp := rfl

/-! ### The fields after starting a command -/

@[simp] theorem startCmd_eng (s : State) (o : EngOp) (n : Half) : (s.startCmd o n).eng = startEng o n := rfl
@[simp] theorem startCmd_cmdLast (s : State) (o : EngOp) (n : Half) : (s.startCmd o n).cmdLast = s.cmdLast := rfl
@[simp] theorem startCmd_result (s : State) (o : EngOp) (n : Half) : (s.startCmd o n).result = s.result := rfl
@[simp] theorem startCmd_xferCount (s : State) (o : EngOp) (n : Half) : (s.startCmd o n).xferCount = s.xferCount := rfl
@[simp] theorem startCmd_irqStatus (s : State) (o : EngOp) (n : Half) : (s.startCmd o n).irqStatus = s.irqStatus := rfl
@[simp] theorem startCmd_irqEnable (s : State) (o : EngOp) (n : Half) : (s.startCmd o n).irqEnable = s.irqEnable := rfl
@[simp] theorem startCmd_rxTimeout (s : State) (o : EngOp) (n : Half) : (s.startCmd o n).rxTimeout = s.rxTimeout := rfl
@[simp] theorem startCmd_txId (s : State) (o : EngOp) (n : Half) : (s.startCmd o n).txId = s.txId := rfl
@[simp] theorem startCmd_txStatus (s : State) (o : EngOp) (n : Half) : (s.startCmd o n).txStatus = s.txStatus := rfl
@[simp] theorem startCmd_txCsum (s : State) (o : EngOp) (n : Half) : (s.startCmd o n).txCsum = s.txCsum := rfl
@[simp] theorem startCmd_txLength (s : State) (o : EngOp) (n : Half) : (s.startCmd o n).txLength = s.txLength := rfl
@[simp] theorem startCmd_rxId (s : State) (o : EngOp) (n : Half) : (s.startCmd o n).rxId = s.rxId := rfl
@[simp] theorem startCmd_rxStatus (s : State) (o : EngOp) (n : Half) : (s.startCmd o n).rxStatus = s.rxStatus := rfl
@[simp] theorem startCmd_rxCsumHdr (s : State) (o : EngOp) (n : Half) : (s.startCmd o n).rxCsumHdr = s.rxCsumHdr := rfl
@[simp] theorem startCmd_rxLength (s : State) (o : EngOp) (n : Half) : (s.startCmd o n).rxLength = s.rxLength := rfl
@[simp] theorem startCmd_rxCsumCalc (s : State) (o : EngOp) (n : Half) : (s.startCmd o n).rxCsumCalc = s.rxCsumCalc := rfl
@[simp] theorem startCmd_mem (s : State) (o : EngOp) (n : Half) : (s.startCmd o n).mem = s.mem := rfl
@[simp] theorem startCmd_rxq (s : State) (o : EngOp) (n : Half) : (s.startCmd o n).rxq = s.rxq := rfl
@[simp] theorem startCmd_txOut (s : State) (o : EngOp) (n : Half) : (s.startCmd o n).txOut = s.txOut := rfl
@[simp] theorem startCmd_draws (s : State) (o : EngOp) (n : Half) : (s.startCmd o n).draws = s.draws := rfl
@[simp] theorem startCmd_rstActive (s : State) (o : EngOp) (n : Half) : (s.startCmd o n).rstActive = s.rstActive := rfl
@[simp] theorem startCmd_agenda (s : State) (o : EngOp) (n : Half) : (s.startCmd o n).agenda = s.agenda := rfl
@[simp] theorem startCmd_sched (s : State) (o : EngOp) (n : Half) : (s.startCmd o n).sched = s.sched := rfl
@[simp] theorem startCmd_busResp (s : State) (o : EngOp) (n : Half) : (s.startCmd o n).busResp = s.busResp := rfl

/-! ### The fields after the bus response -/

@[simp] theorem respond_eng (s : State) (r : BusResponse) : (s.respond r).eng = s.eng := rfl
@[simp] theorem respond_cmdLast (s : State) (r : BusResponse) : (s.respond r).cmdLast = s.cmdLast := rfl
@[simp] theorem respond_result (s : State) (r : BusResponse) : (s.respond r).result = s.result := rfl
@[simp] theorem respond_xferCount (s : State) (r : BusResponse) : (s.respond r).xferCount = s.xferCount := rfl
@[simp] theorem respond_irqStatus (s : State) (r : BusResponse) : (s.respond r).irqStatus = s.irqStatus := rfl
@[simp] theorem respond_irqEnable (s : State) (r : BusResponse) : (s.respond r).irqEnable = s.irqEnable := rfl
@[simp] theorem respond_rxTimeout (s : State) (r : BusResponse) : (s.respond r).rxTimeout = s.rxTimeout := rfl
@[simp] theorem respond_txId (s : State) (r : BusResponse) : (s.respond r).txId = s.txId := rfl
@[simp] theorem respond_txStatus (s : State) (r : BusResponse) : (s.respond r).txStatus = s.txStatus := rfl
@[simp] theorem respond_txCsum (s : State) (r : BusResponse) : (s.respond r).txCsum = s.txCsum := rfl
@[simp] theorem respond_txLength (s : State) (r : BusResponse) : (s.respond r).txLength = s.txLength := rfl
@[simp] theorem respond_rxId (s : State) (r : BusResponse) : (s.respond r).rxId = s.rxId := rfl
@[simp] theorem respond_rxStatus (s : State) (r : BusResponse) : (s.respond r).rxStatus = s.rxStatus := rfl
@[simp] theorem respond_rxCsumHdr (s : State) (r : BusResponse) : (s.respond r).rxCsumHdr = s.rxCsumHdr := rfl
@[simp] theorem respond_rxLength (s : State) (r : BusResponse) : (s.respond r).rxLength = s.rxLength := rfl
@[simp] theorem respond_rxCsumCalc (s : State) (r : BusResponse) : (s.respond r).rxCsumCalc = s.rxCsumCalc := rfl
@[simp] theorem respond_mem (s : State) (r : BusResponse) : (s.respond r).mem = s.mem := rfl
@[simp] theorem respond_rxq (s : State) (r : BusResponse) : (s.respond r).rxq = s.rxq := rfl
@[simp] theorem respond_txOut (s : State) (r : BusResponse) : (s.respond r).txOut = s.txOut := rfl
@[simp] theorem respond_draws (s : State) (r : BusResponse) : (s.respond r).draws = s.draws := rfl
@[simp] theorem respond_rstActive (s : State) (r : BusResponse) : (s.respond r).rstActive = s.rstActive := rfl
@[simp] theorem respond_agenda (s : State) (r : BusResponse) : (s.respond r).agenda = s.agenda := rfl
@[simp] theorem respond_sched (s : State) (r : BusResponse) : (s.respond r).sched = s.sched := rfl
@[simp] theorem respond_busResp (s : State) (r : BusResponse) : (s.respond r).busResp = some r := rfl

/-! ### The fields after latching a header -/

@[simp] theorem latchHeader_eng (s : State) : s.latchHeader.eng = s.eng := rfl
@[simp] theorem latchHeader_cmdLast (s : State) : s.latchHeader.cmdLast = s.cmdLast := rfl
@[simp] theorem latchHeader_result (s : State) : s.latchHeader.result = s.result := rfl
@[simp] theorem latchHeader_xferCount (s : State) : s.latchHeader.xferCount = s.xferCount := rfl
@[simp] theorem latchHeader_irqStatus (s : State) : s.latchHeader.irqStatus = s.irqStatus := rfl
@[simp] theorem latchHeader_irqEnable (s : State) : s.latchHeader.irqEnable = s.irqEnable := rfl
@[simp] theorem latchHeader_rxTimeout (s : State) : s.latchHeader.rxTimeout = s.rxTimeout := rfl
@[simp] theorem latchHeader_txId (s : State) : s.latchHeader.txId = s.txId := rfl
@[simp] theorem latchHeader_txStatus (s : State) : s.latchHeader.txStatus = s.txStatus := rfl
@[simp] theorem latchHeader_txCsum (s : State) : s.latchHeader.txCsum = s.txCsum := rfl
@[simp] theorem latchHeader_txLength (s : State) : s.latchHeader.txLength = s.txLength := rfl
@[simp] theorem latchHeader_rxId (s : State) : s.latchHeader.rxId = BitVec.ofNat 32 (fromLE (s.rxBytes 0 4)) := rfl
@[simp] theorem latchHeader_rxStatus (s : State) : s.latchHeader.rxStatus = s.readByte (rxBase + 4) := rfl
@[simp] theorem latchHeader_rxCsumHdr (s : State) : s.latchHeader.rxCsumHdr = s.readByte (rxBase + 5) := rfl
@[simp] theorem latchHeader_rxLength (s : State) : s.latchHeader.rxLength = BitVec.ofNat 16 (fromLE (s.rxBytes 6 2)) := rfl
@[simp] theorem latchHeader_rxCsumCalc (s : State) : s.latchHeader.rxCsumCalc = s.rxCsumCalc := rfl
@[simp] theorem latchHeader_mem (s : State) : s.latchHeader.mem = s.mem := rfl
@[simp] theorem latchHeader_rxq (s : State) : s.latchHeader.rxq = s.rxq := rfl
@[simp] theorem latchHeader_txOut (s : State) : s.latchHeader.txOut = s.txOut := rfl
@[simp] theorem latchHeader_draws (s : State) : s.latchHeader.draws = s.draws := rfl
@[simp] theorem latchHeader_rstActive (s : State) : s.latchHeader.rstActive = s.rstActive := rfl
@[simp] theorem latchHeader_agenda (s : State) : s.latchHeader.agenda = s.agenda := rfl
@[simp] theorem latchHeader_sched (s : State) : s.latchHeader.sched = s.sched := rfl
@[simp] theorem latchHeader_busResp (s : State) : s.latchHeader.busResp = s.busResp := rfl

/-! ### The fields after TxEmit -/

@[simp] theorem txMoved_eng (s : State) : s.txMoved.eng = { s.eng with idx := s.eng.idx + 1 } := rfl
@[simp] theorem txMoved_cmdLast (s : State) : s.txMoved.cmdLast = s.cmdLast := rfl
@[simp] theorem txMoved_result (s : State) : s.txMoved.result = s.result := rfl
@[simp] theorem txMoved_xferCount (s : State) : s.txMoved.xferCount = s.xferCount + 1 := rfl
@[simp] theorem txMoved_irqStatus (s : State) : s.txMoved.irqStatus = s.irqStatus := rfl
@[simp] theorem txMoved_irqEnable (s : State) : s.txMoved.irqEnable = s.irqEnable := rfl
@[simp] theorem txMoved_rxTimeout (s : State) : s.txMoved.rxTimeout = s.rxTimeout := rfl
@[simp] theorem txMoved_txId (s : State) : s.txMoved.txId = s.txId := rfl
@[simp] theorem txMoved_txStatus (s : State) : s.txMoved.txStatus = s.txStatus := rfl
@[simp] theorem txMoved_txCsum (s : State) : s.txMoved.txCsum = s.txCsum := rfl
@[simp] theorem txMoved_txLength (s : State) : s.txMoved.txLength = s.txLength := rfl
@[simp] theorem txMoved_rxId (s : State) : s.txMoved.rxId = s.rxId := rfl
@[simp] theorem txMoved_rxStatus (s : State) : s.txMoved.rxStatus = s.rxStatus := rfl
@[simp] theorem txMoved_rxCsumHdr (s : State) : s.txMoved.rxCsumHdr = s.rxCsumHdr := rfl
@[simp] theorem txMoved_rxLength (s : State) : s.txMoved.rxLength = s.rxLength := rfl
@[simp] theorem txMoved_rxCsumCalc (s : State) : s.txMoved.rxCsumCalc = s.rxCsumCalc := rfl
@[simp] theorem txMoved_mem (s : State) : s.txMoved.mem = s.mem := rfl
@[simp] theorem txMoved_rxq (s : State) : s.txMoved.rxq = s.rxq := rfl
@[simp] theorem txMoved_txOut (s : State) : s.txMoved.txOut = s.txOut ++ [s.txData] := rfl
@[simp] theorem txMoved_draws (s : State) : s.txMoved.draws = s.draws := rfl
@[simp] theorem txMoved_rstActive (s : State) : s.txMoved.rstActive = s.rstActive := rfl
@[simp] theorem txMoved_agenda (s : State) : s.txMoved.agenda = s.agenda := rfl
@[simp] theorem txMoved_sched (s : State) : s.txMoved.sched = s.sched := rfl
@[simp] theorem txMoved_busResp (s : State) : s.txMoved.busResp = s.busResp := rfl

/-! ### The fields after RxByte -/

@[simp] theorem rxMoved_eng (s : State) (b : Byte) (q : List Byte) : (s.rxMoved b q).eng = { s.eng with idx := s.eng.idx + 1 } := rfl
@[simp] theorem rxMoved_cmdLast (s : State) (b : Byte) (q : List Byte) : (s.rxMoved b q).cmdLast = s.cmdLast := rfl
@[simp] theorem rxMoved_result (s : State) (b : Byte) (q : List Byte) : (s.rxMoved b q).result = s.result := rfl
@[simp] theorem rxMoved_xferCount (s : State) (b : Byte) (q : List Byte) : (s.rxMoved b q).xferCount = s.xferCount + 1 := rfl
@[simp] theorem rxMoved_irqStatus (s : State) (b : Byte) (q : List Byte) : (s.rxMoved b q).irqStatus = s.irqStatus := rfl
@[simp] theorem rxMoved_irqEnable (s : State) (b : Byte) (q : List Byte) : (s.rxMoved b q).irqEnable = s.irqEnable := rfl
@[simp] theorem rxMoved_rxTimeout (s : State) (b : Byte) (q : List Byte) : (s.rxMoved b q).rxTimeout = s.rxTimeout := rfl
@[simp] theorem rxMoved_txId (s : State) (b : Byte) (q : List Byte) : (s.rxMoved b q).txId = s.txId := rfl
@[simp] theorem rxMoved_txStatus (s : State) (b : Byte) (q : List Byte) : (s.rxMoved b q).txStatus = s.txStatus := rfl
@[simp] theorem rxMoved_txCsum (s : State) (b : Byte) (q : List Byte) : (s.rxMoved b q).txCsum = s.txCsum := rfl
@[simp] theorem rxMoved_txLength (s : State) (b : Byte) (q : List Byte) : (s.rxMoved b q).txLength = s.txLength := rfl
@[simp] theorem rxMoved_rxId (s : State) (b : Byte) (q : List Byte) : (s.rxMoved b q).rxId = s.rxId := rfl
@[simp] theorem rxMoved_rxStatus (s : State) (b : Byte) (q : List Byte) : (s.rxMoved b q).rxStatus = s.rxStatus := rfl
@[simp] theorem rxMoved_rxCsumHdr (s : State) (b : Byte) (q : List Byte) : (s.rxMoved b q).rxCsumHdr = s.rxCsumHdr := rfl
@[simp] theorem rxMoved_rxLength (s : State) (b : Byte) (q : List Byte) : (s.rxMoved b q).rxLength = s.rxLength := rfl
@[simp] theorem rxMoved_rxCsumCalc (s : State) (b : Byte) (q : List Byte) : (s.rxMoved b q).rxCsumCalc = s.rxCsumCalc := rfl
@[simp] theorem rxMoved_mem (s : State) (b : Byte) (q : List Byte) : (s.rxMoved b q).mem = Memory.write s.mem (rxBase + s.eng.idx.toNat) b := rfl
@[simp] theorem rxMoved_rxq (s : State) (b : Byte) (q : List Byte) : (s.rxMoved b q).rxq = q := rfl
@[simp] theorem rxMoved_txOut (s : State) (b : Byte) (q : List Byte) : (s.rxMoved b q).txOut = s.txOut := rfl
@[simp] theorem rxMoved_draws (s : State) (b : Byte) (q : List Byte) : (s.rxMoved b q).draws = s.draws := rfl
@[simp] theorem rxMoved_rstActive (s : State) (b : Byte) (q : List Byte) : (s.rxMoved b q).rstActive = s.rstActive := rfl
@[simp] theorem rxMoved_agenda (s : State) (b : Byte) (q : List Byte) : (s.rxMoved b q).agenda = s.agenda := rfl
@[simp] theorem rxMoved_sched (s : State) (b : Byte) (q : List Byte) : (s.rxMoved b q).sched = s.sched := rfl
@[simp] theorem rxMoved_busResp (s : State) (b : Byte) (q : List Byte) : (s.rxMoved b q).busResp = s.busResp := rfl

/-! ### The fields after SRST -/

@[simp] theorem softReset_eng (s : State) : s.softReset.eng = Eng.idle := rfl
@[simp] theorem softReset_cmdLast (s : State) : s.softReset.cmdLast = 0 := rfl
@[simp] theorem softReset_result (s : State) : s.softReset.result = 0 := rfl
@[simp] theorem softReset_xferCount (s : State) : s.softReset.xferCount = 0 := rfl
@[simp] theorem softReset_irqStatus (s : State) : s.softReset.irqStatus = 0 := rfl
@[simp] theorem softReset_irqEnable (s : State) : s.softReset.irqEnable = 0 := rfl
@[simp] theorem softReset_rxTimeout (s : State) : s.softReset.rxTimeout = Config.timeoutReset := rfl
@[simp] theorem softReset_txId (s : State) : s.softReset.txId = 0 := rfl
@[simp] theorem softReset_txStatus (s : State) : s.softReset.txStatus = 0 := rfl
@[simp] theorem softReset_txCsum (s : State) : s.softReset.txCsum = 0 := rfl
@[simp] theorem softReset_txLength (s : State) : s.softReset.txLength = 0 := rfl
@[simp] theorem softReset_rxId (s : State) : s.softReset.rxId = 0 := rfl
@[simp] theorem softReset_rxStatus (s : State) : s.softReset.rxStatus = 0 := rfl
@[simp] theorem softReset_rxCsumHdr (s : State) : s.softReset.rxCsumHdr = 0 := rfl
@[simp] theorem softReset_rxLength (s : State) : s.softReset.rxLength = 0 := rfl
@[simp] theorem softReset_rxCsumCalc (s : State) : s.softReset.rxCsumCalc = 0 := rfl
@[simp] theorem softReset_mem (s : State) : s.softReset.mem = [] := rfl
@[simp] theorem softReset_rxq (s : State) : s.softReset.rxq = [] := rfl
@[simp] theorem softReset_txOut (s : State) : s.softReset.txOut = s.txOut := rfl
@[simp] theorem softReset_draws (s : State) : s.softReset.draws = s.draws + 1 := rfl
@[simp] theorem softReset_rstActive (s : State) : s.softReset.rstActive = s.rstActive := rfl
@[simp] theorem softReset_agenda (s : State) : s.softReset.agenda = s.agenda := rfl
@[simp] theorem softReset_sched (s : State) : s.softReset.sched = s.sched := rfl
@[simp] theorem softReset_busResp (s : State) : s.softReset.busResp = s.busResp := rfl

/-! ### The fields after the hardware reset -/

@[simp] theorem hardReset_eng (s : State) : s.hardReset.eng = Eng.idle := rfl
@[simp] theorem hardReset_cmdLast (s : State) : s.hardReset.cmdLast = 0 := rfl
@[simp] theorem hardReset_result (s : State) : s.hardReset.result = 0 := rfl
@[simp] theorem hardReset_xferCount (s : State) : s.hardReset.xferCount = 0 := rfl
@[simp] theorem hardReset_irqStatus (s : State) : s.hardReset.irqStatus = 0 := rfl
@[simp] theorem hardReset_irqEnable (s : State) : s.hardReset.irqEnable = 0 := rfl
@[simp] theorem hardReset_rxTimeout (s : State) : s.hardReset.rxTimeout = Config.timeoutReset := rfl
@[simp] theorem hardReset_txId (s : State) : s.hardReset.txId = 0 := rfl
@[simp] theorem hardReset_txStatus (s : State) : s.hardReset.txStatus = 0 := rfl
@[simp] theorem hardReset_txCsum (s : State) : s.hardReset.txCsum = 0 := rfl
@[simp] theorem hardReset_txLength (s : State) : s.hardReset.txLength = 0 := rfl
@[simp] theorem hardReset_rxId (s : State) : s.hardReset.rxId = 0 := rfl
@[simp] theorem hardReset_rxStatus (s : State) : s.hardReset.rxStatus = 0 := rfl
@[simp] theorem hardReset_rxCsumHdr (s : State) : s.hardReset.rxCsumHdr = 0 := rfl
@[simp] theorem hardReset_rxLength (s : State) : s.hardReset.rxLength = 0 := rfl
@[simp] theorem hardReset_rxCsumCalc (s : State) : s.hardReset.rxCsumCalc = 0 := rfl
@[simp] theorem hardReset_mem (s : State) : s.hardReset.mem = [] := rfl
@[simp] theorem hardReset_rxq (s : State) : s.hardReset.rxq = [] := rfl
@[simp] theorem hardReset_txOut (s : State) : s.hardReset.txOut = [] := rfl
@[simp] theorem hardReset_draws (s : State) : s.hardReset.draws = s.draws + 1 := rfl
@[simp] theorem hardReset_rstActive (s : State) : s.hardReset.rstActive = false := rfl
@[simp] theorem hardReset_agenda (s : State) : s.hardReset.agenda = s.agenda := rfl
@[simp] theorem hardReset_sched (s : State) : s.hardReset.sched = s.sched := rfl
@[simp] theorem hardReset_busResp (s : State) : s.hardReset.busResp = none := rfl

/-! ### The fields after a list of buffer writes -/

@[simp] theorem writeBytes_eng (s : State) (a : Nat) (bs : List Byte) : (s.writeBytes a bs).eng = s.eng := by
  induction bs generalizing s a with
  | nil => rfl
  | cons b bs ih => simp [State.writeBytes, ih]
@[simp] theorem writeBytes_cmdLast (s : State) (a : Nat) (bs : List Byte) : (s.writeBytes a bs).cmdLast = s.cmdLast := by
  induction bs generalizing s a with
  | nil => rfl
  | cons b bs ih => simp [State.writeBytes, ih]
@[simp] theorem writeBytes_result (s : State) (a : Nat) (bs : List Byte) : (s.writeBytes a bs).result = s.result := by
  induction bs generalizing s a with
  | nil => rfl
  | cons b bs ih => simp [State.writeBytes, ih]
@[simp] theorem writeBytes_xferCount (s : State) (a : Nat) (bs : List Byte) : (s.writeBytes a bs).xferCount = s.xferCount := by
  induction bs generalizing s a with
  | nil => rfl
  | cons b bs ih => simp [State.writeBytes, ih]
@[simp] theorem writeBytes_irqStatus (s : State) (a : Nat) (bs : List Byte) : (s.writeBytes a bs).irqStatus = s.irqStatus := by
  induction bs generalizing s a with
  | nil => rfl
  | cons b bs ih => simp [State.writeBytes, ih]
@[simp] theorem writeBytes_irqEnable (s : State) (a : Nat) (bs : List Byte) : (s.writeBytes a bs).irqEnable = s.irqEnable := by
  induction bs generalizing s a with
  | nil => rfl
  | cons b bs ih => simp [State.writeBytes, ih]
@[simp] theorem writeBytes_rxTimeout (s : State) (a : Nat) (bs : List Byte) : (s.writeBytes a bs).rxTimeout = s.rxTimeout := by
  induction bs generalizing s a with
  | nil => rfl
  | cons b bs ih => simp [State.writeBytes, ih]
@[simp] theorem writeBytes_txId (s : State) (a : Nat) (bs : List Byte) : (s.writeBytes a bs).txId = s.txId := by
  induction bs generalizing s a with
  | nil => rfl
  | cons b bs ih => simp [State.writeBytes, ih]
@[simp] theorem writeBytes_txStatus (s : State) (a : Nat) (bs : List Byte) : (s.writeBytes a bs).txStatus = s.txStatus := by
  induction bs generalizing s a with
  | nil => rfl
  | cons b bs ih => simp [State.writeBytes, ih]
@[simp] theorem writeBytes_txCsum (s : State) (a : Nat) (bs : List Byte) : (s.writeBytes a bs).txCsum = s.txCsum := by
  induction bs generalizing s a with
  | nil => rfl
  | cons b bs ih => simp [State.writeBytes, ih]
@[simp] theorem writeBytes_txLength (s : State) (a : Nat) (bs : List Byte) : (s.writeBytes a bs).txLength = s.txLength := by
  induction bs generalizing s a with
  | nil => rfl
  | cons b bs ih => simp [State.writeBytes, ih]
@[simp] theorem writeBytes_rxId (s : State) (a : Nat) (bs : List Byte) : (s.writeBytes a bs).rxId = s.rxId := by
  induction bs generalizing s a with
  | nil => rfl
  | cons b bs ih => simp [State.writeBytes, ih]
@[simp] theorem writeBytes_rxStatus (s : State) (a : Nat) (bs : List Byte) : (s.writeBytes a bs).rxStatus = s.rxStatus := by
  induction bs generalizing s a with
  | nil => rfl
  | cons b bs ih => simp [State.writeBytes, ih]
@[simp] theorem writeBytes_rxCsumHdr (s : State) (a : Nat) (bs : List Byte) : (s.writeBytes a bs).rxCsumHdr = s.rxCsumHdr := by
  induction bs generalizing s a with
  | nil => rfl
  | cons b bs ih => simp [State.writeBytes, ih]
@[simp] theorem writeBytes_rxLength (s : State) (a : Nat) (bs : List Byte) : (s.writeBytes a bs).rxLength = s.rxLength := by
  induction bs generalizing s a with
  | nil => rfl
  | cons b bs ih => simp [State.writeBytes, ih]
@[simp] theorem writeBytes_rxCsumCalc (s : State) (a : Nat) (bs : List Byte) : (s.writeBytes a bs).rxCsumCalc = s.rxCsumCalc := by
  induction bs generalizing s a with
  | nil => rfl
  | cons b bs ih => simp [State.writeBytes, ih]
@[simp] theorem writeBytes_rxq (s : State) (a : Nat) (bs : List Byte) : (s.writeBytes a bs).rxq = s.rxq := by
  induction bs generalizing s a with
  | nil => rfl
  | cons b bs ih => simp [State.writeBytes, ih]
@[simp] theorem writeBytes_txOut (s : State) (a : Nat) (bs : List Byte) : (s.writeBytes a bs).txOut = s.txOut := by
  induction bs generalizing s a with
  | nil => rfl
  | cons b bs ih => simp [State.writeBytes, ih]
@[simp] theorem writeBytes_draws (s : State) (a : Nat) (bs : List Byte) : (s.writeBytes a bs).draws = s.draws := by
  induction bs generalizing s a with
  | nil => rfl
  | cons b bs ih => simp [State.writeBytes, ih]
@[simp] theorem writeBytes_rstActive (s : State) (a : Nat) (bs : List Byte) : (s.writeBytes a bs).rstActive = s.rstActive := by
  induction bs generalizing s a with
  | nil => rfl
  | cons b bs ih => simp [State.writeBytes, ih]
@[simp] theorem writeBytes_agenda (s : State) (a : Nat) (bs : List Byte) : (s.writeBytes a bs).agenda = s.agenda := by
  induction bs generalizing s a with
  | nil => rfl
  | cons b bs ih => simp [State.writeBytes, ih]
@[simp] theorem writeBytes_sched (s : State) (a : Nat) (bs : List Byte) : (s.writeBytes a bs).sched = s.sched := by
  induction bs generalizing s a with
  | nil => rfl
  | cons b bs ih => simp [State.writeBytes, ih]
@[simp] theorem writeBytes_busResp (s : State) (a : Nat) (bs : List Byte) : (s.writeBytes a bs).busResp = s.busResp := by
  induction bs generalizing s a with
  | nil => rfl
  | cons b bs ih => simp [State.writeBytes, ih]

/-! ### The fields after a header is built -/

@[simp] theorem buildHeader_eng (s : State) : s.buildHeader.eng = s.eng := by simp [State.buildHeader]
@[simp] theorem buildHeader_cmdLast (s : State) : s.buildHeader.cmdLast = s.cmdLast := by simp [State.buildHeader]
@[simp] theorem buildHeader_result (s : State) : s.buildHeader.result = s.result := by simp [State.buildHeader]
@[simp] theorem buildHeader_xferCount (s : State) : s.buildHeader.xferCount = s.xferCount := by simp [State.buildHeader]
@[simp] theorem buildHeader_irqStatus (s : State) : s.buildHeader.irqStatus = s.irqStatus := by simp [State.buildHeader]
@[simp] theorem buildHeader_irqEnable (s : State) : s.buildHeader.irqEnable = s.irqEnable := by simp [State.buildHeader]
@[simp] theorem buildHeader_rxTimeout (s : State) : s.buildHeader.rxTimeout = s.rxTimeout := by simp [State.buildHeader]
@[simp] theorem buildHeader_txId (s : State) : s.buildHeader.txId = s.txId := by simp [State.buildHeader]
@[simp] theorem buildHeader_txStatus (s : State) : s.buildHeader.txStatus = s.txStatus := by simp [State.buildHeader]
@[simp] theorem buildHeader_txCsum (s : State) : s.buildHeader.txCsum = csum s.txPayload := by simp [State.buildHeader]
@[simp] theorem buildHeader_txLength (s : State) : s.buildHeader.txLength = s.txLength := by simp [State.buildHeader]
@[simp] theorem buildHeader_rxId (s : State) : s.buildHeader.rxId = s.rxId := by simp [State.buildHeader]
@[simp] theorem buildHeader_rxStatus (s : State) : s.buildHeader.rxStatus = s.rxStatus := by simp [State.buildHeader]
@[simp] theorem buildHeader_rxCsumHdr (s : State) : s.buildHeader.rxCsumHdr = s.rxCsumHdr := by simp [State.buildHeader]
@[simp] theorem buildHeader_rxLength (s : State) : s.buildHeader.rxLength = s.rxLength := by simp [State.buildHeader]
@[simp] theorem buildHeader_rxCsumCalc (s : State) : s.buildHeader.rxCsumCalc = s.rxCsumCalc := by simp [State.buildHeader]
@[simp] theorem buildHeader_rxq (s : State) : s.buildHeader.rxq = s.rxq := by simp [State.buildHeader]
@[simp] theorem buildHeader_txOut (s : State) : s.buildHeader.txOut = s.txOut := by simp [State.buildHeader]
@[simp] theorem buildHeader_draws (s : State) : s.buildHeader.draws = s.draws := by simp [State.buildHeader]
@[simp] theorem buildHeader_rstActive (s : State) : s.buildHeader.rstActive = s.rstActive := by simp [State.buildHeader]
@[simp] theorem buildHeader_agenda (s : State) : s.buildHeader.agenda = s.agenda := by simp [State.buildHeader]
@[simp] theorem buildHeader_sched (s : State) : s.buildHeader.sched = s.sched := by simp [State.buildHeader]
@[simp] theorem buildHeader_busResp (s : State) : s.buildHeader.busResp = s.busResp := by simp [State.buildHeader]

/-! ### Completion in one form -/

@[simp] theorem finish_eq (s : State) (c : ErrCode) (m u : Bool) : s.finish c m u = s.finishAs s.eng.op.code c m u := rfl

@[simp] theorem finishPlain_eq (s : State) (c : ErrCode) : s.finishPlain c = s.finishAs s.eng.op.code c false false := rfl


/-- A list of buffer writes changes the memory only. -/
theorem writeBytes_eq (s : State) (a : Nat) (bs : List Byte) : s.writeBytes a bs = { s with mem := (s.writeBytes a bs).mem } := by
  induction bs generalizing s a with
  | nil => rfl
  | cons b bs ih =>
    rw [State.writeBytes, ih]
    rfl

end Sys2Proof.Machine
end

