-- ==== Sys2Proof/Laws/Encoding.lean ====
section
/-! SUPPORT. The fields of words built from fields: command words, action words, RESULT, the header registers, STATUS. -/

namespace Sys2Proof

/-- The bits of a command word: OP (and zeros) below bit 16, COUNT above. -/
theorem getLsbD_cmdWord (op : BitVec 4) (n : Half) (i : Nat) :
    (cmdWord op n).getLsbD i = if i < 16 then op.getLsbD i else n.getLsbD (i - 16) := by
  simp only [cmdWord, BitVec.getLsbD_or, BitVec.getLsbD_shiftLeft, BitVec.getLsbD_setWidth]
  split
  · rename_i h
    have : i < 32 := by omega
    simp only [h, this, decide_true, Bool.not_true, Bool.and_false, Bool.false_and, Bool.false_or, Bool.true_and]
  · rename_i h
    have h1 : op.getLsbD i = false := BitVec.getLsbD_of_ge _ _ (by omega)
    simp only [h, h1, decide_false, Bool.not_false, Bool.and_true, Bool.and_false, Bool.or_false]
    by_cases h2 : i < 32
    · have h3 : i - 16 < 32 := by omega
      simp only [h2, h3, decide_true, Bool.true_and]
    · have h3 : n.getLsbD (i - 16) = false := BitVec.getLsbD_of_ge _ _ (by omega)
      simp only [h2, h3, decide_false, Bool.and_false]

@[simp] theorem opField_cmdWord (op : BitVec 4) (n : Half) : opField (cmdWord op n) = op := by
  apply BitVec.eq_of_getLsbD_eq
  intro i hi
  simp only [opField, BitVec.getLsbD_extractLsb', getLsbD_cmdWord, hi, decide_true, Bool.true_and]
  rw [if_pos (by omega), Nat.zero_add]

@[simp] theorem rsvdField_cmdWord (op : BitVec 4) (n : Half) : rsvdField (cmdWord op n) = 0 := by
  apply BitVec.eq_of_getLsbD_eq
  intro i hi
  simp only [rsvdField, BitVec.getLsbD_extractLsb', getLsbD_cmdWord, hi, decide_true, Bool.true_and]
  rw [if_pos (by omega), BitVec.getLsbD_of_ge _ _ (by omega)]
  simp

@[simp] theorem countField_cmdWord (op : BitVec 4) (n : Half) : countField (cmdWord op n) = n := by
  apply BitVec.eq_of_getLsbD_eq
  intro i hi
  simp only [countField, BitVec.getLsbD_extractLsb', getLsbD_cmdWord, hi, decide_true, Bool.true_and]
  rw [if_neg (by omega), show 16 + i - 16 = i by omega]

/-- A word whose reserved field is 0 is the command word of its fields (30_encoding.md R120). -/
theorem cmdWord_fields {w : Word} (h : rsvdField w = 0) : cmdWord (opField w) (countField w) = w := by
  apply BitVec.eq_of_getLsbD_eq
  intro i hi
  have h' : ∀ j, j < 12 → w.getLsbD (4 + j) = false := by
    intro j hj
    have := congrArg (fun x => BitVec.getLsbD x j) h
    simpa [rsvdField, hj] using this
  simp only [getLsbD_cmdWord, opField, countField, BitVec.getLsbD_extractLsb']
  split
  · by_cases h1 : i < 4
    · simp only [h1, decide_true, Bool.true_and, Nat.zero_add]
    · have := h' (i - 4) (by omega)
      rw [show 4 + (i - 4) = i by omega] at this
      simp only [this, h1, decide_false, Bool.false_and]
  · have : i - 16 < 16 := by omega
    simp only [this, decide_true, Bool.true_and]
    congr 1
    omega

/-- The bits of an action word (10_state.md R35). -/
theorem getLsbD_ctrlWord (ign : BitVec 29) (v2 v1 v0 : Bool) (i : Nat) :
    (ctrlWord ign v2 v1 v0).getLsbD i =
      if i = 0 then v0 else if i = 1 then v1 else if i = 2 then v2 else ign.getLsbD (i - 3) := by
  simp only [ctrlWord, BitVec.getLsbD_or, BitVec.getLsbD_shiftLeft, BitVec.getLsbD_setWidth]
  match i with
  | 0 => simp
  | 1 => simp
  | 2 => simp
  | i + 3 =>
    by_cases h : i + 3 < 32
    · simp only [h, BitVec.getLsbD_ofBool]
      simp
      omega
    · have h3 : ign.getLsbD i = false := BitVec.getLsbD_of_ge _ _ (by omega)
      simp [h, h3]

@[simp] theorem ctrlWord_v0 (ign : BitVec 29) (v2 v1 v0 : Bool) : (ctrlWord ign v2 v1 v0)[0] = v0 := by
  simpa using getLsbD_ctrlWord ign v2 v1 v0 0

@[simp] theorem ctrlWord_v1 (ign : BitVec 29) (v2 v1 v0 : Bool) : (ctrlWord ign v2 v1 v0)[1] = v1 := by
  simpa using getLsbD_ctrlWord ign v2 v1 v0 1

@[simp] theorem ctrlWord_v2 (ign : BitVec 29) (v2 v1 v0 : Bool) : (ctrlWord ign v2 v1 v0)[2] = v2 := by
  simpa using getLsbD_ctrlWord ign v2 v1 v0 2

@[simp] theorem ctrlWord_ignored (ign : BitVec 29) (v2 v1 v0 : Bool) : (ctrlWord ign v2 v1 v0).extractLsb' 3 29 = ign := by
  apply BitVec.eq_of_getLsbD_eq
  intro i hi
  simp only [BitVec.getLsbD_extractLsb', getLsbD_ctrlWord, hi, decide_true, Bool.true_and]
  rw [if_neg (by omega), if_neg (by omega), if_neg (by omega), show 3 + i - 3 = i by omega]

/-- An action word is the one of its bits. -/
theorem ctrlWord_bits (v : Word) : ctrlWord (v.extractLsb' 3 29) (v.getLsbD 2) (v.getLsbD 1) (v.getLsbD 0) = v := by
  apply BitVec.eq_of_getLsbD_eq
  intro i hi
  simp only [getLsbD_ctrlWord, BitVec.getLsbD_extractLsb']
  split
  · simp [*]
  · split
    · simp [*]
    · split
      · simp [*]
      · have : i - 3 < 29 := by omega
        simp only [this, decide_true, Bool.true_and]
        congr 1
        omega

namespace Machine

/-! ### RESULT (10_state.md R38) -/

@[simp] theorem resultWord_errCode (op : BitVec 4) (c : ErrCode) (m u : Bool) :
    (resultWord op c m u).extractLsb' 0 8 = c.code := by
  cases c <;> cases m <;> cases u <;> revert op <;> decide

@[simp] theorem resultWord_flags (op : BitVec 4) (c : ErrCode) (m u : Bool) :
    (resultWord op c m u).extractLsb' 8 2 = (BitVec.ofBool u).setWidth 2 <<< 1 ||| (BitVec.ofBool m).setWidth 2 := by
  cases c <;> cases m <;> cases u <;> revert op <;> decide

@[simp] theorem resultWord_op (op : BitVec 4) (c : ErrCode) (m u : Bool) : (resultWord op c m u).extractLsb' 16 4 = op := by
  cases c <;> cases m <;> cases u <;> revert op <;> decide

@[simp] theorem resultWord_reserved (op : BitVec 4) (c : ErrCode) (m u : Bool) :
    (resultWord op c m u).extractLsb' 10 6 = 0 ∧ (resultWord op c m u).extractLsb' 20 12 = 0 := by
  cases c <;> cases m <;> cases u <;> revert op <;> decide

/-! ### The header registers (10_state.md R44, R46) -/

/-- A header register reads as header bytes 4 to 7 (20_memory.md R84). -/
theorem hdrWord_toNat (len : Half) (c st : Byte) :
    (hdrWord len c st).toNat = st.toNat + 256 * c.toNat + 65536 * len.toNat := by
  have h1 := len.isLt
  have h2 := c.isLt
  have h3 := st.isLt
  have hlen : (len.toNat * 2 ^ 16) % 2 ^ 32 = len.toNat * 2 ^ 16 := Nat.mod_eq_of_lt (by omega)
  have hc : (c.toNat * 2 ^ 8) % 2 ^ 32 = c.toNat * 2 ^ 8 := Nat.mod_eq_of_lt (by omega)
  simp only [hdrWord, BitVec.toNat_or, BitVec.toNat_shiftLeft, BitVec.toNat_setWidth, Nat.shiftLeft_eq]
  rw [Nat.mod_eq_of_lt (show len.toNat < 2 ^ 32 by omega), Nat.mod_eq_of_lt (show c.toNat < 2 ^ 32 by omega),
    Nat.mod_eq_of_lt (show st.toNat < 2 ^ 32 by omega), hlen, hc]
  have a1 : len.toNat * 2 ^ 16 ||| c.toNat * 2 ^ 8 = len.toNat * 2 ^ 16 + c.toNat * 2 ^ 8 := by
    have := Nat.two_pow_add_eq_or_of_lt (i := 16) (b := c.toNat * 2 ^ 8) (by omega) len.toNat
    rw [Nat.mul_comm len.toNat, ← this]
  have a2 : (len.toNat * 2 ^ 16 + c.toNat * 2 ^ 8) ||| st.toNat = len.toNat * 2 ^ 16 + c.toNat * 2 ^ 8 + st.toNat := by
    have := Nat.two_pow_add_eq_or_of_lt (i := 8) (b := st.toNat) h3 (len.toNat * 2 ^ 8 + c.toNat)
    rw [show len.toNat * 2 ^ 16 + c.toNat * 2 ^ 8 = 2 ^ 8 * (len.toNat * 2 ^ 8 + c.toNat) by ring, ← this]
  rw [a1, a2]
  ring

end Machine

end Sys2Proof
end

