-- ==== Sys2Proof/Laws/Memory.lean ====
section
/-! SUPPORT. The laws of the buffers and of byte order: read after write, what a write leaves alone, the canonical form. -/

namespace Sys2Proof.Machine

/-! ### One byte -/

@[simp] theorem lookup_write_same (m : Memory) (a : Nat) (b : Byte) : Memory.lookup (Memory.write m a b) a = some b := by
  fun_induction Memory.write m a b <;> simp_all [Memory.lookup, eq_comm]

theorem lookup_write_of_ne (m : Memory) {a k : Nat} (b : Byte) (h : a ≠ k) :
    Memory.lookup (Memory.write m a b) k = Memory.lookup m k := by
  fun_induction Memory.write m a b with
  | case1 => simp [Memory.lookup, h]
  | case2 => simp [Memory.lookup, h]
  | case3 => simp_all [Memory.lookup]
  | case4 c v m a b h1 h2 ih => simp [Memory.lookup, ih h]

/-- A buffer byte after a write: the byte written, or what it was. -/
theorem readByte_writeByte (s : State) (a k : Nat) (b : Byte) :
    (s.writeByte a b).readByte k = if a = k then b else s.readByte k := by
  split
  · subst k
    simp [State.readByte]
  · simp [State.readByte, lookup_write_of_ne, *]

/-- A buffer byte depends on the listed bytes and on the draws of the last reset only. -/
theorem readByte_congr {s t : State} (hm : s.mem = t.mem) (hd : s.draws = t.draws) (a : Nat) : s.readByte a = t.readByte a := by
  simp [State.readByte, hm, hd]

/-! ### The canonical form -/

theorem mem_write {m : Memory} {a : Nat} {b : Byte} {c : Host.Cell} (h : c ∈ Memory.write m a b) : c = (a, b) ∨ c ∈ m := by
  fun_induction Memory.write m a b <;> simp_all <;> tauto

/-- A write at a buffer offset keeps the canonical form. -/
theorem write_wf {m : Memory} {a : Nat} (b : Byte) (hm : m.wf) (ha : isBufAddr a = true) : (Memory.write m a b).wf := by
  refine ⟨?_, fun c hc => (mem_write hc).elim (fun h => h ▸ ha) (hm.2 c)⟩
  have hp := hm.1
  clear hm ha
  fun_induction Memory.write m a b with
  | case1 => simp
  | case2 k v m a b h =>
    simp only [List.pairwise_cons, List.mem_cons, forall_eq_or_imp] at hp ⊢
    exact ⟨⟨h, fun c hc => h.trans (hp.1 c hc)⟩, hp⟩
  | case3 v m a b => simpa using hp
  | case4 k v m a b h1 h2 ih =>
    simp only [List.pairwise_cons] at hp ⊢
    refine ⟨fun c hc => ?_, ih hp.2⟩
    rcases mem_write hc with rfl | h
    · simp only
      omega
    · exact hp.1 c h

/-- A list of writes within a buffer keeps the canonical form. -/
theorem writeBytes_wf {s : State} {a : Nat} {bs : List Byte} (hm : s.mem.wf)
    (ha : ∀ k, k < bs.length → isBufAddr (a + k) = true) : (s.writeBytes a bs).mem.wf := by
  induction bs generalizing s a with
  | nil => exact hm
  | cons b bs ih =>
    refine ih (write_wf b hm (ha 0 (by simp))) fun k hk => ?_
    have := ha (k + 1) (by simpa using hk)
    rwa [show a + 1 + k = a + (k + 1) by omega]

/-! ### Byte lists -/

@[simp] theorem readBytes_length (s : State) (a n : Nat) : (s.readBytes a n).length = n := by simp [State.readBytes]

theorem readBytes_getElem (s : State) (a n i : Nat) (h : i < (s.readBytes a n).length) :
    (s.readBytes a n)[i] = s.readByte (a + i) := by simp [State.readBytes]

theorem readBytes_zero (s : State) (a : Nat) : s.readBytes a 0 = [] := rfl

theorem readBytes_congr {s t : State} {a b n : Nat} (h : ∀ k, k < n → s.readByte (a + k) = t.readByte (b + k)) :
    s.readBytes a n = t.readBytes b n := by
  simpa [State.readBytes] using h

theorem readBytes_add (s : State) (a n k : Nat) : s.readBytes a (n + k) = s.readBytes a n ++ s.readBytes (a + n) k := by
  simp [State.readBytes, List.range_add, Nat.add_assoc, Function.comp_def]

theorem readBytes_succ (s : State) (a n : Nat) : s.readBytes a (n + 1) = s.readBytes a n ++ [s.readByte (a + n)] := by
  simp [State.readBytes, List.range_succ]

/-- Two readings of the same bytes agree byte by byte. -/
theorem readByte_of_readBytes_eq {s t : State} {a b n : Nat} (h : s.readBytes a n = t.readBytes b n) {k : Nat} (hk : k < n) :
    s.readByte (a + k) = t.readByte (b + k) := by
  have := congrArg (fun l : List Byte => l[k]?) h
  simpa [State.readBytes, hk] using this

/-- A byte outside a list of writes is what it was. -/
theorem readByte_writeBytes_outside (s : State) {a k : Nat} {bs : List Byte} (h : ¬ (a ≤ k ∧ k < a + bs.length)) :
    (s.writeBytes a bs).readByte k = s.readByte k := by
  induction bs generalizing s a with
  | nil => rfl
  | cons b bs ih =>
    simp only [List.length_cons] at h
    rw [State.writeBytes, ih _ (by omega), readByte_writeByte, if_neg (by omega)]

/-- A byte inside a list of writes is the byte written there. -/
theorem readByte_writeBytes_inside (s : State) (a : Nat) {k : Nat} {bs : List Byte} (h : k < bs.length) :
    (s.writeBytes a bs).readByte (a + k) = bs[k] := by
  induction bs generalizing s a k with
  | nil => simp at h
  | cons b bs ih =>
    rw [State.writeBytes]
    cases k with
    | zero =>
      rw [readByte_writeBytes_outside _ (by omega), readByte_writeByte]
      simp
    | succ k =>
      have := ih (s.writeByte a b) (a + 1) (k := k) (by simpa using h)
      rw [show a + 1 + k = a + (k + 1) by omega] at this
      simpa using this

/-- Reading back a list of writes. -/
theorem readBytes_writeBytes (s : State) (a : Nat) (bs : List Byte) : (s.writeBytes a bs).readBytes a bs.length = bs := by
  apply List.ext_getElem (by simp)
  intro i h1 h2
  rw [readBytes_getElem, readByte_writeBytes_inside s a h2]

/-- Bytes outside a list of writes read as before. -/
theorem readBytes_writeBytes_outside (s : State) {a b n : Nat} {bs : List Byte} (h : b + n ≤ a ∨ a + bs.length ≤ b) :
    (s.writeBytes a bs).readBytes b n = s.readBytes b n :=
  readBytes_congr fun k hk => readByte_writeBytes_outside s (by omega)

/-! ### Byte order -/

@[simp] theorem leBytes_length {w : Nat} (n : Nat) (v : BitVec w) : (leBytes n v).length = n := by simp [leBytes]

theorem leBytes_getElem {w : Nat} (n : Nat) (v : BitVec w) (k : Nat) (h : k < (leBytes n v).length) :
    (leBytes n v)[k] = v.extractLsb' (8 * k) 8 := by simp [leBytes]

theorem leBytes_succ {w : Nat} (n : Nat) (v : BitVec w) : leBytes (n + 1) v = v.extractLsb' 0 8 :: leBytes n (v >>> 8) := by
  simp only [leBytes, List.range_succ_eq_map, List.map_cons, List.map_map, Nat.mul_zero]
  congr 1
  apply List.map_congr_left
  intro k _
  apply BitVec.eq_of_getLsbD_eq
  intro i hi
  simp only [Function.comp_apply, BitVec.getLsbD_extractLsb', BitVec.getLsbD_ushiftRight]
  congr 2
  omega

/-- The number of a little-endian image is the value, truncated to the image's bytes (R14, R82). -/
theorem fromLE_leBytes {w : Nat} (n : Nat) (v : BitVec w) : fromLE (leBytes n v) = v.toNat % 2 ^ (8 * n) := by
  induction n generalizing v with
  | zero => simp [leBytes, fromLE, Nat.mod_one]
  | succ n ih =>
    rw [leBytes_succ, fromLE, ih]
    simp only [BitVec.extractLsb'_toNat, BitVec.toNat_ushiftRight, Nat.shiftRight_eq_div_pow, Nat.pow_zero, Nat.div_one]
    rw [show 8 * (n + 1) = 8 + 8 * n by omega, Nat.pow_add, Nat.mod_mul]

@[simp] theorem fromLE_leBytes_word (v : Word) : BitVec.ofNat 32 (fromLE (leBytes 4 v)) = v := by
  rw [fromLE_leBytes]
  apply BitVec.eq_of_toNat_eq
  simp only [BitVec.toNat_ofNat]
  have := v.isLt
  omega

@[simp] theorem fromLE_leBytes_half (v : Half) : BitVec.ofNat 16 (fromLE (leBytes 2 v)) = v := by
  rw [fromLE_leBytes]
  apply BitVec.eq_of_toNat_eq
  simp only [BitVec.toNat_ofNat]
  have := v.isLt
  omega

@[simp] theorem headerBytes_length (id : Word) (st c : Byte) (len : Half) : (headerBytes id st c len).length = 8 := by
  simp [headerBytes]

/-- Where 8 bytes of RXBUF are a header, latching it takes its fields (40_frame_codec.md R161, R170). -/
theorem latchHeader_of_header {s : State} {id : Word} {st c : Byte} {len : Half} (h : s.rxBytes 0 8 = headerBytes id st c len) :
    s.latchHeader = { s with rxId := id, rxStatus := st, rxCsumHdr := c, rxLength := len } := by
  have h' : s.readBytes rxBase 8 = headerBytes id st c len := by simpa [State.rxBytes] using h
  have e1 : s.rxBytes 0 4 = leBytes 4 id := by
    have := congrArg (List.take 4) h'
    rw [show (8 : Nat) = 4 + 4 from rfl, readBytes_add] at this
    simpa [headerBytes, State.rxBytes, List.take_append] using this
  have e2 : s.readByte (rxBase + 4) = st := by
    have := congrArg (fun l : List Byte => l[4]?) h'
    simpa [headerBytes, State.readBytes] using this
  have e3 : s.readByte (rxBase + 5) = c := by
    have := congrArg (fun l : List Byte => l[5]?) h'
    simpa [headerBytes, State.readBytes] using this
  have e4 : s.rxBytes 6 2 = leBytes 2 len := by
    have := congrArg (List.drop 6) h'
    rw [show (8 : Nat) = 6 + 2 from rfl, readBytes_add] at this
    simpa [headerBytes, State.rxBytes, List.drop_append, List.drop_eq_nil_of_le] using this
  simp only [State.latchHeader, e1, e2, e3, e4, fromLE_leBytes_word, fromLE_leBytes_half]

end Sys2Proof.Machine
end

