-- ==== Sys2Proof/Laws/Codec.lean ====
section
/-! SUPPORT. The codec's operations, each said once: when the operands are legal, what the header holds, what a decode leaves. -/

namespace Sys2Proof.Machine

/-- ENCB and ENC take their operands exactly when LENGTH ≤ 1024 and STATUS is 1 to 5 (40_frame_codec.md R166). -/
theorem encodeError_eq_none {s : State} :
    s.encodeError = .none ↔ s.txLength.toNat ≤ 1024 ∧ 1 ≤ s.txStatus.toNat ∧ s.txStatus.toNat ≤ 5 := by
  simp only [State.encodeError, knownStatus, Config.maxPayload]
  by_cases h1 : s.txLength.toNat > 1024
  · simp only [h1, if_true, reduceCtorEq, false_iff]
    omega
  · by_cases h2 : 1 ≤ s.txStatus.toNat ∧ s.txStatus.toNat ≤ 5
    · simp [h1, h2]
      omega
    · simp only [h1, if_false]
      simp
      omega

theorem encodeError_of_length {s : State} (h : s.txLength.toNat > 1024) : s.encodeError = .length := by
  simp only [State.encodeError, Config.maxPayload, h, if_true]

theorem encodeError_of_status {s : State} (h : s.txLength.toNat ≤ 1024) (hs : ¬ (1 ≤ s.txStatus.toNat ∧ s.txStatus.toNat ≤ 5)) :
    s.encodeError = .status := by
  have hk : knownStatus s.txStatus = false := by
    rw [Bool.eq_false_iff]
    simpa [knownStatus] using hs
  have hl : ¬ s.txLength.toNat > 1024 := by omega
  simp [State.encodeError, hk, h]

theorem buildHeader_mem (s : State) :
    s.buildHeader.mem = (s.writeBytes txBase (headerBytes s.txId s.txStatus (csum s.txPayload) s.txLength)).mem := rfl

/-- A byte after the header is built. -/
theorem buildHeader_readByte_eq (s : State) (a : Nat) :
    s.buildHeader.readByte a =
      (s.writeBytes txBase (headerBytes s.txId s.txStatus (csum s.txPayload) s.txLength)).readByte a :=
  readByte_congr (buildHeader_mem s) (by rw [buildHeader_draws, writeBytes_draws]) a

/-- Building a header changes no byte but TXBUF[0..8) (R167). -/
theorem buildHeader_readByte (s : State) {a : Nat} (h : ¬ (0x1000 ≤ a ∧ a < 0x1008)) :
    s.buildHeader.readByte a = s.readByte a := by
  rw [buildHeader_readByte_eq, readByte_writeBytes_outside]
  simpa using h

/-- After the header is built, TXBUF[0..8) holds it and the bytes from 8 on are what they were (R167). -/
theorem buildHeader_txBytes (s : State) (n : Nat) :
    s.buildHeader.txBytes 0 (8 + n) = headerBytes s.txId s.txStatus (csum s.txPayload) s.txLength ++ s.txBytes 8 n := by
  have h1 : s.buildHeader.readBytes txBase 8 = headerBytes s.txId s.txStatus (csum s.txPayload) s.txLength := by
    have := readBytes_writeBytes s txBase (headerBytes s.txId s.txStatus (csum s.txPayload) s.txLength)
    rw [headerBytes_length] at this
    rw [← this]
    exact readBytes_congr fun k _ => buildHeader_readByte_eq s (txBase + k)
  have h2 : s.buildHeader.readBytes (txBase + 8) n = s.readBytes (txBase + 8) n :=
    readBytes_congr fun k _ => buildHeader_readByte s (by simp)
  rw [State.txBytes, Nat.add_zero, readBytes_add, h1, h2, State.txBytes]

/-- The header and the payload together are the frame image (R162, R163). -/
theorem header_append_payload (s : State) :
    headerBytes s.txId s.txStatus (csum s.txPayload) s.txLength ++ s.txPayload = frame s.txId s.txStatus s.txPayload := by
  simp [frame, State.txPayload, State.txBytes]

/-- Building a header within TXBUF keeps the buffers' canonical form. -/
theorem buildHeader_wf {s : State} (h : s.mem.wf) : s.buildHeader.mem.wf := by
  rw [buildHeader_mem]
  refine writeBytes_wf h fun k hk => ?_
  simp only [headerBytes_length] at hk
  simp [isBufAddr]
  omega

/-- The known status codes are 1 to 5 (R164). -/
theorem knownStatus_iff (st : Byte) : knownStatus st = true ↔ 1 ≤ st.toNat ∧ st.toNat ≤ 5 := by simp [knownStatus]

/-- The checksum is the sum mod 256 (R160). -/
theorem csum_toNat (bs : List Byte) : (csum bs).toNat = (bs.map BitVec.toNat).sum % 256 := by simp [csum]

end Sys2Proof.Machine
end

