-- ==== Sys2Proof/Laws/Agents.lean ====
section
/-! SUPPORT. The agents' steps, each said once: which case a step is, and what it leaves. -/

namespace Sys2Proof.Machine

/-! ### The index (10_state.md R33) -/

/-- The next index does not wrap while the current one is below the end (10_state.md R33). -/
theorem idx_succ_toNat {i e : Half} (h : i.toNat < e.toNat) : (i + 1).toNat = i.toNat + 1 := by
  have := e.isLt
  have h1 : (1 : Half).toNat = 1 := rfl
  simp only [BitVec.toNat_add, h1]
  omega

theorem idx_succ_eq_iff {i e : Half} (h : i.toNat < e.toNat) : i + 1 = e ↔ i.toNat + 1 = e.toNat := by
  rw [← BitVec.toNat_inj, idx_succ_toNat h]

/-! ### Runs -/

@[simp] theorem runEvents_nil (s : State) (d : Nat) : runEvents [] s d = .next s := rfl

theorem runEvents_cons {e : Event} {es : List Event} {s t : State} {d : Nat} (h : runEvent e s d = .next t) :
    runEvents (e :: es) s d = runEvents es t d := by simp [runEvents, h]

theorem runEvents_append {es fs : List Event} {s t : State} {d : Nat} (h : runEvents es s d = .next t) :
    runEvents (es ++ fs) s d = runEvents fs t d := by
  induction es generalizing s with
  | nil => cases h; rfl
  | cons e es ih =>
    simp only [List.cons_append, runEvents] at h ⊢
    split at h
    · exact ih h
    · cases h
    · cases h

/-! ### One event with `rst` inactive -/

theorem run_engine {s : State} {d : Nat} (h : s.rstActive = false) : runEvent .engine s d = .next s.engineStep := by simp [runEvent, h]

theorem run_linkTx {s : State} {d : Nat} (h : s.rstActive = false) : runEvent .linkTx s d = .next s.linkTxStep := by simp [runEvent, h]

theorem run_linkRx {s : State} {d : Nat} (b : Byte) (h : s.rstActive = false) :
    runEvent (.linkRx b) s d = .next (s.offerByte b d) := by
  simp [runEvent, h]

theorem run_timer {s : State} {d : Nat} (h : s.rstActive = false) : runEvent .timer s d = .next s.timerStep := by simp [runEvent, h]

theorem run_host {s : State} {d : Nat} (a : Access) (h : s.rstActive = false) : runEvent (.host a) s d = hostStep a s d := by
  simp [runEvent, h]

theorem run_rst {s : State} {d : Nat} (l : Bool) (h : s.rstActive = false) : runEvent (.rst l) s d = .next (s.rstStep l) := by
  simp [runEvent, h]

/-- A word written to a port runs as a word of that port, and the write is answered OK. -/
theorem run_issue {s : State} {d : Nat} (p : Port) (w : Word) (h : s.rstActive = false) :
    runEvent (issue p w) s d =
      onNext (fun t => t.respond .ok) (match p with | .cmd => cmdWrite w s | .ctrl => ctrlWrite w s) := by
  cases p <;> simp [runEvent, h, issue, hostStep, hostWrite, accessReg, regAt, portOffset, regWrite]

/-! ### The Engine's step by phase -/

theorem engineStep_encb {s : State} (h : s.eng.phase = .build) (ho : s.eng.op = .encb) : s.engineStep = s.encbBuild := by
  simp [State.engineStep, h, ho]

theorem engineStep_enc {s : State} (h : s.eng.phase = .build) (ho : s.eng.op = .enc) : s.engineStep = s.encBuild := by
  simp [State.engineStep, h, ho]

theorem engineStep_decb {s : State} (h : s.eng.phase = .parse) (ho : s.eng.op = .decb) : s.engineStep = s.decbParse := by
  simp [State.engineStep, h, ho]

/-- With a byte queued, a receive phase takes it (41_byte_transport.md R206). -/
theorem engineStep_rxByte {s : State} {b : Byte} {rest : List Byte} (h : s.receiving = true) (hq : s.rxq = b :: rest) :
    s.engineStep = s.rxByte b rest := by
  have h' := h
  simp only [State.receiving, Bool.and_eq_true, decide_eq_true_eq] at h'
  have hne : s.eng.idx ≠ s.eng.endIdx := fun e => by rw [e] at h'; omega
  simp only [State.engineStep]
  split <;> simp_all [State.rxStep, Phase.receives]

/-- With no byte queued, a receive phase waits (R206). -/
theorem engineStep_rxEmpty {s : State} (h : s.receiving = true) (hq : s.rxq = []) : s.engineStep = s := by
  have h' := h
  simp only [State.receiving, Bool.and_eq_true, decide_eq_true_eq] at h'
  have hne : s.eng.idx ≠ s.eng.endIdx := fun e => by rw [e] at h'; omega
  simp only [State.engineStep]
  split <;> simp_all [State.rxStep, Phase.receives]

/-- An Engine step that is not enabled changes nothing (41_byte_transport.md R209 (a), log entry 3). -/
theorem engineStep_of_not_enabled {s : State} (h : s.engineEnabled = false) : s.engineStep = s := by
  have rx (hr : (s.receiving && !s.rxq.isEmpty) = false) : s.rxStep = s := by
    simp only [State.rxStep]
    split
    · split <;> simp_all
    · rfl
  cases hp : s.eng.phase <;> simp only [State.engineEnabled, hp, Bool.or_eq_false_iff, decide_eq_false_iff_not] at h <;>
    simp only [State.engineStep, hp]
  · cases ho : s.eng.op <;> simp_all
  · cases ho : s.eng.op <;> simp_all
  · exact if_neg h
  · rw [if_neg h.1, rx h.2]
  · exact rx h
  · exact rx h

/-! ### TxEmit and RxByte by case (41_byte_transport.md R201, R206) -/

theorem txValid_iff {s : State} : s.txValid = true ↔ s.eng.phase = .tx ∧ s.eng.idx.toNat < s.eng.endIdx.toNat := by
  simp [State.txValid]

theorem receiving_iff {s : State} :
    s.receiving = true ↔ s.eng.phase.receives = true ∧ s.eng.idx.toNat < s.eng.endIdx.toNat := by simp [State.receiving]

/-- TxEmit before the last byte. -/
theorem txEmit_more {s : State} (hv : s.eng.idx.toNat + 1 < s.eng.endIdx.toNat) : s.txEmit = s.txMoved := by
  have : ¬ s.eng.idx + 1 = s.eng.endIdx := by
    rw [idx_succ_eq_iff (by omega)]
    omega
  rw [State.txEmit, if_neg (by simpa only [txMoved_eng] using this)]

/-- TxEmit of the last byte. -/
theorem txEmit_last {s : State} (hv : s.eng.idx.toNat + 1 = s.eng.endIdx.toNat) :
    s.txEmit = s.txMoved.finishAs s.eng.op.code .none false false := by
  have : s.eng.idx + 1 = s.eng.endIdx := by
    rw [idx_succ_eq_iff (by omega)]
    omega
  rw [State.txEmit, if_pos (by simpa only [txMoved_eng] using this)]
  rfl

/-- RxByte before the last byte of its phase. -/
theorem rxByte_more {s : State} (b : Byte) (rest : List Byte) (hv : s.eng.idx.toNat + 1 < s.eng.endIdx.toNat) :
    s.rxByte b rest = s.rxMoved b rest := by
  have : ¬ s.eng.idx + 1 = s.eng.endIdx := by
    rw [idx_succ_eq_iff (by omega)]
    omega
  rw [State.rxByte, if_neg (by simpa only [rxMoved_eng] using this)]

/-- RxByte of the last byte of its phase. -/
theorem rxByte_last {s : State} (b : Byte) (rest : List Byte) (hv : s.eng.idx.toNat + 1 = s.eng.endIdx.toNat) :
    s.rxByte b rest = (s.rxMoved b rest).phaseDone := by
  have : s.eng.idx + 1 = s.eng.endIdx := by
    rw [idx_succ_eq_iff (by omega)]
    omega
  rw [State.rxByte, if_pos (by simpa only [rxMoved_eng] using this)]

/-- The byte taken lands at RXBUF[idx]; every other byte is what it was (R206). -/
theorem rxMoved_readByte (s : State) (b : Byte) (rest : List Byte) (a : Nat) :
    (s.rxMoved b rest).readByte a = if a = rxBase + s.eng.idx.toNat then b else s.readByte a := by
  have : (s.rxMoved b rest).readByte a = (s.writeByte (rxBase + s.eng.idx.toNat) b).readByte a := readByte_congr rfl rfl a
  rw [this, readByte_writeByte]
  simp only [eq_comm]

end Sys2Proof.Machine
end

