-- ==== Sys2Proof/Laws/PerInstr.lean ====
section
/-! SUPPORT. One fact per instruction as syntax: its word matches its row of the opcode table. -/

namespace Sys2Proof.Laws.MatchesRow

/-- The match and mask of an instruction's row of the opcode table (30_encoding.md R126, spec/opcode_table.json). -/
def row : Instr → Word × Word
  | .encb => (0x00000001, 0xFFFFFFFF)
  | .decb _ => (0x00000002, 0x0000FFFF)
  | .send _ => (0x00000003, 0x0000FFFF)
  | .recv _ => (0x00000004, 0x0000FFFF)
  | .enc => (0x00000005, 0xFFFFFFFF)
  | .dec => (0x00000006, 0xFFFFFFFF)
  | .abort _ _ => (0x00000001, 0x00000003)
  | .srst _ _ _ => (0x00000002, 0x00000002)
  | .rxflush _ _ => (0x00000004, 0x00000006)

/-- The word of an instruction, under its row's mask, is its row's match. -/
def Statement (i : Instr) : Prop := encode i &&& (row i).2 = (row i).1

/-- Under the mask of COUNT commands a command word is its opcode. -/
theorem cmdWord_low (op : BitVec 4) (n : Half) : cmdWord op n &&& 0x0000FFFF#32 = op.setWidth 32 := by
  have mask : ∀ i, i < 32 → (0x0000FFFF#32).getLsbD i = decide (i < 16) := by decide
  apply BitVec.eq_of_getLsbD_eq
  intro i hi
  simp only [BitVec.getLsbD_and, getLsbD_cmdWord, mask i hi, BitVec.getLsbD_setWidth, hi, decide_true, Bool.true_and]
  by_cases h : i < 16
  · simp only [h, if_true, decide_true, Bool.and_true]
  · rw [BitVec.getLsbD_of_ge op i (by omega)]
    simp only [h, decide_false, Bool.and_false]

/-- Under a mask of bits 2:0 an action word is its three action bits. -/
theorem ctrlWord_low (ign : BitVec 29) (v2 v1 v0 : Bool) (mask : BitVec 3) :
    ctrlWord ign v2 v1 v0 &&& mask.setWidth 32 = ctrlWord 0 v2 v1 v0 &&& mask.setWidth 32 := by
  apply BitVec.eq_of_getLsbD_eq
  intro i hi
  simp only [BitVec.getLsbD_and, getLsbD_ctrlWord, BitVec.getLsbD_setWidth]
  by_cases h : i < 3
  · match i with
    | 0 | 1 | 2 => rfl
  · rw [BitVec.getLsbD_of_ge mask i (by omega)]
    simp only [Bool.and_false]

theorem encb : Statement .encb := by unfold Statement; decide

theorem decb (count : Half) : Statement (.decb count) := cmdWord_low 2 count

theorem send (count : Half) : Statement (.send count) := cmdWord_low 3 count

theorem recv (count : Half) : Statement (.recv count) := cmdWord_low 4 count

theorem enc : Statement .enc := by unfold Statement; decide

theorem dec : Statement .dec := by unfold Statement; decide

theorem abort (flush : Bool) (ign : BitVec 29) : Statement (.abort flush ign) :=
  (ctrlWord_low ign flush false true 3).trans (by cases flush <;> rfl)

theorem srst (v0 v2 : Bool) (ign : BitVec 29) : Statement (.srst v0 v2 ign) :=
  (ctrlWord_low ign v2 true v0 2).trans (by cases v0 <;> cases v2 <;> rfl)

theorem rxflush (abortFirst : Bool) (ign : BitVec 29) : Statement (.rxflush abortFirst ign) :=
  (ctrlWord_low ign true false abortFirst 6).trans (by cases abortFirst <;> rfl)

end Sys2Proof.Laws.MatchesRow
end

