-- ==== Sys2Proof/Laws/Steps.lean ====
section
/-! SUPPORT. What one event can do, said once: an inversion lemma for a write of CMD, for a write of CTRL, for the Engine's step and for
every event. A claim about all events is then a case analysis over these. -/

namespace Sys2Proof.Machine

/-- What a word written to CMD does: ignored while busy, or a command started, or a rejection (30_encoding.md R127). -/
inductive CmdCase (s : State) : State → Prop
  | ignored (busy : s.busy = true) : CmdCase s s.busyError
  | started (idle : s.busy = false) (w : Word) (op : EngOp) (count : Half) (command : op ≠ .none)
      (inRange : count.toNat ≤ Config.bufSize) :
      CmdCase s (State.startCmd { s with cmdLast := w, xferCount := 0 } op count)
  | rejected (idle : s.busy = false) (w : Word) (op : BitVec 4) (c : ErrCode) (code : c = .illegal ∨ c = .count) :
      CmdCase s (State.finishAs { s with cmdLast := w, xferCount := 0 } op c false false)

theorem accept_startCmd_case (s : State) (w : Word) (op : EngOp) (count : Half) (command : op ≠ .none)
    (inRange : count.toNat ≤ Config.bufSize) : CmdCase s (s.accept w fun t => t.startCmd op count) := by
  simp only [State.accept]
  split
  · exact .ignored ‹_›
  · exact .started (Bool.eq_false_iff.2 ‹_›) w op count command inRange

theorem accept_startCounted_case (s : State) (w : Word) (op : EngOp) (count : Half) (command : op ≠ .none) :
    CmdCase s (s.accept w fun t => t.startCounted op count) := by
  simp only [State.accept]
  split
  · exact .ignored ‹_›
  · have idle := Bool.eq_false_iff.2 ‹¬ s.busy = true›
    simp only [State.startCounted]
    split
    · exact .rejected idle w _ _ (.inr rfl)
    · exact .started idle w op count command (Nat.not_lt.1 ‹_›)

/-- A word written to CMD answers a next state, one of `CmdCase`. -/
theorem cmdWrite_case (s : State) (w : Word) : ∃ t, cmdWrite w s = .next t ∧ CmdCase s t := by
  have port : ∀ i, decode .cmd w = .instr i → portOf i = .cmd := by
    intro i h
    simp only [decode, decodeCmdWord] at h
    repeat' split at h
    all_goals (first | (cases h; done) | (simp only [Decoded.instr.injEq] at h; subst h; rfl))
  have action : decode .cmd w ≠ .noAction := by
    intro h
    simp only [decode, decodeCmdWord] at h
    repeat' split at h
    all_goals cases h
  simp only [cmdWrite]
  split
  · rename_i i h
    have := port i h
    cases i <;> first | (cases this; done) | skip
    · exact ⟨_, rfl, accept_startCmd_case _ _ _ _ (by simp) (by simp)⟩
    · exact ⟨_, rfl, accept_startCounted_case _ _ _ _ (by simp)⟩
    · exact ⟨_, rfl, accept_startCounted_case _ _ _ _ (by simp)⟩
    · exact ⟨_, rfl, accept_startCounted_case _ _ _ _ (by simp)⟩
    · exact ⟨_, rfl, accept_startCmd_case _ _ _ _ (by simp) (by simp)⟩
    · exact ⟨_, rfl, accept_startCmd_case _ _ _ _ (by simp) (by simp)⟩
  · refine ⟨_, rfl, ?_⟩
    simp only [State.acceptIllegal, State.accept]
    split
    · exact .ignored ‹_›
    · exact .rejected (Bool.eq_false_iff.2 ‹_›) w _ _ (.inl rfl)
  · exact absurd ‹_› action

/-- What a word written to CTRL does (43_control.md R289). -/
inductive CtrlCase (s : State) (v : Word) : State → Prop
  | srst (h1 : v.getLsbD 1 = true) : CtrlCase s v s.softReset
  | abort (h1 : v.getLsbD 1 = false) (h0 : v.getLsbD 0 = true) (h2 : v.getLsbD 2 = false) : CtrlCase s v s.abort
  | abortFlush (h1 : v.getLsbD 1 = false) (h0 : v.getLsbD 0 = true) (h2 : v.getLsbD 2 = true) : CtrlCase s v s.abort.rxFlush
  | flush (h1 : v.getLsbD 1 = false) (h0 : v.getLsbD 0 = false) (h2 : v.getLsbD 2 = true) : CtrlCase s v s.rxFlush
  | nothing (h1 : v.getLsbD 1 = false) (h0 : v.getLsbD 0 = false) (h2 : v.getLsbD 2 = false) : CtrlCase s v s

/-- A word written to CTRL answers a next state, one of `CtrlCase`. -/
theorem ctrlWrite_case (s : State) (v : Word) : ∃ t, ctrlWrite v s = .next t ∧ CtrlCase s v t := by
  simp only [ctrlWrite, decode, decodeCtrlWord]
  cases h1 : v.getLsbD 1
  · cases h0 : v.getLsbD 0
    · cases h2 : v.getLsbD 2
      · exact ⟨_, rfl, .nothing h1 h0 h2⟩
      · exact ⟨_, rfl, .flush h1 h0 h2⟩
    · cases h2 : v.getLsbD 2
      · exact ⟨_, rfl, .abort h1 h0 h2⟩
      · exact ⟨_, rfl, .abortFlush h1 h0 h2⟩
  · exact ⟨_, rfl, .srst h1⟩

/-- What the Engine's own step does (10_state.md R31). -/
inductive EngineCase (s : State) : State → Prop
  | waits : EngineCase s s
  | encbBuild (phase : s.eng.phase = .build) (op : s.eng.op = .encb) : EngineCase s s.encbBuild
  | encBuild (phase : s.eng.phase = .build) (op : s.eng.op = .enc) : EngineCase s s.encBuild
  | decbParse (phase : s.eng.phase = .parse) (op : s.eng.op = .decb) : EngineCase s s.decbParse
  | finishEmpty (phase : s.eng.phase = .tx ∨ s.eng.phase = .rxRaw) (atEnd : s.eng.idx = s.eng.endIdx) : EngineCase s s.finishEmpty
  | rxByte (b : Byte) (rest : List Byte) (phase : s.eng.phase = .rxRaw ∨ s.eng.phase = .rxHdr ∨ s.eng.phase = .rxPay)
      (before : s.eng.idx.toNat < s.eng.endIdx.toNat) (queued : s.rxq = b :: rest) : EngineCase s (s.rxByte b rest)

theorem engineStep_case (s : State) : EngineCase s s.engineStep := by
  have rx (h : s.eng.phase = .rxRaw ∨ s.eng.phase = .rxHdr ∨ s.eng.phase = .rxPay) : EngineCase s s.rxStep := by
    simp only [State.rxStep]
    split
    · rename_i hr
      split
      · exact .waits
      · exact .rxByte _ _ h (receiving_iff.1 hr).2 ‹_›
    · exact .waits
  unfold State.engineStep
  split
  · exact .waits
  · split <;> first | exact .waits | exact .encbBuild ‹_› ‹_› | exact .encBuild ‹_› ‹_›
  · split <;> first | exact .waits | exact .decbParse ‹_› ‹_›
  · split
    · exact .finishEmpty (.inl ‹_›) ‹_›
    · exact .waits
  · split
    · exact .finishEmpty (.inr ‹_›) ‹_›
    · exact rx (.inl ‹_›)
  · exact rx (.inr (.inl ‹_›))
  · exact rx (.inr (.inr ‹_›))

/-! ### The register an offset names (10_state.md R34) -/

theorem regAt_none {n : Nat} (h : 0x38 ≤ n) : regAt n = none := by
  unfold regAt
  iterate 14 rw [if_neg (by omega)]

theorem regAt_cmd {a : Offset} (h : regAt a.toNat = some .cmd) : a = 0x04 := by
  apply BitVec.eq_of_toNat_eq
  generalize a.toNat = n at *
  by_cases hn : n < 0x38
  · revert h
    revert hn
    revert n
    decide
  · rw [regAt_none (by omega)] at h
    cases h

theorem regAt_ctrl {a : Offset} (h : regAt a.toNat = some .ctrl) : a = 0x00 := by
  apply BitVec.eq_of_toNat_eq
  generalize a.toNat = n at *
  by_cases hn : n < 0x38
  · revert h
    revert hn
    revert n
    decide
  · rw [regAt_none (by omega)] at h
    cases h

/-- What one event does. -/
inductive EventCase (depth : Nat) (s : State) : Event → State → Prop
  | nothing (e : Event)
      (h : s.rstActive = true ∧ (∀ l, e ≠ .rst l) ∨ e = .rst false ∨ s.rstActive = false ∧ (e = .linkTx ∨ e = .timer)) :
      EventCase depth s e s
  | pin (l : Bool) (h : s.rstActive = true) : EventCase depth s (.rst l) { s with rstActive := l }
  | hardReset (h : s.rstActive = false) : EventCase depth s (.rst true) { s.hardReset with rstActive := true }
  | response (a : Access) (r : BusResponse) (h : s.rstActive = false) : EventCase depth s (.host a) (s.respond r)
  | cmdWord (w : Word) (t : State) (h : s.rstActive = false) (c : CmdCase s t) : EventCase depth s (issue .cmd w) (t.respond .ok)
  | ctrlWord (v : Word) (t : State) (h : s.rstActive = false) (c : CtrlCase s v t) : EventCase depth s (issue .ctrl v) (t.respond .ok)
  | regWrite (a : Offset) (r : Reg) (v : Word) (h : s.rstActive = false) (at_ : regAt a.toNat = some r)
      (stores : r ≠ .cmd ∧ r ≠ .ctrl) : EventCase depth s (.host (.write a .word v)) ((s.writeReg r v).respond .ok)
  | bufWrite (a : Offset) (size : Size) (v : Word) (h : s.rstActive = false) (inBuf : isBufAddr a.toNat = true)
      (aligned : a.toNat % sizeBytes size = 0) : EventCase depth s (.host (.write a size v)) ((s.writeBuf a size v).respond .ok)
  | engine (t : State) (h : s.rstActive = false) (c : EngineCase s t) : EventCase depth s .engine t
  | txEmit (h : s.rstActive = false) (valid : s.txValid = true) : EventCase depth s .linkTx s.txEmit
  | offer (b : Byte) (h : s.rstActive = false) : EventCase depth s (.linkRx b) (s.offerByte b depth)
  | timeout (h : s.rstActive = false) (enabled : s.timerEnabled = true) : EventCase depth s .timer s.timeout

theorem hostWrite_case (depth : Nat) (s : State) (a : Offset) (size : Size) (v : Word) (h : s.rstActive = false) :
    ∃ t, hostWrite a size v s = .next t ∧ EventCase depth s (.host (.write a size v)) t := by
  simp only [hostWrite]
  split
  · rename_i r hr
    simp only [accessReg] at hr
    split at hr
    · subst size
      by_cases h1 : r = .cmd
      · subst h1
        obtain ⟨t, ht, hc⟩ := cmdWrite_case s v
        simp only [Sys2Proof.Machine.regWrite, ht, onNext]
        rw [regAt_cmd hr]
        exact ⟨_, rfl, .cmdWord v t h hc⟩
      by_cases h2 : r = .ctrl
      · subst h2
        obtain ⟨t, ht, hc⟩ := ctrlWrite_case s v
        simp only [Sys2Proof.Machine.regWrite, ht, onNext]
        rw [regAt_ctrl hr]
        exact ⟨_, rfl, .ctrlWord v t h hc⟩
      rw [show Sys2Proof.Machine.regWrite r v s = .next (s.writeReg r v) by
        cases r <;> simp_all [Sys2Proof.Machine.regWrite]]
      exact ⟨_, rfl, .regWrite _ _ _ h hr ⟨h1, h2⟩⟩
    · cases hr
  · split
    · rename_i hb
      simp only [accessBuf, Bool.and_eq_true, decide_eq_true_eq] at hb
      exact ⟨_, rfl, .bufWrite _ _ _ h hb.1 hb.2⟩
    · exact ⟨_, rfl, .response _ _ h⟩

/-- Every event answers a next state, one of `EventCase`. -/
theorem runEvent_case (depth : Nat) (s : State) (e : Event) : ∃ t, runEvent e s depth = .next t ∧ EventCase depth s e t := by
  cases h : s.rstActive
  · cases e with
    | host a =>
      rw [run_host a h]
      cases a with
      | read addr size =>
        refine ⟨_, rfl, ?_⟩
        simp only [State.hostRead]
        split
        · exact .response _ _ h
        · split <;> exact .response _ _ h
      | write addr size v => exact hostWrite_case depth s addr size v h
    | engine => exact ⟨_, run_engine h, .engine _ h (engineStep_case s)⟩
    | linkTx =>
      refine ⟨_, run_linkTx h, ?_⟩
      simp only [State.linkTxStep]
      split
      · exact .txEmit h ‹_›
      · exact .nothing _ (.inr (.inr ⟨h, .inl rfl⟩))
    | linkRx b => exact ⟨_, run_linkRx b h, .offer b h⟩
    | timer =>
      refine ⟨_, run_timer h, ?_⟩
      simp only [State.timerStep]
      split
      · exact .timeout h ‹_›
      · exact .nothing _ (.inr (.inr ⟨h, .inr rfl⟩))
    | rst l =>
      refine ⟨_, run_rst l h, ?_⟩
      cases l
      · exact .nothing _ (.inr (.inl rfl))
      · exact .hardReset h
  · cases e <;> simp only [runEvent, h, if_true] <;>
      first | exact ⟨_, rfl, .nothing _ (.inl ⟨h, by simp⟩)⟩ | exact ⟨_, rfl, .pin _ h⟩

theorem eventCase_of {depth : Nat} {s t : State} {e : Event} (h : runEvent e s depth = .next t) : EventCase depth s e t := by
  obtain ⟨t', h', c⟩ := runEvent_case depth s e
  rw [h] at h'
  cases h'
  exact c

end Sys2Proof.Machine
end

