-- ==== Sys2Proof/Tests/Slice0.lean ====
section
/-! SUPPORT. Tests. Expected values are those of spec/95_test_vectors.md, or read off a rule's table by hand; each test names its
source. A theorem `test_witness_X` shows states and operands that meet the hypotheses of `Obligations.X`, each clause at a boundary. -/

namespace Sys2Proof.Tests

open Sys2Proof Sys2Proof.Machine Host

/-! ### Well-formed instructions: ill-formed ones are refused (30_encoding.md R121, log entry 7) -/

theorem test_wellFormed_refuses_counts_above_1032 :
    (Instr.decb 1033).wellFormed = false ∧ (Instr.send 1033).wellFormed = false ∧ (Instr.recv 65535).wellFormed = false := by decide

theorem test_wellFormed_refuses_second_spelling : (Instr.rxflush true 0).wellFormed = false := by decide

theorem test_wellFormed_accepts_boundaries :
    (Instr.decb 1032).wellFormed = true ∧ (Instr.send 0).wellFormed = true ∧ (Instr.rxflush false 0x1FFFFFFF).wellFormed = true := by
  decide

/-! ### Decoding: words written out bit by bit from the tables of 30_encoding.md R120, R122 and of 43_control.md -/

theorem test_decode_encb : decode .cmd 0b0000000000000000_000000000000_0001 = .instr .encb := by decide

theorem test_decode_decb : decode .cmd 0b0000010000001000_000000000000_0010 = .instr (.decb 1032) := by decide

theorem test_decode_send : decode .cmd 0b1000000000000001_000000000000_0011 = .instr (.send 0x8001) := by decide

theorem test_decode_recv : decode .cmd 0b0000000000000100_000000000000_0100 = .instr (.recv 4) := by decide

theorem test_decode_enc : decode .cmd 0b0000000000000000_000000000000_0101 = .instr .enc := by decide

theorem test_decode_dec : decode .cmd 0b0000000000000000_000000000000_0110 = .instr .dec := by decide

theorem test_decode_abort : decode .ctrl 0b10000000000000000000000000001_1_0_1 = .instr (.abort true 0x10000001) := by decide

theorem test_decode_srst : decode .ctrl 0b00000000000000000000000000010_1_1_0 = .instr (.srst false true 2) := by decide

theorem test_decode_rxflush : decode .ctrl 0b11111111111111111111111111111_1_0_0 = .instr (.rxflush false 0x1FFFFFFF) := by decide

/-- W2 to W7, W12 of 95_test_vectors.md: ILLEGAL words. -/
theorem test_decode_illegal :
    decode .cmd 0x00010001 = .illegal 1 ∧ decode .cmd 0x00000010 = .illegal 0 ∧ decode .cmd 0x00000000 = .illegal 0 ∧
    decode .cmd 0x00000007 = .illegal 7 ∧ decode .cmd 0x0000000F = .illegal 15 ∧ decode .cmd 0x00000013 = .illegal 3 ∧
    decode .cmd 0xFFFF0006 = .illegal 6 := by decide

/-- W1, W8 to W11 of 95_test_vectors.md. -/
theorem test_decodeCmd :
    decodeCmd 0x00000001 = .cmd 1 0 ∧ decodeCmd 0x04090002 = .countError 2 ∧ decodeCmd 0x04090003 = .countError 3 ∧
    decodeCmd 0x04090004 = .countError 4 ∧ decodeCmd 0x04080004 = .cmd 4 1032 := by decide

/-- No two CMD rows match one word (30_encoding.md R126): under both masks their match words differ. -/
theorem test_cmd_rows_do_not_overlap :
    (matchMask.filter fun r => r.2.1 = .cmd).Pairwise (fun r q => r.2.2.1 &&& q.2.2.2 ≠ q.2.2.1 &&& r.2.2.2) := by decide

/-- Bare words as the host's probe reads them (log entry 6): the six commands, and the three actions with an ignored bit set. -/
theorem test_table_words :
    decodeTableWord 32 0x00000001 = some .encb ∧ decodeTableWord 32 0x00000002 = some (.decb 0) ∧
    decodeTableWord 32 0x00000003 = some (.send 0) ∧ decodeTableWord 32 0x00000004 = some (.recv 0) ∧
    decodeTableWord 32 0x00000005 = some .enc ∧ decodeTableWord 32 0x00000006 = some .dec ∧
    decodeTableWord 32 0x00000009 = some (.abort false 1) ∧ decodeTableWord 32 0x0000000A = some (.srst false false 1) ∧
    decodeTableWord 32 0x0000000C = some (.rxflush false 1) ∧ decodeTableWord 32 0x00000008 = none := by decide

/-! ### Small states -/

/-- Idle, with a receive timeout. -/
def idle : State := { State.reset with rxTimeout := 1 }

/-- Busy in a phase, with `idx` of `endIdx` bytes moved. -/
def busy (op : EngOp) (phase : Phase) (idx endIdx : Half) : State :=
  { idle with eng := { op := op, phase := phase, idx := idx, endIdx := endIdx }, xferCount := idx }

/-- Buffer bytes from an offset on. -/
def holding (s : State) (a : Nat) (bs : List Byte) : State := s.writeBytes a bs

/-- Operands of ENCB and ENC, with payload 01 02 03. -/
def operands (s : State) (st : Byte) (len : Half) : State := { holding s 0x1008 [1, 2, 3] with txStatus := st, txLength := len }

/-- The 8 header bytes of id 0, checksum 6. -/
def header (st : Byte) (len : Half) : List Byte := headerBytes 0 st 6 len

/-! ### Steps (95_test_vectors.md) -/

/-- E1: the frame header, TX_HDR, XFER_COUNT, RESULT and DONE of an ENCB. -/
theorem test_encb_E1 :
    (operands (busy .encb .build 0 0) 2 3).engineStep.txBytes 0 11 = [0, 0, 0, 0, 2, 6, 3, 0, 1, 2, 3] ∧
    (operands (busy .encb .build 0 0) 2 3).engineStep.readReg .txHdr = 0x00030602 ∧
    (operands (busy .encb .build 0 0) 2 3).engineStep.xferCount = 11 ∧
    (operands (busy .encb .build 0 0) 2 3).engineStep.result = 0x00010000 ∧
    (operands (busy .encb .build 0 0) 2 3).engineStep.irqStatus = 1 := by decide

/-- E6: LENGTH before STATUS. -/
theorem test_encb_E6 :
    (operands (busy .encb .build 0 0) 6 1025).engineStep.result = 0x00010003 ∧
    (operands (busy .encb .build 0 0) 6 1025).engineStep.readReg .txHdr = 0x04010006 := by decide

/-- D3: an image of 11 bytes. -/
theorem test_decb_D3 :
    (holding (busy .decb .parse 0 11) 0x2000 (header 2 3 ++ [1, 2, 3])).engineStep.result = 0x00020100 ∧
    (holding (busy .decb .parse 0 11) 0x2000 (header 2 3 ++ [1, 2, 3])).engineStep.readReg .rxHdr = 0x00030602 ∧
    (holding (busy .decb .parse 0 11) 0x2000 (header 2 3 ++ [1, 2, 3])).engineStep.rxCsumCalc = 6 ∧
    (holding (busy .decb .parse 0 11) 0x2000 (header 2 3 ++ [1, 2, 3])).engineStep.xferCount = 11 := by decide

/-- D10: an unknown status and a checksum mismatch are reported, not raised. -/
theorem test_decb_D10 :
    (holding (busy .decb .parse 0 8) 0x2000 [0x78, 0x56, 0x34, 0x12, 0, 0xFF, 0, 0]).engineStep.result = 0x00020200 ∧
    (holding (busy .decb .parse 0 8) 0x2000 [0x78, 0x56, 0x34, 0x12, 0, 0xFF, 0, 0]).engineStep.rxId = 0x12345678 := by decide

/-- S1: the last of four bytes. -/
theorem test_send_S1 :
    (holding (busy .send .tx 3 4) 0x1003 [0x77]).linkTxStep.txOut = [0x77] ∧
    (holding (busy .send .tx 3 4) 0x1003 [0x77]).linkTxStep.result = 0x00030000 ∧
    (holding (busy .send .tx 3 4) 0x1003 [0x77]).linkTxStep.xferCount = 4 := by decide

/-- S2: SEND 0 finishes in an Engine step and sends nothing. -/
theorem test_send_S2 :
    (busy .send .tx 0 0).engineStep.result = 0x00030000 ∧ (busy .send .tx 0 0).linkTxStep.txOut = [] ∧
    (busy .send .tx 0 0).engineStep.txOut = [] := by decide

/-- R4: the last of two bytes; the rest stays queued. -/
theorem test_recv_R4 :
    ({ busy .recv .rxRaw 1 2 with rxq := [2, 3, 4] } : State).engineStep.result = 0x00040000 ∧
    ({ busy .recv .rxRaw 1 2 with rxq := [2, 3, 4] } : State).engineStep.rxq = [3, 4] ∧
    ({ busy .recv .rxRaw 1 2 with rxq := [2, 3, 4] } : State).engineStep.rxBytes 1 1 = [2] := by decide

/-- R3: the timeout after two bytes. -/
theorem test_recv_R3 :
    (busy .recv .rxRaw 2 4).timerStep.result = 0x00040005 ∧ (busy .recv .rxRaw 2 4).timerStep.xferCount = 2 := by decide

/-- N2: the Build step of an ENC. -/
theorem test_enc_N2 :
    (operands (busy .enc .build 0 0) 2 3).engineStep.eng = ⟨.enc, .tx, 0, 11⟩ ∧
    (operands (busy .enc .build 0 0) 2 3).engineStep.xferCount = 0 ∧
    (operands (busy .enc .build 0 0) 2 3).engineStep.txBytes 0 8 = [0, 0, 0, 0, 2, 6, 3, 0] := by decide

/-- N3: a status outside the set. -/
theorem test_enc_N3 : (operands (busy .enc .build 0 0) 6 3).engineStep.result = 0x00050004 := by decide

/-- C1: the 8th byte of a header-only frame ends the command. -/
theorem test_dec_C1 :
    ({ holding (busy .dec .rxHdr 7 8) 0x2000 [0, 0, 0, 0, 4, 0, 0] with rxq := [0] } : State).engineStep.result = 0x00060100 ∧
    ({ holding (busy .dec .rxHdr 7 8) 0x2000 [0, 0, 0, 0, 4, 0, 0] with rxq := [0] } : State).engineStep.readReg .rxHdr = 0x00000004 := by
  decide

/-- C5: a header that declares 0x0500 bytes. -/
theorem test_dec_C5 :
    ({ holding (busy .dec .rxHdr 7 8) 0x2000 [0, 0, 0, 0, 2, 0, 0] with rxq := [5, 9, 9] } : State).engineStep.result = 0x00060003 ∧
    ({ holding (busy .dec .rxHdr 7 8) 0x2000 [0, 0, 0, 0, 2, 0, 0] with rxq := [5, 9, 9] } : State).engineStep.rxq = [9, 9] := by decide

/-- T2: ABORT of SEND 10 after 3 bytes. -/
theorem test_abort_T2 : (busy .send .tx 3 10).abort.result = 0x00030008 ∧ (busy .send .tx 3 10).abort.xferCount = 3 := by decide

/-- T3, T7: SRST leaves no record. -/
theorem test_srst_T3 :
    ({ busy .recv .rxRaw 0 8 with rxq := [1], irqEnable := 15, txId := 9, txOut := [7] } : State).softReset.readReg .status = 0 ∧
    ({ busy .recv .rxRaw 0 8 with rxq := [1], irqEnable := 15, txId := 9, txOut := [7] } : State).softReset.readReg .txId = 0 ∧
    ({ busy .recv .rxRaw 0 8 with rxq := [1], irqEnable := 15, txId := 9, txOut := [7] } : State).softReset.txOut = [7] := by decide

/-- T4, T5: RXFLUSH idle and busy. -/
theorem test_rxflush_T4_T5 :
    ({ idle with rxq := [1, 2, 3, 4, 5] } : State).rxFlush.readReg .status = 0 ∧ (busy .recv .rxRaw 0 8).rxFlush.irqStatus = 8 := by decide

/-- R9: the 65th byte is dropped with OVR. -/
theorem test_overrun_R9 :
    (({ idle with rxq := List.replicate 64 0 } : State).offerByte 0x40).irqStatus = 4 ∧
    (({ idle with rxq := List.replicate 64 0 } : State).offerByte 0x40).readReg .status = 0x00400000 := by decide

/-- B1 to B4: bus errors. -/
theorem test_bus_errors :
    (idle.hostRead 0x038 .word).busResp = some (.error (.busError 0x038)) ∧
    (idle.hostRead 0x008 .byte).busResp = some (.error (.busError 0x008)) ∧
    accessBuf 0x1001 .half = false ∧ accessBuf 0x1408 .word = false := by decide

/-- B5: the last word of TXBUF, byte 0 lowest. -/
theorem test_buffer_B5 : (idle.writeBuf 0x1404 .word 0x04030201).txBytes 1028 4 = [1, 2, 3, 4] := by decide

/-- K2, K4, K7 of 95_test_vectors.md. -/
theorem test_checksums : csum [0xFF, 1] = 0 ∧ csum [0x80, 0x80, 1] = 1 ∧ csum [0xAA, 0xBB] = 0x65 := by decide

/-- K11 of 95_test_vectors.md. -/
theorem test_frame_K11 : frame 0x12345678 4 [0xAA, 0xBB] = [0x78, 0x56, 0x34, 0x12, 0x04, 0x65, 0x02, 0x00, 0xAA, 0xBB] := by decide

/-! ### Witnesses -/

/-- SEND 1032 before its last byte, and RECV and DEC waiting: consistent states. -/
theorem test_inv_send : Inv (busy .send .tx 1031 1032) :=
  ⟨⟨.inl ⟨rfl, by decide⟩, .inl (by decide), rfl⟩, by decide, by decide, by decide, by decide⟩

theorem test_inv_recv : Inv (busy .recv .rxRaw 1031 1032) :=
  ⟨⟨rfl, by decide, .inl (by decide), rfl⟩, by decide, by decide, by decide, by decide⟩

/-- The FIFO's content is free up to its depth. -/
theorem test_inv_queued {s : State} (h : Inv s) (q : List Byte) (hq : q.length ≤ 64) (hr : s.rstActive = false) :
    Inv { s with rxq := q } :=
  ⟨h.engine, h.result, hq, h.mem, fun h' => by simp [hr] at h'⟩

theorem test_inv_recv_nothing : Inv (busy .recv .rxRaw 0 0) := ⟨⟨rfl, by decide, .inr (by decide), rfl⟩, by decide, by decide, by decide, by decide⟩

theorem test_inv_dec : Inv (busy .dec .rxHdr 7 8) := ⟨⟨rfl, rfl, by decide, rfl⟩, by decide, by decide, by decide, by decide⟩

theorem test_inv_enc : Inv (operands (busy .enc .build 0 0) 5 1024) :=
  ⟨⟨.inr rfl, rfl, rfl, rfl⟩, by decide, by decide, by decide, by decide⟩

theorem test_witness_DecodeOfEncodeIsTheInstruction :
    (Instr.recv 1032).wellFormed = true ∧ (Instr.abort true 0x1FFFFFFF).wellFormed = true := by decide

theorem test_witness_EncodeOfDecodeIsTheWord :
    decode .cmd 0xFFFF0004 = .instr (.recv 0xFFFF) ∧ decode .ctrl 0xFFFFFFFF = .instr (.srst true true 0x1FFFFFFF) := by decide

theorem test_witness_StepRunsTheDecodedInstruction :
    (idle.withFetchWord 32 0x00080002).rstActive = false ∧ (idle.withFetchWord 32 0x00080002).agenda = [issue .cmd 0x00080002] ∧
    decode .cmd 0x00080002 = .instr (.decb 8) ∧ decode .ctrl 0x00000002 = .instr (.srst false false 0) ∧
    decode .cmd 0x00000007 = .illegal 7 ∧ decode .ctrl 0xFFFFFFF8 = .noAction := by decide

/-- The states of the endless run of `step` from a state. -/
def stepsFrom (s : State) : Nat → State
  | 0 => s
  | n + 1 => match step (stepsFrom s n) with | .next t => t | .fault _ => stepsFrom s n | .refused _ => stepsFrom s n

theorem test_witness_StepRunsTheNextEvent :
    ({ idle with agenda := [.engine, .timer] } : State).agenda = [.engine, .timer] ∧ idle.agenda = [] ∧
    ∀ n, step (stepsFrom idle n) = .next (stepsFrom idle (n + 1)) := by
  refine ⟨by decide, by decide, fun n => ?_⟩
  obtain ⟨t, h, -⟩ := runEvent_case Config.rxFifoDepth (stepsFrom idle n).takeEvent (stepsFrom idle n).nextEvent
  have h : step (stepsFrom idle n) = .next t := h
  simp only [stepsFrom, h]

/-- Each clause of R123: OP 0 and 7, RSVD, COUNT of ENCB. -/
theorem test_witness_IllegalWordIsRejectedAtAcceptance :
    idle.eng = Eng.idle ∧ ((0 : Word).extractLsb' 0 4).toNat < 1 ∧ 6 < ((7 : Word).extractLsb' 0 4).toNat ∧
    (0x00000013 : Word).extractLsb' 4 12 ≠ 0 ∧ (0x00010001 : Word).extractLsb' 0 4 = 1 ∧ (0x00010001 : Word).extractLsb' 16 16 ≠ 0 := by
  decide

theorem test_witness_RegistersAfterReset : ∃ t, exec (.srst false false 0) (busy .recv .rxRaw 0 8) = .next t := ⟨_, rfl⟩

theorem test_witness_EveryStepKeepsInv :
    Inv { busy .send .tx 1031 1032 with agenda := [.linkTx] } ∧ ∃ t, step { busy .send .tx 1031 1032 with agenda := [.linkTx] } = .next t :=
  ⟨⟨test_inv_send.engine, test_inv_send.result, test_inv_send.fifo, test_inv_send.mem, fun h => by cases h⟩, _, rfl⟩

theorem test_witness_HardwareResetHoldsTheBlock :
    idle.rstActive = false ∧ ({ idle with rstActive := true } : State).rstActive = true ∧ ∀ l, (Event.linkRx 0x41) ≠ .rst l := by
  refine ⟨rfl, rfl, ?_⟩
  intro l h
  cases h

theorem test_witness_AcceptedCommandStartsTheEngine : idle.eng.phase = .idle ∧ (1032 : Half).toNat ≤ 1032 ∧ (0 : Half).toNat ≤ 1032 := by decide

theorem test_witness_CountAboveBufferIsRejected : idle.eng = Eng.idle ∧ (1033 : Half).toNat > 1032 := by decide

theorem test_witness_CommandWhileBusyIsIgnored :
    (busy .send .tx 0 4).rstActive = false ∧ (busy .send .tx 0 4).eng.phase ≠ .idle := by decide

/-- Hypotheses on the operands of ENCB and ENC: the least and the greatest. -/
theorem test_witness_EncbBuildsTheFrame :
    (operands idle 1 0).rstActive = false ∧ (operands idle 1 0).eng.phase = .idle ∧ (operands idle 1 0).txLength.toNat ≤ 1024 ∧
    1 ≤ (operands idle 1 0).txStatus.toNat ∧ (operands idle 5 1024).txLength.toNat ≤ 1024 ∧ (operands idle 5 1024).txStatus.toNat ≤ 5 := by
  decide

/-- The same hypotheses as `EncbBuildsTheFrame`, and encodeError = NONE, which both ENC statements and `HeaderReadsAsTheRegisters` take. -/
theorem test_witness_EncTransmitsTheFrame :
    (operands idle 5 1024).rstActive = false ∧ (operands idle 5 1024).eng.phase = .idle ∧ (operands idle 5 1024).encodeError = .none ∧
    (operands idle 1 0).encodeError = .none ∧ (operands (busy .encb .build 0 0) 5 1024).encodeError = .none ∧
    (operands (busy .enc .build 0 0) 1 0).eng.op = .enc ∧ (busy .decb .parse 0 8).eng.phase = .parse ∧
    8 ≤ (busy .decb .parse 0 8).eng.endIdx.toNat := by decide

theorem test_witness_AbortedEncSendsAPrefix : (operands idle 5 1024).encodeError = .none ∧ 1031 < 8 + (operands idle 5 1024).txLength.toNat := by
  decide

theorem test_witness_EncodeRefusesBadOperands :
    (operands (busy .encb .build 0 0) 2 1025).txLength.toNat > 1024 ∧ (operands (busy .encb .build 0 0) 2 1025).eng.op = .encb ∧
    (operands (busy .encb .build 0 0) 0 1024).txLength.toNat ≤ 1024 ∧ (operands (busy .encb .build 0 0) 0 1024).txStatus.toNat < 1 ∧
    (operands (busy .enc .build 0 0) 2 1025).txLength.toNat > 1024 ∧ (operands (busy .enc .build 0 0) 2 1025).eng.op = .enc ∧
    5 < (operands (busy .enc .build 0 0) 6 1024).txStatus.toNat := by decide

/-- DECB at its boundaries: 8 bytes of an empty frame, and 1032 bytes of the longest. -/
theorem test_witness_DecbParsesTheImage :
    (holding idle 0x2000 (header 2 0)).rxBytes 0 8 = headerBytes 0 2 6 0 ∧ 8 + (0 : Half).toNat ≤ (8 : Half).toNat ∧
    (holding idle 0x2000 (header 2 1024)).rxBytes 0 8 = headerBytes 0 2 6 1024 ∧ 8 + (1024 : Half).toNat ≤ (1032 : Half).toNat ∧
    (holding idle 0x2000 (header 2 0)).rstActive = false ∧ (holding idle 0x2000 (header 2 0)).eng.phase = .idle := by decide

/-- FRAMING_HDR at 7 bytes, LENGTH at 1025, FRAMING_PAY one byte short. -/
theorem test_witness_DecbReportsShortAndLongImages :
    (holding (busy .decb .parse 0 7) 0x2000 (header 2 1)).rxBytes 0 8 = headerBytes 0 2 6 1 ∧
    (busy .decb .parse 0 7).eng.endIdx.toNat < 8 ∧ 8 ≤ (busy .decb .parse 0 8).eng.endIdx.toNat ∧ (1025 : Half).toNat > 1024 ∧
    (busy .decb .parse 0 8).eng.endIdx.toNat < 8 + (1 : Half).toNat ∧
    (holding (busy .decb .parse 0 8) 0x2000 (header 2 1025)).rxBytes 0 8 = headerBytes 0 2 6 1025 := by decide

/-- An encoded frame of no payload, placed in RXBUF. -/
theorem test_witness_DecodeReproducesTheEncodedFrame :
    ({ idle with txStatus := 4 } : State).txLength.toNat ≤ 1024 ∧ 8 + ({ idle with txStatus := 4 } : State).txLength.toNat ≤ (8 : Half).toNat ∧
    (holding idle 0x2000 [0, 0, 0, 0, 4, 0, 0, 0]).rxBytes 0 8 = ({ busy .encb .build 0 0 with txStatus := 4 } : State).engineStep.txBytes 0 8 := by
  decide

theorem test_witness_ChecksumIgnoresOrder : List.Perm ([1, 2, 3] : List Byte) [3, 2, 1] := by decide

theorem test_witness_SendTransmitsExactlyItsBytes :
    idle.rstActive = false ∧ idle.eng.phase = .idle ∧ (1032 : Half).toNat ≤ 1032 ∧ 1031 < (1032 : Half).toNat := by decide

theorem test_witness_TxEmitMovesOneByte :
    (busy .send .tx 0 2).eng.phase = .tx ∧ (busy .send .tx 0 2).eng.idx.toNat + 1 ≠ (busy .send .tx 0 2).eng.endIdx.toNat ∧
    (busy .enc .tx 1031 1032).eng.idx.toNat + 1 = (busy .enc .tx 1031 1032).eng.endIdx.toNat ∧
    (busy .send .tx 0 0).eng.endIdx.toNat ≤ (busy .send .tx 0 0).eng.idx.toNat ∧ idle.eng.phase ≠ .tx := by decide

/-- A byte arrives, and a CTRL write flushes, while a byte waits. -/
theorem test_witness_OfferedByteIsStable :
    (busy .send .tx 1 2).txValid = true ∧ (∃ t, runEvent (.linkRx 0x41) (busy .send .tx 1 2) = .next t) ∧
    (∃ t, runEvent (issue .ctrl 4) (busy .send .tx 1 2) = .next t) ∧
    ∀ v : Word, issue .ctrl 4 = issue .ctrl v → v.getLsbD 0 = false ∧ v.getLsbD 1 = false := by
  refine ⟨by decide, ⟨_, rfl⟩, ⟨_, rfl⟩, ?_⟩
  intro v h
  cases h
  decide

theorem test_witness_OfferedByteIsQueuedOrDropped :
    ({ idle with rxq := List.replicate 63 0 } : State).rxq.length < 64 ∧ 64 ≤ ({ idle with rxq := List.replicate 64 0 } : State).rxq.length ∧
    ({ idle with rxq := [] } : State).rxq.length < 1 ∧ 1 ≤ ({ idle with rxq := [5] } : State).rxq.length := by decide

/-- R8: a FIFO of one byte takes one and drops the next, and CAPS shows its depth. -/
theorem test_fifo_of_one_byte :
    (idle.offerByte 5 1).rxq = [5] ∧ ((idle.offerByte 5 1).offerByte 6 1).rxq = [5] ∧
    ((idle.offerByte 5 1).offerByte 6 1).irqStatus = 4 ∧ idle.readReg .caps 1 = 0x00010400 := by decide

theorem test_witness_RecvStoresExactlyItsBytes :
    ({ idle with rxq := [1, 2, 3] } : State).rxq = [1, 2] ++ [3] ∧ ([1, 2] : List Byte).length = (2 : Half).toNat ∧
    ({ idle with rxq := [1, 2, 3] } : State).rxq = [] ++ [1, 2, 3] ∧ ([] : List Byte).length = (0 : Half).toNat ∧
    ({ idle with rxq := [1] } : State).rxq = [1] ∧ ([1] : List Byte).length + ([2] : List Byte).length = (2 : Half).toNat ∧
    idle.rxq = [] ∧ ([] : List Byte).length + ([2] : List Byte).length = (1 : Half).toNat := by decide

/-- RECV 2 with one byte queued and one arriving, in two steps of each kind. -/
theorem test_recv_interleaved :
    ((({ busy .recv .rxRaw 0 2 with rxq := [1] } : State).engineStep.offerByte 2).engineStep).rxBytes 0 2 = [1, 2] ∧
    ((({ busy .recv .rxRaw 0 2 with rxq := [1] } : State).engineStep.offerByte 2).engineStep).result = 0x00040000 := by decide

/-! Endless runs. `first` happens once, and then nothing changes any more. -/

/-- The states of a run that takes one step and then stays. -/
def thenStays (s t : State) : Nat → State
  | 0 => s
  | _ + 1 => t

/-- The events of a run that starts with an event. -/
def firstThen (e f : Event) : Nat → Event
  | 0 => e
  | _ + 1 => f

/-- A run that ends in a state with neither the Engine nor the Timer enabled is fair. -/
theorem isFairRun_thenStays {s t : State} {e f : Event} (h : runEvent e s = .next t) (stays : runEvent f t = .next t)
    (engine : t.engineEnabled = false) (timer : t.timerEnabled = false) : IsFairRun (thenStays s t) (firstThen e f) where
  run n := by
    cases n with
    | zero => exact ⟨s.agenda, s.sched, h⟩
    | succ n => exact ⟨t.agenda, t.sched, stays⟩
  engine n hn := absurd (hn (n + 1) (by omega)) (by simp [thenStays, engine])
  timer n hn := absurd (hn (n + 1) (by omega)) (by simp [thenStays, timer])

/-- A run in which nothing changes. -/
theorem isRun_constant {s : State} {e : Event} (h : runEvent e s = .next s) : IsRun (fun _ => s) fun _ => e :=
  fun _ => ⟨s.agenda, s.sched, h⟩

theorem not_endsFromOutside_engine : ¬ endsFromOutside .engine := by
  rintro (h | ⟨v, h, -⟩) <;> cases h

/-- Each way a RECV ends: its last byte, a RECV of nothing, a timeout, ABORT, SRST, the hardware reset. -/
theorem test_witness_RecvSucceedsOnlyWithAllItsBytes :
    Inv { busy .recv .rxRaw 1031 1032 with rxq := [7] } ∧ Inv { busy .recv .rxRaw 1031 1032 with rxq := [] } ∧
    (∃ t, runEvent .engine { busy .recv .rxRaw 1031 1032 with rxq := [7] } = .next t ∧ t.eng.phase = .idle) ∧
    (∃ t, runEvent .engine (busy .recv .rxRaw 0 0) = .next t ∧ t.eng.phase = .idle) ∧
    (∃ t, runEvent .timer (busy .recv .rxRaw 1031 1032) = .next t ∧ t.eng.phase = .idle) ∧
    (∃ t, runEvent (issue .ctrl 5) (busy .recv .rxRaw 1031 1032) = .next t ∧ t.eng.phase = .idle) ∧
    (∃ t, runEvent (issue .ctrl 2) (busy .recv .rxRaw 1031 1032) = .next t ∧ t.eng.phase = .idle) ∧
    (∃ t, runEvent (.rst true) (busy .recv .rxRaw 1031 1032) = .next t ∧ t.eng.phase = .idle) :=
  ⟨test_inv_queued test_inv_recv _ (by decide) rfl, test_inv_queued test_inv_recv _ (by decide) rfl, ⟨_, rfl, by decide⟩, ⟨_, rfl, by decide⟩, ⟨_, rfl, by decide⟩,
    ⟨_, rfl, by decide⟩, ⟨_, rfl, by decide⟩, ⟨_, rfl, by decide⟩⟩

theorem test_witness_TimeoutEndsAReceive :
    (busy .recv .rxRaw 3 4).eng.idx.toNat < (busy .recv .rxRaw 3 4).eng.endIdx.toNat ∧ (busy .recv .rxRaw 3 4).rxq = [] ∧
    (busy .recv .rxRaw 3 4).rxTimeout ≠ 0 ∧ (busy .dec .rxHdr 7 8).eng = ⟨.dec, .rxHdr, 7, 8⟩ ∧
    (busy .dec .rxPay 8 9).eng = ⟨.dec, .rxPay, 8, 9⟩ ∧ ({ busy .dec .rxPay 8 9 with rxTimeout := 0 } : State).rxTimeout = 0 ∧
    ({ busy .dec .rxPay 8 9 with rxq := [1] } : State).rxq ≠ [] := by decide

theorem test_witness_ReceiveWithTimeoutFinishes :
    Inv (busy .recv .rxRaw 0 0) ∧ Inv (busy .dec .rxHdr 7 8) ∧ (busy .dec .rxHdr 7 8).rstActive = false ∧ (busy .dec .rxHdr 7 8).rxTimeout ≠ 0 ∧
    (busy .dec .rxHdr 7 8).eng.op = .dec := ⟨test_inv_recv_nothing, test_inv_dec, by decide, by decide, by decide⟩

/-- A fair run in which a waiting DEC times out. -/
theorem test_witness_fair_receive :
    IsFairRun (thenStays (busy .dec .rxHdr 7 8) (busy .dec .rxHdr 7 8).timerStep) (firstThen .timer .engine) ∧
    Inv (busy .dec .rxHdr 7 8) ∧
    ∀ m, 0 ≤ m → (thenStays (busy .dec .rxHdr 7 8) (busy .dec .rxHdr 7 8).timerStep m).rxTimeout ≠ 0 := by
  refine ⟨isFairRun_thenStays rfl rfl (by decide) (by decide), test_inv_dec, fun m _ => ?_⟩
  cases m
  · decide
  · simp only [thenStays]
    decide

theorem test_witness_StalledCommandsWait :
    (busy .send .tx 1031 1032).eng.idx.toNat < (busy .send .tx 1031 1032).eng.endIdx.toNat ∧ (busy .send .tx 1031 1032).eng.phase = .tx ∧
    ({ busy .recv .rxRaw 3 4 with rxTimeout := 0 } : State).rxq = [] ∧ ({ busy .dec .rxHdr 7 8 with rxTimeout := 0 } : State).rxTimeout = 0 := by
  decide

/-- A SEND and a RECV that wait for ever, and a fair run in which LinkTx accepts again and again. -/
theorem test_witness_stalled_runs :
    IsRun (fun _ => busy .send .tx 1031 1032) (fun _ => .engine) ∧
    IsRun (fun _ => { busy .recv .rxRaw 3 4 with rxTimeout := 0 }) (fun _ => .engine) ∧ ¬ endsFromOutside .engine ∧
    IsFairRun (thenStays (busy .send .tx 1031 1032) (busy .send .tx 1031 1032).linkTxStep) (firstThen .linkTx .linkTx) ∧
    Inv (busy .send .tx 1031 1032) ∧ ∀ k, ∃ m, k ≤ m ∧ firstThen .linkTx .linkTx m = .linkTx :=
  ⟨isRun_constant rfl, isRun_constant rfl, not_endsFromOutside_engine,
    isFairRun_thenStays rfl rfl (by decide) (by decide), test_inv_send, fun k => ⟨k + 1, by omega, rfl⟩⟩

/-- C2, C6 and C8 of 95_test_vectors.md: a frame wholly queued, with the next frame behind it, and wholly arriving; and one cut inside its
payload; and the longest. -/
theorem test_witness_DecReceivesTheFrame :
    idle.rstActive = false ∧ idle.eng.phase = .idle ∧ (List.replicate 1024 (0 : Byte)).length ≤ 1024 ∧
    headerBytes 1 4 3 2 ++ [1, 2] = [1, 0, 0, 0, 4, 3, 2, 0, 1, 2] ++ [] ∧
    headerBytes 0 4 0 0 ++ [] = [0, 0, 0, 0, 4, 0, 0, 0] ++ [] ∧
    ({ idle with rxq := [0, 0, 0, 0, 4, 0, 0, 0] ++ [0, 0, 0, 0, 1, 0, 0, 0] } : State).rxq =
      [0, 0, 0, 0, 4, 0, 0, 0] ++ [0, 0, 0, 0, 1, 0, 0, 0] ∧
    headerBytes 0 1 0 0 ++ [] = [] ++ [0, 0, 0, 0, 1, 0, 0, 0] ∧ idle.rxq = [] ++ [] ∧
    headerBytes 1 4 3 2 ++ [1, 2] = [1, 0, 0, 0, 4, 3, 2, 0, 1] ++ [2] :=
  ⟨rfl, rfl, by rw [List.length_replicate], by decide, by decide, by decide, by decide, by decide, by decide⟩

/-- C6: the 8th byte ends the command and the next frame stays queued. -/
theorem test_dec_C6 :
    ({ holding (busy .dec .rxHdr 7 8) 0x2000 [0, 0, 0, 0, 4, 0, 0] with rxq := [0, 0, 0, 0, 0, 1, 0, 0, 0] } : State).engineStep.rxq =
      [0, 0, 0, 0, 1, 0, 0, 0] ∧
    ({ holding (busy .dec .rxHdr 7 8) 0x2000 [0, 0, 0, 0, 4, 0, 0] with rxq := [0, 0, 0, 0, 0, 1, 0, 0, 0] } : State).engineStep.result =
      0x00060100 := by decide

theorem test_witness_DecStopsAfterAnOverlongHeader :
    ({ idle with rxq := header 2 1025 ++ [9, 9] } : State).rxq = headerBytes 0 2 6 1025 ++ [9, 9] ∧ (1025 : Half).toNat > 1024 := by decide

theorem test_witness_ReceiveStepFrame :
    (busy .recv .rxRaw 0 0).eng.phase = .rxRaw ∧ (busy .dec .rxHdr 7 8).eng.phase = .rxHdr ∧ (busy .dec .rxPay 8 9).eng.phase = .rxPay := by decide

/-- The actions while idle and while busy; also the phases that `AbortEndsTheCommand`, `RxflushEmptiesTheFifo`, `RegisterWritesStore` and
`BufferWriteReadsBack` take. -/
theorem test_witness_RxflushEmptiesTheFifo : idle.eng.phase = .idle ∧ (busy .enc .build 0 0).eng.phase ≠ .idle := by decide

/-- The first and last offsets of both buffers, each at the widest access aligned there. -/
theorem test_witness_ReadsHaveNoSideEffect :
    idle.rstActive = false ∧ 0x1000 ≤ (0x1000 : Offset).toNat ∧ (0x1404 : Offset).toNat < 0x1408 ∧ (0x1404 : Offset).toNat % sizeBytes .word = 0 ∧
    (0x2407 : Offset).toNat < 0x2408 ∧ (0x2407 : Offset).toNat % sizeBytes .byte = 0 ∧ (0x2406 : Offset).toNat % sizeBytes .half = 0 := by
  decide

/-- R34: reads of RX_ID and RX_HDR and of the last two bytes of RXBUF, each value told apart from its neighbours. -/
theorem test_host_reads :
    (({ idle with rxLength := 3, rxCsumHdr := 6, rxStatus := 2, rxId := 9 } : State).hostRead 0x2C .word).busResp =
      some (.data 0x00030602) ∧
    (({ idle with rxLength := 3, rxCsumHdr := 6, rxStatus := 2, rxId := 9 } : State).hostRead 0x28 .word).busResp = some (.data 9) ∧
    ((holding idle 0x2406 [7, 8]).hostRead 0x2406 .half).busResp = some (.data 0x0807) := by
  decide

/-- Each clause at its first and last offset. -/
theorem test_witness_ForbiddenAccessIsABusError :
    (0x034 : Offset).toNat < 0x038 ∧ (0x035 : Offset).toNat % 4 ≠ 0 ∧ 0x038 ≤ (0x038 : Offset).toNat ∧ (0xFFF : Offset).toNat < 0x1000 ∧
    0x1408 ≤ (0x1408 : Offset).toNat ∧ (0x1FFF : Offset).toNat < 0x2000 ∧ 0x2408 ≤ (0x2408 : Offset).toNat ∧ 0x2408 ≤ (0x3FFF : Offset).toNat ∧
    0x1000 ≤ (0x1001 : Offset).toNat ∧ (0x1001 : Offset).toNat % 2 ≠ 0 ∧ (0x2406 : Offset).toNat % 4 ≠ 0 := by decide

/-- The first and the last offsets of both buffers. -/
theorem test_witness_BufferWriteReadsBack :
    accessBuf 0x1000 .word = true ∧ accessBuf 0x1404 .word = true ∧ accessBuf 0x2000 .half = true ∧ accessBuf 0x2407 .byte = true ∧
    isBufAddr 0x1407 = true ∧ isBufAddr 0x1408 = false := by decide

theorem test_witness_HostWriteWhileBusyIsIgnored :
    (busy .recv .rxRaw 0 4).rstActive = false ∧ (busy .recv .rxRaw 0 4).eng.phase ≠ .idle ∧
    (0xFFFFFFFC : Word).getLsbD 2 = true ∧ (0xFFFFFFFC : Word).getLsbD 1 = false ∧ (0xFFFFFFFC : Word).getLsbD 0 = false ∧
    isBufAddr (0x1407 : Offset).toNat = true ∧ (0x1407 : Offset).toNat % sizeBytes .byte = 0 := by decide

theorem test_witness_StatusShowsTheEngineAndTheFifo :
    Config.depthLegal 64 ∧ Config.depthLegal 1 ∧ Config.depthLegal 65535 ∧ ¬ Config.depthLegal 0 ∧
    Inv { busy .recv .rxRaw 1031 1032 with rxq := List.replicate 64 0 } ∧ Inv State.reset 1 :=
  ⟨by decide, by decide, by decide, by decide, test_inv_queued test_inv_recv _ (by decide) rfl,
    ⟨rfl, by decide, by decide, by decide, by decide⟩⟩

/-- A bit that stays through a write of the others, and each way it is cleared. -/
theorem test_witness_IrqStatusBitsAreSticky :
    ({ idle with irqStatus := 15 } : State).irqStatus.getLsbD 3 = true ∧
    (∃ t, runEvent (.host (.write 0x14 .word 7)) { idle with irqStatus := 15 } = .next t ∧ t.irqStatus.getLsbD 3 = true) ∧
    (∃ t, runEvent (.host (.write 0x14 .word 8)) { idle with irqStatus := 15 } = .next t ∧ t.irqStatus.getLsbD 3 = false) ∧
    (∃ t, runEvent (issue .ctrl 2) { idle with irqStatus := 15 } = .next t ∧ t.irqStatus.getLsbD 3 = false) ∧
    (∃ t, runEvent (.rst true) { idle with irqStatus := 15 } = .next t ∧ t.irqStatus.getLsbD 3 = false) :=
  ⟨by decide, ⟨_, rfl, by decide⟩, ⟨_, rfl, by decide⟩, ⟨_, rfl, by decide⟩, ⟨_, rfl, by decide⟩⟩

/-- The last byte of a SEND ends it. -/
theorem test_witness_CommandsEndAsTheTableSays :
    Inv (busy .send .tx 1031 1032) ∧ (busy .send .tx 1031 1032).eng.phase ≠ .idle ∧
    (∃ t, runEvent .linkTx (busy .send .tx 1031 1032) = .next t ∧ t.eng.phase = .idle) ∧ (∀ v : Word, Event.linkTx ≠ issue .ctrl v) := by
  refine ⟨test_inv_send, by decide, ⟨_, rfl, by decide⟩, ?_⟩
  intro v h
  cases h

theorem test_witness_ResultIsKeptWhileBusy : ∃ t, runEvent .engine (operands (busy .enc .build 0 0) 2 3) = .next t ∧ t.eng.phase ≠ .idle :=
  ⟨_, rfl, by decide⟩

/-- A refused host write, and the Build step, while a command runs; SEND, and DECB with an image in RXBUF. -/
theorem test_witness_OperandsHoldWhileBusy :
    (busy .enc .build 0 0).eng.phase ≠ .idle ∧ (∃ t, runEvent (.host (.write 0x1008 .byte 9)) (busy .enc .build 0 0) = .next t) ∧
    (∃ t, runEvent .engine (operands (busy .enc .build 0 0) 2 3) = .next t) ∧
    (busy .send .tx 1031 1032).eng.op = .send ∧ (∃ t, runEvent (.host (.write 0x1000 .word 9)) (busy .send .tx 1031 1032) = .next t) ∧
    Inv (busy .decb .parse 0 8) ∧ (∃ t, runEvent (.host (.write 0x2007 .byte 9)) (busy .decb .parse 0 8) = .next t) ∧
    (∀ v : Word, Event.engine ≠ issue .ctrl v) := by
  refine ⟨by decide, ⟨_, rfl⟩, ⟨_, rfl⟩, rfl, ⟨_, rfl⟩, ⟨⟨rfl, rfl, by decide, rfl⟩, by decide, by decide, by decide, by decide⟩, ⟨_, rfl⟩, ?_⟩
  intro v h
  cases h

/-- One event for each clause of the three statements about TX_ID, the FIFO and txOut. -/
theorem test_witness_TxIdChangesOnlyByHostWrite :
    (∃ t, runEvent (.host (.write 0x20 .word 9)) idle = .next t ∧ t.txId = 9) ∧
    (∃ t, runEvent (issue .ctrl 2) { idle with txId := 9 } = .next t ∧ t.txId = 0) ∧
    (∃ t, runEvent (.rst true) { idle with txId := 9 } = .next t ∧ t.txId = 0) :=
  ⟨⟨_, rfl, by decide⟩, ⟨_, rfl, by decide⟩, ⟨_, rfl, by decide⟩⟩

theorem test_witness_FifoChangesOnlyAsStated :
    (∃ t, runEvent (.linkRx 5) idle = .next t ∧ t.rxq = [5]) ∧
    (∃ t, runEvent .engine { busy .recv .rxRaw 0 4 with rxq := [5, 6] } = .next t ∧ t.rxq = [6]) ∧
    (∃ t, runEvent (issue .ctrl 4) { idle with rxq := [5] } = .next t ∧ t.rxq = []) ∧
    (∃ t, runEvent (.rst true) { idle with rxq := [5] } = .next t ∧ t.rxq = []) :=
  ⟨⟨_, rfl, by decide⟩, ⟨_, rfl, by decide⟩, ⟨_, rfl, by decide⟩, ⟨_, rfl, by decide⟩⟩

theorem test_witness_TxOutOnlyGrowsByTheOfferedByte :
    (∃ t, runEvent .linkTx (holding (busy .send .tx 0 4) 0x1000 [7]) = .next t ∧ t.txOut = [7]) ∧
    (∃ t, runEvent (.rst true) { idle with txOut := [7] } = .next t ∧ t.txOut = []) :=
  ⟨⟨_, rfl, by decide⟩, ⟨_, rfl, by decide⟩⟩

end Sys2Proof.Tests
end

section
/-! SUPPORT. What each operation leaves of TX_ID (10_state.md R43), and the settled statement about it. -/

namespace Sys2Proof.Machine

/-! ### TX_ID after each operation -/

@[simp] theorem busyError_txId (s : State) : s.busyError.txId = s.txId := rfl

@[simp] theorem abort_txId (s : State) : s.abort.txId = s.txId := by
  unfold State.abort
  split <;> simp

@[simp] theorem rxFlush_txId (s : State) : s.rxFlush.txId = s.txId := by
  unfold State.rxFlush
  split <;> simp

@[simp] theorem writeBuf_txId (s : State) (a : Offset) (size : Size) (v : Word) : (s.writeBuf a size v).txId = s.txId := by
  unfold State.writeBuf
  split <;> simp

/-- Of the register writes only the one of TX_ID stores in it, and only while idle (R43). -/
theorem writeReg_txId (s : State) (r : Reg) (v : Word) :
    (s.writeReg r v).txId = if r = .txId ∧ s.busy = false then v else s.txId := by
  cases r <;> cases h : s.busy <;> simp [State.writeReg, h]

@[simp] theorem txEmit_txId (s : State) : s.txEmit.txId = s.txId := by
  unfold State.txEmit
  split <;> simp

@[simp] theorem offerByte_txId (s : State) (b : Byte) (depth : Nat) : (s.offerByte b depth).txId = s.txId := by
  unfold State.offerByte
  split <;> simp

@[simp] theorem timeout_txId (s : State) : s.timeout.txId = s.txId := by simp [State.timeout]

@[simp] theorem encbBuild_txId (s : State) : s.encbBuild.txId = s.txId := by
  unfold State.encbBuild
  split <;> simp [State.encbBuilt]

@[simp] theorem encBuild_txId (s : State) : s.encBuild.txId = s.txId := by
  unfold State.encBuild
  split <;> simp [State.encBuilt]

@[simp] theorem decodeDone_txId (s : State) : s.decodeDone.txId = s.txId := by simp [State.decodeDone]

@[simp] theorem decbPayload_txId (s : State) : s.decbPayload.txId = s.txId := by
  unfold State.decbPayload
  split
  · simp
  · split <;> simp

@[simp] theorem decbParse_txId (s : State) : s.decbParse.txId = s.txId := by
  unfold State.decbParse
  split <;> simp

@[simp] theorem headerDone_txId (s : State) : s.headerDone.txId = s.txId := by
  unfold State.headerDone State.headerChecked
  split
  · simp
  · split <;> simp [State.payloadDone]

@[simp] theorem phaseDone_txId (s : State) : s.phaseDone.txId = s.txId := by
  unfold State.phaseDone
  split <;> simp [State.recvDone, State.payloadDone]

@[simp] theorem rxByte_txId (s : State) (b : Byte) (rest : List Byte) : (s.rxByte b rest).txId = s.txId := by
  unfold State.rxByte
  split <;> simp

/-! ### TX_ID after each case of a write of CMD, a write of CTRL and an Engine step -/

/-- A word written to CMD leaves TX_ID alone. -/
theorem CmdCase.txId_eq {s t : State} (c : CmdCase s t) : t.txId = s.txId := by
  cases c with
  | ignored => simp
  | started => simp
  | rejected => simp

/-- Of the words written to CTRL only an SRST changes TX_ID, to 0. -/
theorem CtrlCase.txId_eq {s t : State} {v : Word} (c : CtrlCase s v t) :
    t.txId = s.txId ∨ v.getLsbD 1 = true ∧ t.txId = 0 := by
  cases c with
  | srst h1 => exact .inr ⟨h1, softReset_txId s⟩
  | abort => exact .inl (abort_txId s)
  | abortFlush => exact .inl (by simp)
  | flush => exact .inl (rxFlush_txId s)
  | nothing => exact .inl rfl

/-- The Engine reads TX_ID and never writes it (40_frame_codec.md R168). -/
theorem EngineCase.txId_eq {s t : State} (c : EngineCase s t) : t.txId = s.txId := by
  cases c with
  | waits => rfl
  | encbBuild => exact encbBuild_txId s
  | encBuild => exact encBuild_txId s
  | decbParse => exact decbParse_txId s
  | finishEmpty => simp [State.finishEmpty]
  | rxByte b rest => exact rxByte_txId s b rest

/-! ### The offset of TX_ID -/

/-- The registers stand below offset 0x38 (10_state.md R34). -/
theorem lt_of_regAt {n : Nat} {r : Reg} (h : regAt n = some r) : n < 0x38 := by
  by_contra hn
  rw [regAt_none (by omega)] at h
  cases h

theorem regAt_txId {a : Offset} (h : regAt a.toNat = some .txId) : a = 0x20 := by
  have only : ∀ n < 0x38, regAt n = some .txId → n = 0x20 := by decide
  exact BitVec.eq_of_toNat_eq (only a.toNat (lt_of_regAt h) h)

/-- A register write that stores: TX_ID is kept, or the write is of offset 0x20 while idle and stores its word. -/
theorem writeReg_txId_of_regAt (s : State) {a : Offset} {r : Reg} (v : Word) (h : regAt a.toNat = some r) :
    (s.writeReg r v).txId = s.txId ∨ a = 0x20 ∧ s.eng.phase = .idle ∧ (s.writeReg r v).txId = v := by
  rw [writeReg_txId]
  split
  · rename_i stores
    obtain ⟨rfl, idle⟩ := stores
    exact .inr ⟨regAt_txId h, by simpa [State.busy] using idle, rfl⟩
  · exact .inl rfl

/-- Settles O58: of the cases of one event only a write of TX_ID, an SRST and the hardware reset touch TX_ID. -/
theorem txIdChangesOnlyByHostWrite : Obligations.TxIdChangesOnlyByHostWrite := by
  unfold Obligations.TxIdChangesOnlyByHostWrite
  intro s t e h
  cases eventCase_of h with
  | nothing => exact .inl rfl
  | pin => exact .inl rfl
  | hardReset => exact .inr (.inr (.inr ⟨rfl, hardReset_txId s⟩))
  | response _ r => exact .inl (respond_txId s r)
  | cmdWord _ _ _ c => exact .inl c.txId_eq
  | ctrlWord v _ _ c =>
    obtain kept | ⟨srst, zero⟩ := c.txId_eq
    · exact .inl kept
    · exact .inr (.inr (.inl ⟨v, rfl, srst, zero⟩))
  | regWrite a r v _ at_ =>
    obtain kept | ⟨rfl, idle, stored⟩ := writeReg_txId_of_regAt s v at_
    · exact .inl kept
    · exact .inr (.inl ⟨v, rfl, idle, stored⟩)
  | bufWrite a size v => exact .inl (writeBuf_txId s a size v)
  | engine _ _ c => exact .inl c.txId_eq
  | txEmit => exact .inl (txEmit_txId s)
  | offer b => exact .inl (offerByte_txId s b _)
  | timeout => exact .inl (timeout_txId s)

end Sys2Proof.Machine
end

section
/-! SUPPORT. What an event keeps of IRQ_STATUS, RESULT, the FIFO, txOut and the pin, said once for every operation of the block, and the
settled statements that follow from it by cases. -/

namespace Sys2Proof.Machine

/-! ### The fields an ordinary operation keeps -/

/-- The step from `s` to `t` is an ordinary one: the pin, txOut and the FIFO are as they were, no IRQ_STATUS bit is cleared, and RESULT
changes only where the Engine ends at rest (10_state.md R38, R40, R54, R55). -/
structure Keeps (s t : State) : Prop where
  rstActive : t.rstActive = s.rstActive
  txOut : t.txOut = s.txOut
  rxq : t.rxq = s.rxq
  irqStatus : ∃ q, t.irqStatus = s.irqStatus ||| q
  result : t.eng = Eng.idle ∨ t.result = s.result

theorem Keeps.of_same {s t : State} (rst : t.rstActive = s.rstActive) (out : t.txOut = s.txOut) (fifo : t.rxq = s.rxq)
    (irq : t.irqStatus = s.irqStatus) (result : t.result = s.result) : Keeps s t :=
  ⟨rst, out, fifo, ⟨0, by simp [irq]⟩, .inr result⟩

theorem Keeps.refl (s : State) : Keeps s s := .of_same rfl rfl rfl rfl rfl

/-- A set bit of IRQ_STATUS is still set. -/
theorem Keeps.sticky {s t : State} (k : Keeps s t) {i : Nat} (h : s.irqStatus.getLsbD i = true) :
    t.irqStatus.getLsbD i = true := by
  obtain ⟨q, hq⟩ := k.irqStatus
  simp [hq, h]

/-- Where the Engine is still busy, RESULT is the previous record. -/
theorem Keeps.result_of_busy {s t : State} (k : Keeps s t) (busy : t.eng.phase ≠ .idle) : t.result = s.result :=
  k.result.resolve_left fun rest => busy (by rw [rest])

/-- Setting IRQ_STATUS bits on the way clears none. -/
theorem Keeps.setIrq {s t : State} (k : Keeps s t) (bits : BitVec 4) : Keeps s (t.setIrq bits) := by
  obtain ⟨rst, out, fifo, ⟨q, hq⟩, result⟩ := k
  exact ⟨rst, out, fifo, ⟨q ||| bits, by simp [hq, BitVec.or_assoc]⟩, result⟩

/-- A completion writes RESULT, and the Engine is at rest after it (60_exceptions.md R305). -/
theorem Keeps.finishAs {s t : State} (k : Keeps s t) (op : BitVec 4) (c : ErrCode) (m u : Bool) :
    Keeps s (t.finishAs op c m u) := by
  obtain ⟨rst, out, fifo, irq, -⟩ := k.setIrq (completionIrq c)
  exact ⟨rst, out, fifo, irq, .inl rfl⟩

theorem Keeps.respond {s t : State} (k : Keeps s t) (r : BusResponse) : Keeps s (t.respond r) :=
  ⟨k.rstActive, k.txOut, k.rxq, k.irqStatus, k.result⟩

theorem busyError_keeps (s : State) : Keeps s s.busyError := (Keeps.refl s).setIrq irqBsyErr

/-! ### Host writes -/

theorem CmdCase.keeps {s t : State} (c : CmdCase s t) : Keeps s t := by
  cases c with
  | ignored => exact busyError_keeps s
  | started => exact .of_same rfl rfl rfl rfl rfl
  | rejected _ w op c =>
    have accepted : Keeps s { s with cmdLast := w, xferCount := 0 } := .of_same rfl rfl rfl rfl rfl
    exact accepted.finishAs op c false false

theorem abort_keeps (s : State) : Keeps s s.abort := by
  unfold State.abort
  split
  · exact (Keeps.refl s).finishAs _ _ _ _
  · exact .refl s

/-- RXFLUSH is ignored with BSYERR, or empties the FIFO of an idle block (43_control.md R286). -/
theorem rxFlush_case (s : State) :
    s.busy = true ∧ s.rxFlush = s.busyError ∨ s.busy = false ∧ s.rxFlush = { s with rxq := [] } := by
  cases busy : s.busy
  · exact .inr ⟨rfl, by simp [State.rxFlush, busy]⟩
  · exact .inl ⟨rfl, by simp [State.rxFlush, busy]⟩

/-- After an ordinary operation an RXFLUSH is ordinary too, but for the FIFO it may empty. -/
theorem Keeps.rxFlush {s t : State} (k : Keeps s t) : Keeps s t.rxFlush ∨ ∃ u, Keeps s u ∧ t.rxFlush = { u with rxq := [] } := by
  obtain ⟨-, ignored⟩ | ⟨-, emptied⟩ := rxFlush_case t
  · rw [ignored]
    exact .inl (k.setIrq irqBsyErr)
  · exact .inr ⟨t, k, emptied⟩

/-- A word written to CTRL resets the block, or is ordinary, or is ordinary but for the FIFO it empties (43_control.md R289). -/
theorem CtrlCase.effect {s t : State} {v : Word} (c : CtrlCase s v t) :
    v.getLsbD 1 = true ∧ t = s.softReset ∨ Keeps s t ∨ v.getLsbD 2 = true ∧ ∃ u, Keeps s u ∧ t = { u with rxq := [] } := by
  cases c with
  | srst h1 => exact .inl ⟨h1, rfl⟩
  | abort => exact .inr (.inl (abort_keeps s))
  | abortFlush _ _ h2 => exact .inr ((abort_keeps s).rxFlush.imp_right fun emptied => ⟨h2, emptied⟩)
  | flush _ _ h2 => exact .inr ((Keeps.refl s).rxFlush.imp_right fun emptied => ⟨h2, emptied⟩)
  | nothing => exact .inr (.inl (.refl s))

/-- Of the registers that store, only IRQ_STATUS can lose a bit by a write. -/
theorem writeReg_keeps (s : State) {r : Reg} (v : Word) (h : r ≠ .irqStatus) : Keeps s (s.writeReg r v) := by
  cases r with
  | irqStatus => exact absurd rfl h
  | irqEnable | rxTimeout => exact .of_same rfl rfl rfl rfl rfl
  | txId | txHdr =>
    dsimp only [State.writeReg]
    split
    · exact busyError_keeps s
    · exact .of_same rfl rfl rfl rfl rfl
  | ctrl | cmd | status | result | xferCount | rxId | rxHdr | rxCsum | caps => exact .refl s

theorem writeBuf_keeps (s : State) (a : Offset) (size : Size) (v : Word) : Keeps s (s.writeBuf a size v) := by
  unfold State.writeBuf
  split
  · exact busyError_keeps s
  · exact .of_same (by simp) (by simp) (by simp) (by simp) (by simp)

/-! ### The Engine, LinkTx and the Timer -/

theorem buildHeader_keeps (s : State) : Keeps s s.buildHeader := .of_same (by simp) (by simp) (by simp) (by simp) (by simp)

theorem encbBuild_keeps (s : State) : Keeps s s.encbBuild := by
  unfold State.encbBuild
  split
  · have built : Keeps s { s.buildHeader with xferCount := 8 + s.txLength } := { buildHeader_keeps s with }
    exact built.finishAs _ _ _ _
  · exact (Keeps.refl s).finishAs _ _ _ _

theorem encBuild_keeps (s : State) : Keeps s s.encBuild := by
  unfold State.encBuild
  split
  · exact { buildHeader_keeps s with result := .inr (buildHeader_result s) }
  · exact (Keeps.refl s).finishAs _ _ _ _

theorem decodeDone_keeps (s : State) : Keeps s s.decodeDone := by
  have summed : Keeps s { s with rxCsumCalc := csum s.rxPayload } := .of_same rfl rfl rfl rfl rfl
  exact summed.finishAs _ _ _ _

theorem decbPayload_keeps (s : State) : Keeps s s.decbPayload := by
  unfold State.decbPayload
  split
  · exact (Keeps.refl s).finishAs _ _ _ _
  · split
    · exact (Keeps.refl s).finishAs _ _ _ _
    · exact { decodeDone_keeps { s with xferCount := 8 + s.rxLength } with }

theorem decbParse_keeps (s : State) : Keeps s s.decbParse := by
  unfold State.decbParse
  split
  · exact (Keeps.refl s).finishAs _ _ _ _
  · exact { decbPayload_keeps { s.latchHeader with xferCount := 8 } with }

theorem headerChecked_keeps (s : State) : Keeps s s.headerChecked := by
  unfold State.headerChecked
  split
  · exact (Keeps.refl s).finishAs _ _ _ _
  · split
    · exact decodeDone_keeps s
    · exact .of_same rfl rfl rfl rfl rfl

theorem phaseDone_keeps (s : State) : Keeps s s.phaseDone := by
  unfold State.phaseDone
  split
  · exact (Keeps.refl s).finishAs _ _ _ _
  · exact { headerChecked_keeps s.latchHeader with }
  · exact decodeDone_keeps s
  all_goals exact .refl s

/-- RxByte is ordinary from the state in which its byte has moved. -/
theorem rxByte_keeps (s : State) (b : Byte) (rest : List Byte) : Keeps (s.rxMoved b rest) (s.rxByte b rest) := by
  unfold State.rxByte
  split
  · exact phaseDone_keeps _
  · exact .refl _

/-- TxEmit is ordinary from the state in which its byte has moved. -/
theorem txEmit_keeps (s : State) : Keeps s.txMoved s.txEmit := by
  unfold State.txEmit
  split
  · exact (Keeps.refl _).finishAs _ _ _ _
  · exact .refl _

/-- The Engine's step is ordinary, or takes the FIFO's head. -/
theorem EngineCase.effect {s t : State} (c : EngineCase s t) :
    Keeps s t ∨ ∃ b rest, s.rxq = b :: rest ∧ Keeps (s.rxMoved b rest) t := by
  cases c with
  | waits => exact .inl (.refl s)
  | encbBuild => exact .inl (encbBuild_keeps s)
  | encBuild => exact .inl (encBuild_keeps s)
  | decbParse => exact .inl (decbParse_keeps s)
  | finishEmpty => exact .inl ((Keeps.refl s).finishAs _ _ _ _)
  | rxByte b rest _ _ queued => exact .inr ⟨b, rest, queued, rxByte_keeps s b rest⟩

/-! ### Every event -/

theorem regAt_irqStatus {a : Offset} (h : regAt a.toNat = some .irqStatus) : a = 0x14 := by
  have only : ∀ n < 0x38, regAt n = some .irqStatus → n = 0x14 := by decide
  exact BitVec.eq_of_toNat_eq (only a.toNat (lt_of_regAt h) h)

/-- What one event does to the fields of `Keeps`: it is ordinary, or one of the events that R40, R54, R55 and R350 name. -/
inductive EventEffect (depth : Nat) (s : State) : Event → State → Prop
  | ordinary {e : Event} {t : State} (k : Keeps s t) : EventEffect depth s e t
  | pin (l : Bool) (held : s.rstActive = true) : EventEffect depth s (.rst l) { s with rstActive := l }
  | hardReset : EventEffect depth s (.rst true) { s.hardReset with rstActive := true }
  | srst (v : Word) (h1 : v.getLsbD 1 = true) : EventEffect depth s (issue .ctrl v) (s.softReset.respond .ok)
  | flush (v : Word) (h2 : v.getLsbD 2 = true) {u : State} (k : Keeps s u) : EventEffect depth s (issue .ctrl v) { u with rxq := [] }
  | ack (v : Word) : EventEffect depth s (.host (.write 0x14 .word v)) ((s.ackIrq (v.extractLsb' 0 4)).respond .ok)
  | sent (valid : s.txValid = true) {t : State} (k : Keeps s.txMoved t) : EventEffect depth s .linkTx t
  | taken (b : Byte) (rest : List Byte) (queued : s.rxq = b :: rest) {t : State} (k : Keeps (s.rxMoved b rest) t) :
      EventEffect depth s .engine t
  | queued (b : Byte) (room : s.rxq.length < depth) : EventEffect depth s (.linkRx b) { s with rxq := s.rxq ++ [b] }

theorem EventCase.effect {depth : Nat} {s t : State} {e : Event} (c : EventCase depth s e t) : EventEffect depth s e t := by
  cases c with
  | nothing => exact .ordinary (.refl s)
  | pin l held => exact .pin l held
  | hardReset => exact .hardReset
  | response _ r => exact .ordinary ((Keeps.refl s).respond r)
  | cmdWord _ _ _ c => exact .ordinary (c.keeps.respond .ok)
  | ctrlWord v _ _ c =>
    obtain ⟨h1, rfl⟩ | kept | ⟨h2, u, k, rfl⟩ := c.effect
    · exact .srst v h1
    · exact .ordinary (kept.respond .ok)
    · exact .flush v h2 (k.respond .ok)
  | regWrite a r v _ at_ =>
    by_cases hr : r = .irqStatus
    · subst hr
      rw [regAt_irqStatus at_]
      exact .ack v
    · exact .ordinary ((writeReg_keeps s v hr).respond .ok)
  | bufWrite a size v => exact .ordinary ((writeBuf_keeps s a size v).respond .ok)
  | engine _ _ c =>
    obtain kept | ⟨b, rest, queued, k⟩ := c.effect
    · exact .ordinary kept
    · exact .taken b rest queued k
  | txEmit _ valid => exact .sent valid (txEmit_keeps s)
  | offer b =>
    unfold State.offerByte
    split
    · exact .queued b ‹_›
    · exact .ordinary ((Keeps.refl s).setIrq irqOvr)
  | timeout => exact .ordinary ((Keeps.refl s).finishAs _ _ _ _)

/-! ### The settled statements -/

/-- Settles O54: IRQ_STATUS loses bits only in the W1C write, in SRST and in the hardware reset. -/
theorem irqStatusBitsAreSticky : Obligations.IrqStatusBitsAreSticky := by
  unfold Obligations.IrqStatusBitsAreSticky
  intro s t e i h set_
  cases (eventCase_of h).effect with
  | ordinary k => exact .inl (k.sticky set_)
  | pin => exact .inl set_
  | hardReset => exact .inr (.inr (.inr rfl))
  | srst v h1 => exact .inr (.inr (.inl ⟨v, rfl, h1⟩))
  | flush _ _ k => exact .inl (k.sticky set_)
  | ack v =>
    have i_lt : i < 4 := BitVec.lt_of_getLsbD set_
    cases hv : v.getLsbD i with
    | true => exact .inr (.inl ⟨v, rfl, hv⟩)
    | false => exact .inl (by simp [set_, hv, i_lt])
  | sent _ k => exact .inl (k.sticky set_)
  | taken _ _ _ k => exact .inl (k.sticky set_)
  | queued => exact .inl set_

/-- Settles O56: RESULT is written by completions and resets only, and each leaves the Engine at rest. -/
theorem resultIsKeptWhileBusy : Obligations.ResultIsKeptWhileBusy := by
  unfold Obligations.ResultIsKeptWhileBusy
  intro s t e h busy
  cases (eventCase_of h).effect with
  | ordinary k => exact k.result_of_busy busy
  | pin => rfl
  | hardReset => exact absurd rfl busy
  | srst => exact absurd rfl busy
  | flush _ _ k => exact k.result_of_busy busy
  | ack => rfl
  | sent _ k => exact k.result_of_busy busy
  | taken _ _ _ k => exact k.result_of_busy busy
  | queued => rfl

/-- Settles O59: an ordinary event keeps the FIFO, and the others are the operations of R54. -/
theorem fifoChangesOnlyAsStated : Obligations.FifoChangesOnlyAsStated := by
  unfold Obligations.FifoChangesOnlyAsStated
  intro s t e h
  cases (eventCase_of h).effect with
  | ordinary k => exact .inl k.rxq
  | pin => exact .inl rfl
  | hardReset => exact .inr (.inr (.inr (.inr ⟨rfl, rfl⟩)))
  | srst v h1 => exact .inr (.inr (.inr (.inl ⟨v, rfl, .inl h1, rfl⟩)))
  | flush v h2 => exact .inr (.inr (.inr (.inl ⟨v, rfl, .inr h2, rfl⟩)))
  | ack => exact .inl rfl
  | sent _ k => exact .inl k.rxq
  | taken b rest queued k => exact .inr (.inr (.inl ⟨b, rfl, by rw [queued, k.rxq, rxMoved_rxq]⟩))
  | queued b => exact .inr (.inl ⟨b, rfl, rfl⟩)

/-- Settles O60: only TxEmit appends to txOut, and only the hardware reset empties it. -/
theorem txOutOnlyGrowsByTheOfferedByte : Obligations.TxOutOnlyGrowsByTheOfferedByte := by
  unfold Obligations.TxOutOnlyGrowsByTheOfferedByte
  intro s t e h
  cases (eventCase_of h).effect with
  | ordinary k => exact .inl k.txOut
  | pin => exact .inl rfl
  | hardReset => exact .inr (.inr ⟨rfl, rfl⟩)
  | srst => exact .inl rfl
  | flush _ _ k => exact .inl k.txOut
  | ack => exact .inl rfl
  | sent valid k => exact .inr (.inl ⟨rfl, valid, k.txOut⟩)
  | taken _ _ _ k => exact .inl k.txOut
  | queued => exact .inl rfl

end Sys2Proof.Machine
end

section
/-! SUPPORT. The invariant of reachable states: every operation keeps it, hence every event and every step does. -/

namespace Sys2Proof.Machine

/-! ### The part of the invariant that does not speak of the FIFO and the pin -/

/-- The clauses of `Inv` that each operation of a running block keeps by itself. -/
structure Sound (s : State) : Prop where
  engine : engineConsistent s
  result : resultConsistent s.result
  mem : s.mem.wf

theorem Inv.sound {s : State} {depth : Nat} (i : Inv s depth) : Sound s := ⟨i.engine, i.result, i.mem⟩

theorem engineConsistent_of_atRest {s : State} (rest : s.eng = Eng.idle) : engineConsistent s := by
  simp [engineConsistent, rest]

/-- Consistency reads the Engine, XFER_COUNT, and of the headers LENGTH and STATUS. -/
theorem engineConsistent_congr {s t : State} (eng : t.eng = s.eng) (xfer : t.xferCount = s.xferCount)
    (txLength : t.txLength = s.txLength) (txStatus : t.txStatus = s.txStatus) (rxLength : t.rxLength = s.rxLength)
    (h : engineConsistent s) : engineConsistent t := by
  simp only [engineConsistent, State.encodeError, eng, xfer, txLength, txStatus, rxLength] at h ⊢
  exact h

/-- An idle Engine is at rest (10_state.md R33). -/
theorem Sound.atRest {s : State} (h : Sound s) (idle : s.busy = false) : s.eng = Eng.idle := by
  have phase : s.eng.phase = .idle := by simpa [State.busy] using idle
  simpa only [engineConsistent, phase] using h.engine

/-- A RESULT word of `finish` is a completion record; flags go with success of a decode only (60_exceptions.md R305). -/
theorem resultConsistent_resultWord {op : BitVec 4} {c : ErrCode} {m u : Bool}
    (flags : m = true ∨ u = true → c = .none ∧ (op = 2 ∨ op = 6)) : resultConsistent (resultWord op c m u) := by
  have code_le : c.code.toNat ≤ 8 := by cases c <;> decide
  have flags_ne : (resultWord op c m u).extractLsb' 8 2 ≠ 0 → m = true ∨ u = true := by
    rw [resultWord_flags]
    cases m <;> cases u <;> decide
  obtain ⟨low, high⟩ := resultWord_reserved op c m u
  refine ⟨by rwa [resultWord_errCode], low, high, fun h => ?_⟩
  obtain ⟨rfl, decodes⟩ := flags (flags_ne h)
  rw [resultWord_errCode, resultWord_op]
  exact ⟨rfl, decodes⟩

theorem sound_finishAs {s : State} {op : BitVec 4} {c : ErrCode} {m u : Bool} (mem : s.mem.wf)
    (flags : m = true ∨ u = true → c = .none ∧ (op = 2 ∨ op = 6)) : Sound (s.finishAs op c m u) :=
  ⟨engineConsistent_of_atRest rfl, resultConsistent_resultWord flags, mem⟩

/-- A completion without flags needs nothing but the buffers' canonical form. -/
theorem sound_finishAs_plain {s : State} {op : BitVec 4} {c : ErrCode} (mem : s.mem.wf) :
    Sound (s.finishAs op c false false) :=
  sound_finishAs mem (by simp)

theorem Sound.setIrq {s : State} (h : Sound s) (q : BitVec 4) : Sound (s.setIrq q) :=
  ⟨engineConsistent_congr rfl rfl rfl rfl rfl h.engine, h.result, h.mem⟩

theorem Sound.respond {s : State} (h : Sound s) (r : BusResponse) : Sound (s.respond r) :=
  ⟨engineConsistent_congr rfl rfl rfl rfl rfl h.engine, h.result, h.mem⟩

/-- A state whose every field that `Sound` speaks of is the reset value. -/
theorem sound_of_reset {s : State} (rest : s.eng = Eng.idle) (result : s.result = 0) (mem : s.mem = []) : Sound s :=
  ⟨engineConsistent_of_atRest rest, by rw [result]; decide, by rw [mem]; decide⟩

/-! ### Host writes -/

/-- The table of R128 leads to consistent Engine states. -/
theorem engineConsistent_startCmd {s : State} {op : EngOp} {count : Half} (command : op ≠ .none)
    (inRange : count.toNat ≤ Config.bufSize) (xfer : s.xferCount = 0) : engineConsistent (s.startCmd op count) := by
  have empty_or_not : 0 < count.toNat ∨ count = 0 := by
    rcases Nat.eq_zero_or_pos count.toNat with h | h
    · exact .inr (BitVec.eq_of_toNat_eq h)
    · exact .inl h
  cases op with
  | none => exact absurd rfl command
  | encb => exact ⟨.inl rfl, rfl, rfl, xfer⟩
  | decb => exact ⟨rfl, rfl, inRange, xfer⟩
  | send => exact ⟨.inl ⟨rfl, inRange⟩, empty_or_not.imp_right fun h => ⟨rfl, rfl, h⟩, xfer⟩
  | recv => exact ⟨rfl, inRange, empty_or_not.imp_right fun h => ⟨rfl, h⟩, xfer⟩
  | enc => exact ⟨.inr rfl, rfl, rfl, xfer⟩
  | dec => exact ⟨rfl, rfl, Nat.zero_lt_succ 7, xfer⟩

theorem CmdCase.sound {s t : State} (c : CmdCase s t) (h : Sound s) : Sound t := by
  cases c with
  | ignored => exact h.setIrq irqBsyErr
  | started _ w op count command inRange => exact ⟨engineConsistent_startCmd command inRange rfl, h.result, h.mem⟩
  | rejected => exact sound_finishAs_plain h.mem

theorem abort_sound {s : State} (h : Sound s) : Sound s.abort := by
  unfold State.abort
  split
  · exact sound_finishAs_plain h.mem
  · exact h

theorem rxFlush_sound {s : State} (h : Sound s) : Sound s.rxFlush := by
  obtain ⟨-, ignored⟩ | ⟨-, emptied⟩ := rxFlush_case s
  · rw [ignored]
    exact h.setIrq irqBsyErr
  · rw [emptied]
    exact ⟨engineConsistent_congr rfl rfl rfl rfl rfl h.engine, h.result, h.mem⟩

theorem CtrlCase.sound {s t : State} {v : Word} (c : CtrlCase s v t) (h : Sound s) : Sound t := by
  cases c with
  | srst => exact sound_of_reset rfl rfl rfl
  | abort => exact abort_sound h
  | abortFlush => exact rxFlush_sound (abort_sound h)
  | flush => exact rxFlush_sound h
  | nothing => exact h

theorem writeReg_sound {s : State} (h : Sound s) (r : Reg) (v : Word) : Sound (s.writeReg r v) := by
  cases r with
  | irqStatus | irqEnable | rxTimeout => exact ⟨engineConsistent_congr rfl rfl rfl rfl rfl h.engine, h.result, h.mem⟩
  | txId | txHdr =>
    dsimp only [State.writeReg]
    split
    · exact h.setIrq irqBsyErr
    · exact ⟨engineConsistent_of_atRest (h.atRest (Bool.eq_false_iff.2 ‹_›)), h.result, h.mem⟩
  | ctrl | cmd | status | result | xferCount | rxId | rxHdr | rxCsum | caps => exact h

/-- An aligned access that starts in a buffer ends in it (20_memory.md R85). -/
theorem isBufAddr_add {a k : Nat} {size : Size} (inBuf : isBufAddr a = true) (aligned : a % sizeBytes size = 0)
    (hk : k < sizeBytes size) : isBufAddr (a + k) = true := by
  simp [isBufAddr] at inBuf ⊢
  cases size <;> simp only [sizeBytes] at aligned hk <;> omega

theorem writeBuf_sound {s : State} (h : Sound s) {a : Offset} {size : Size} (v : Word) (inBuf : isBufAddr a.toNat = true)
    (aligned : a.toNat % sizeBytes size = 0) : Sound (s.writeBuf a size v) := by
  unfold State.writeBuf
  split
  · exact h.setIrq irqBsyErr
  · refine ⟨engineConsistent_congr (by simp) (by simp) (by simp) (by simp) (by simp) h.engine, by simpa using h.result, ?_⟩
    exact writeBytes_wf h.mem fun k hk => isBufAddr_add inBuf aligned (by simpa using hk)

/-! ### LinkTx and the Build and Parse steps -/

/-- A legal LENGTH and the header size do not wrap (10_state.md R33). -/
theorem hdrSize_add_toNat {len : Half} (h : len.toNat ≤ 1024) : (8 + len).toNat = 8 + len.toNat := by
  have eight : (8 : Half).toNat = 8 := rfl
  rw [BitVec.toNat_add, eight]
  omega

theorem txMoved_engine {s : State} (h : engineConsistent s) (phase : s.eng.phase = .tx)
    (more : s.eng.idx.toNat + 1 < s.eng.endIdx.toNat) : engineConsistent s.txMoved := by
  simp only [engineConsistent, phase] at h
  obtain ⟨op, -, xfer⟩ := h
  have next := idx_succ_toNat (i := s.eng.idx) (e := s.eng.endIdx) (by omega)
  simp only [engineConsistent, txMoved_eng, phase, next, txMoved_xferCount, xfer]
  exact ⟨op, .inl more, trivial⟩

theorem txEmit_sound {s : State} (h : Sound s) (valid : s.txValid = true) : Sound s.txEmit := by
  obtain ⟨phase, before⟩ := txValid_iff.1 valid
  rcases Nat.lt_or_eq_of_le (Nat.succ_le_of_lt before) with more | last
  · rw [txEmit_more more]
    exact ⟨txMoved_engine h.engine phase more, h.result, h.mem⟩
  · rw [txEmit_last last]
    exact sound_finishAs_plain h.mem

theorem encbBuild_sound {s : State} (h : Sound s) : Sound s.encbBuild := by
  unfold State.encbBuild
  split
  · exact sound_finishAs_plain (buildHeader_wf h.mem)
  · exact sound_finishAs_plain h.mem

/-- ENC's Build step leads to the Tx phase over the whole frame (42_frame_pipeline.md R240). -/
theorem encBuilt_engine {s : State} (op : s.eng.op = .enc) (xfer : s.xferCount = 0) (legal : s.encodeError = .none) :
    engineConsistent s.encBuilt := by
  have len := hdrSize_add_toNat (encodeError_eq_none.1 legal).1
  have legal' : s.encBuilt.encodeError = .none := by
    rw [encodeError_eq_none] at legal ⊢
    simpa [State.encBuilt] using legal
  have end_eq : s.encBuilt.eng.endIdx.toNat = 8 + s.encBuilt.txLength.toNat := by simpa [State.encBuilt] using len
  have begins : s.encBuilt.eng.idx.toNat = 0 := rfl
  refine ⟨.inr ⟨op, legal', end_eq⟩, .inl (by omega), ?_⟩
  simpa [State.encBuilt] using xfer

theorem encBuild_sound {s : State} (h : Sound s) (phase : s.eng.phase = .build) (op : s.eng.op = .enc) : Sound s.encBuild := by
  have xfer : s.xferCount = 0 := by
    have engine := h.engine
    simp only [engineConsistent, phase] at engine
    obtain ⟨-, -, -, xfer⟩ := engine
    exact xfer
  unfold State.encBuild
  split
  · exact ⟨encBuilt_engine op xfer ‹_›, by simpa [State.encBuilt] using h.result, buildHeader_wf h.mem⟩
  · exact sound_finishAs_plain h.mem

/-- The end of a decode reports its flags under DECB or DEC (40_frame_codec.md R174, R175). -/
theorem decodeDone_sound {s : State} (mem : s.mem.wf) (op : s.eng.op = .decb ∨ s.eng.op = .dec) : Sound s.decodeDone := by
  refine sound_finishAs mem fun _ => ⟨rfl, ?_⟩
  exact op.imp (fun op => congrArg EngOp.code op) (fun op => congrArg EngOp.code op)

theorem decbPayload_sound {s : State} (mem : s.mem.wf) (op : s.eng.op = .decb) : Sound s.decbPayload := by
  unfold State.decbPayload
  split
  · exact sound_finishAs_plain mem
  · split
    · exact sound_finishAs_plain mem
    · exact decodeDone_sound mem (.inl op)

theorem decbParse_sound {s : State} (mem : s.mem.wf) (op : s.eng.op = .decb) : Sound s.decbParse := by
  unfold State.decbParse
  split
  · exact sound_finishAs_plain mem
  · exact decbPayload_sound mem op

/-! ### RxByte -/

/-- A receive phase ends within RXBUF (10_state.md R33). -/
theorem endIdx_le_of_receiving {s : State} (h : engineConsistent s)
    (phase : s.eng.phase = .rxRaw ∨ s.eng.phase = .rxHdr ∨ s.eng.phase = .rxPay) : s.eng.endIdx.toNat ≤ 1032 := by
  rcases phase with phase | phase | phase <;> simp only [engineConsistent, phase] at h
  · obtain ⟨-, fits, -⟩ := h
    exact fits
  · obtain ⟨-, ends, -⟩ := h
    simp [ends]
  · obtain ⟨-, len, ends, -⟩ := h
    simp only [Config.maxPayload] at len
    omega

theorem rxMoved_wf {s : State} (b : Byte) (rest : List Byte) (mem : s.mem.wf) (inBuf : s.eng.idx.toNat < 1032) :
    (s.rxMoved b rest).mem.wf := by
  rw [rxMoved_mem]
  refine write_wf b mem ?_
  simp [isBufAddr]
  omega

theorem rxMoved_engine {s : State} (b : Byte) (rest : List Byte) (h : engineConsistent s)
    (phase : s.eng.phase = .rxRaw ∨ s.eng.phase = .rxHdr ∨ s.eng.phase = .rxPay)
    (more : s.eng.idx.toNat + 1 < s.eng.endIdx.toNat) : engineConsistent (s.rxMoved b rest) := by
  have next := idx_succ_toNat (i := s.eng.idx) (e := s.eng.endIdx) (by omega)
  rcases phase with phase | phase | phase <;>
    simp only [engineConsistent, phase] at h <;>
    simp only [engineConsistent, rxMoved_eng, phase, next, rxMoved_xferCount, rxMoved_rxLength]
  · obtain ⟨op, fits, -, xfer⟩ := h
    exact ⟨op, fits, .inl more, by rw [xfer]⟩
  · obtain ⟨op, ends, -, xfer⟩ := h
    exact ⟨op, ends, by simpa [ends] using more, by rw [xfer]⟩
  · obtain ⟨op, len, ends, past, -, xfer⟩ := h
    exact ⟨op, len, ends, by omega, more, by rw [xfer]⟩

/-- `header_done()`: a completion, or the payload phase from index 8 on (42_frame_pipeline.md R246). -/
theorem headerChecked_sound {s : State} (mem : s.mem.wf) (result : resultConsistent s.result) (op : s.eng.op = .dec)
    (idx : s.eng.idx = 8) (xfer : s.xferCount = 8) : Sound s.headerChecked := by
  unfold State.headerChecked
  split
  · exact sound_finishAs_plain mem
  · rename_i len
    have len : s.rxLength.toNat ≤ 1024 := Nat.not_lt.1 len
    split
    · exact decodeDone_sound mem (.inr op)
    · rename_i nonempty
      have pos : s.rxLength.toNat ≠ 0 := fun zero => nonempty (BitVec.eq_of_toNat_eq zero)
      have ends := hdrSize_add_toNat len
      have idx8 : s.eng.idx.toNat = 8 := by rw [idx]; rfl
      refine ⟨⟨op, len, ends, ?_, ?_, xfer.trans idx.symm⟩, result, mem⟩ <;> simp only [idx8, ends] <;> omega

/-- The last byte of a phase: every ending is a completion, but the header's, which may lead to the payload phase (R206). -/
theorem phaseDone_sound {s : State} {b : Byte} {rest : List Byte} (h : Sound s)
    (phase : s.eng.phase = .rxRaw ∨ s.eng.phase = .rxHdr ∨ s.eng.phase = .rxPay) (mem : (s.rxMoved b rest).mem.wf)
    (last : s.eng.idx + 1 = s.eng.endIdx) : Sound (s.rxMoved b rest).phaseDone := by
  have engine := h.engine
  rcases phase with phase | phase | phase <;> simp only [engineConsistent, phase] at engine <;>
    simp only [State.phaseDone, rxMoved_eng, phase]
  · exact sound_finishAs_plain mem
  · obtain ⟨op, ends, -, xfer⟩ := engine
    have idx : s.eng.idx + 1 = 8 := last.trans ends
    exact headerChecked_sound mem h.result op idx (by simpa [xfer] using idx)
  · obtain ⟨op, -⟩ := engine
    exact decodeDone_sound mem (.inr op)

theorem rxByte_sound {s : State} (b : Byte) (rest : List Byte) (h : Sound s)
    (phase : s.eng.phase = .rxRaw ∨ s.eng.phase = .rxHdr ∨ s.eng.phase = .rxPay)
    (before : s.eng.idx.toNat < s.eng.endIdx.toNat) : Sound (s.rxByte b rest) := by
  have mem := rxMoved_wf b rest h.mem (Nat.lt_of_lt_of_le before (endIdx_le_of_receiving h.engine phase))
  rcases Nat.lt_or_eq_of_le (Nat.succ_le_of_lt before) with more | last
  · rw [rxByte_more b rest more]
    exact ⟨rxMoved_engine b rest h.engine phase more, h.result, mem⟩
  · rw [rxByte_last b rest last]
    exact phaseDone_sound h phase mem ((idx_succ_eq_iff before).2 last)

theorem EngineCase.sound {s t : State} (c : EngineCase s t) (h : Sound s) : Sound t := by
  cases c with
  | waits => exact h
  | encbBuild => exact encbBuild_sound h
  | encBuild phase op => exact encBuild_sound h phase op
  | decbParse _ op => exact decbParse_sound h.mem op
  | finishEmpty => exact sound_finishAs_plain h.mem
  | rxByte b rest phase before => exact rxByte_sound b rest h phase before

/-! ### Every event -/

theorem EventCase.sound {depth : Nat} {s t : State} {e : Event} (c : EventCase depth s e t) (h : Sound s) : Sound t := by
  cases c with
  | nothing => exact h
  | pin => exact ⟨engineConsistent_congr rfl rfl rfl rfl rfl h.engine, h.result, h.mem⟩
  | hardReset => exact sound_of_reset rfl rfl rfl
  | response _ r => exact h.respond r
  | cmdWord _ _ _ c => exact (c.sound h).respond .ok
  | ctrlWord _ _ _ c => exact (c.sound h).respond .ok
  | regWrite _ r v => exact (writeReg_sound h r v).respond .ok
  | bufWrite _ _ v _ inBuf aligned => exact (writeBuf_sound h v inBuf aligned).respond .ok
  | engine _ _ c => exact c.sound h
  | txEmit _ valid => exact txEmit_sound h valid
  | offer b =>
    unfold State.offerByte
    split
    · exact ⟨engineConsistent_congr rfl rfl rfl rfl rfl h.engine, h.result, h.mem⟩
    · exact h.setIrq irqOvr
  | timeout => exact sound_finishAs_plain h.mem

/-- No event lets the FIFO grow beyond its depth (41_byte_transport.md R204). -/
theorem EventEffect.fifo_le {depth : Nat} {s t : State} {e : Event} (f : EventEffect depth s e t)
    (h : s.rxq.length ≤ depth) : t.rxq.length ≤ depth := by
  cases f with
  | ordinary k => rwa [k.rxq]
  | pin => exact h
  | hardReset => exact Nat.zero_le depth
  | srst => exact Nat.zero_le depth
  | flush => exact Nat.zero_le depth
  | ack => exact h
  | sent _ k => rwa [k.rxq]
  | taken b rest queued k =>
    rw [queued, List.length_cons] at h
    rw [k.rxq, rxMoved_rxq]
    omega
  | queued b room =>
    rw [List.length_append, List.length_singleton]
    exact room

/-- A running block goes on running, or is reset by the pin. -/
theorem EventEffect.running_or_reset {depth : Nat} {s t : State} {e : Event} (f : EventEffect depth s e t)
    (running : s.rstActive = false) : t.rstActive = false ∨ t = { s.hardReset with rstActive := true } := by
  cases f with
  | ordinary k => exact .inl (k.rstActive.trans running)
  | pin _ held => simp [held] at running
  | hardReset => exact .inr rfl
  | srst => exact .inl running
  | flush _ _ k => exact .inl (k.rstActive.trans running)
  | ack => exact .inl running
  | sent _ k => exact .inl (k.rstActive.trans running)
  | taken _ _ _ k => exact .inl (k.rstActive.trans running)
  | queued => exact .inl running

/-- While `rst` is active an event changes the pin at most (70_reset_and_hazards.md R350). -/
theorem EventCase.of_held {depth : Nat} {s t : State} {e : Event} (c : EventCase depth s e t) (held : s.rstActive = true) :
    t = s ∨ ∃ l, t = { s with rstActive := l } := by
  cases c with
  | nothing => exact .inl rfl
  | pin l => exact .inr ⟨l, rfl⟩
  | _ => simp_all -- every other case needs the pin released

theorem Inv.pin {depth : Nat} {s : State} (i : Inv s depth) (held : s.rstActive = true) (l : Bool) :
    Inv { s with rstActive := l } depth where
  engine := engineConsistent_congr rfl rfl rfl rfl rfl i.engine
  result := i.result
  fifo := i.fifo
  mem := i.mem
  held active := by
    have active : l = true := active
    have same : { s with rstActive := l } = s := by rw [active, ← held]
    exact same.trans (i.held held)

/-- Every event keeps the invariant. -/
theorem inv_runEvent {depth : Nat} {s t : State} {e : Event} (i : Inv s depth) (h : runEvent e s depth = .next t) :
    Inv t depth := by
  have c := eventCase_of h
  cases pin : s.rstActive with
  | false =>
    obtain ⟨engine, result, mem⟩ := c.sound i.sound
    refine ⟨engine, result, c.effect.fifo_le i.fifo, mem, fun active => ?_⟩
    obtain running | rfl := c.effect.running_or_reset pin
    · simp [running] at active
    · rfl
  | true =>
    obtain rfl | ⟨l, rfl⟩ := c.of_held pin
    · exact i
    · exact i.pin pin l

/-- The invariant does not depend on what is yet to happen outside the block (log entry 3). -/
theorem Inv.schedule {depth : Nat} {s : State} (i : Inv s depth) (agenda : List Event) (sched : Nat) :
    Inv { s with agenda := agenda, sched := sched } depth where
  engine := engineConsistent_congr rfl rfl rfl rfl rfl i.engine
  result := i.result
  fifo := i.fifo
  mem := i.mem
  held active := by
    have reset := i.held active
    exact congrArg (fun u : State => { u with agenda := agenda, sched := sched }) reset

/-- Choosing the next event moves the schedule only. -/
theorem takeEvent_eq (s : State) : s.takeEvent = { s with agenda := s.takeEvent.agenda, sched := s.takeEvent.sched } := by
  unfold State.takeEvent
  split <;> rfl

/-! ### The settled statements -/

theorem inv_stepAt {depth : Nat} {s t : State} (i : Inv s depth) (h : stepAt depth s = .next t) : Inv t depth := by
  have chosen : Inv s.takeEvent depth := by
    rw [takeEvent_eq]
    exact i.schedule _ _
  exact inv_runEvent chosen h

/-- Settles O12: choosing an event keeps the invariant, and so does running it, by cases on what the event does. -/
theorem everyStepKeepsInv : Obligations.EveryStepKeepsInv := by
  unfold Obligations.EveryStepKeepsInv
  exact ⟨fun _ _ _ i h => inv_stepAt i h, fun _ _ i h => inv_stepAt i h⟩

/-- Settles O11: right after reset the Engine is at rest, the FIFO and the list of written bytes are empty, and the pin is released. -/
theorem invHoldsAtReset : Obligations.InvHoldsAtReset := by
  unfold Obligations.InvHoldsAtReset
  intro depth
  obtain ⟨engine, result, mem⟩ := sound_of_reset (s := State.reset) rfl rfl rfl
  exact ⟨engine, result, Nat.zero_le depth, mem, fun active => by cases active⟩

/-- Settles O7: the choice of the next event by the form of the agenda; the schedule after that choice is the one a run needs. -/
theorem stepRunsTheNextEvent : Obligations.StepRunsTheNextEvent := by
  unfold Obligations.StepRunsTheNextEvent
  refine ⟨fun s => ⟨fun e rest agenda => ?_, fun agenda => ?_⟩, fun states run n => ?_⟩
  · simp only [step, stepAt, State.nextEvent, State.takeEvent, agenda]
  · simp only [step, stepAt, State.nextEvent, State.takeEvent, agenda]
  · refine ⟨(states n).takeEvent.agenda, (states n).takeEvent.sched, ?_⟩
    rw [← takeEvent_eq]
    exact run n

end Sys2Proof.Machine
end

section
/-! SUPPORT. Host accesses that issue no word: which target they reach, what a read answers, what a write stores; STATUS and `irq`. -/

namespace Sys2Proof.Machine

/-! ### Accesses by target (20_memory.md R81, R85) -/

/-- A write of a register that stores runs `writeReg` and is answered OK (R89). -/
theorem run_writeReg {s : State} {d : Nat} {a : Offset} {r : Reg} (v : Word) (running : s.rstActive = false)
    (at_ : regAt a.toNat = some r) (stores : r ≠ .cmd ∧ r ≠ .ctrl) :
    runEvent (.host (.write a .word v)) s d = .next ((s.writeReg r v).respond .ok) := by
  obtain ⟨not_cmd, not_ctrl⟩ := stores
  rw [run_host _ running]
  simp only [hostStep, hostWrite, accessReg, if_true, at_]
  cases r <;> first | rfl | contradiction

/-- A read of a register answers its value (R87). -/
theorem run_readReg {s : State} {d : Nat} {a : Offset} {r : Reg} (running : s.rstActive = false)
    (at_ : regAt a.toNat = some r) : runEvent (.host (.read a .word)) s d = .next (s.respond (.data (s.readReg r d))) := by
  rw [run_host _ running]
  simp only [hostStep, State.hostRead, accessReg, if_true, at_]

/-- No buffer byte stands in the register page. -/
theorem accessReg_of_isBufAddr {a : Offset} (size : Size) (inBuf : isBufAddr a.toNat = true) : accessReg a size = none := by
  unfold accessReg
  split
  · simp [isBufAddr] at inBuf
    exact regAt_none (by omega)
  · rfl

theorem accessBuf_of_aligned {a : Offset} {size : Size} (inBuf : isBufAddr a.toNat = true)
    (aligned : a.toNat % sizeBytes size = 0) : accessBuf a size = true := by simp [accessBuf, inBuf, aligned]

/-- An aligned write within a buffer runs `writeBuf` and is answered OK (R88). -/
theorem run_writeBuf {s : State} {d : Nat} {a : Offset} {size : Size} (v : Word) (running : s.rstActive = false)
    (inBuf : isBufAddr a.toNat = true) (aligned : a.toNat % sizeBytes size = 0) :
    runEvent (.host (.write a size v)) s d = .next ((s.writeBuf a size v).respond .ok) := by
  rw [run_host _ running]
  simp only [hostStep, hostWrite, accessReg_of_isBufAddr size inBuf, accessBuf_of_aligned inBuf aligned, if_true]

/-- An aligned read within a buffer answers the bytes there (R87). -/
theorem run_readBuf {s : State} {d : Nat} {a : Offset} {size : Size} (running : s.rstActive = false)
    (inBuf : isBufAddr a.toNat = true) (aligned : a.toNat % sizeBytes size = 0) :
    runEvent (.host (.read a size)) s d = .next (s.respond (.data (s.readBuf a size))) := by
  rw [run_host _ running]
  simp only [hostStep, State.hostRead, accessReg_of_isBufAddr size inBuf, accessBuf_of_aligned inBuf aligned, if_true]

/-- A read records a response and changes nothing else (R87). -/
theorem hostRead_responds (s : State) (a : Offset) (size : Size) (d : Nat) : ∃ r, s.hostRead a size d = s.respond r := by
  unfold State.hostRead
  split
  · exact ⟨_, rfl⟩
  · split <;> exact ⟨_, rfl⟩

/-- A word with RXFLUSH alone among its action bits (43_control.md R286, R289). -/
theorem ctrlWrite_flush (s : State) {v : Word} (h2 : v.getLsbD 2 = true) (h1 : v.getLsbD 1 = false) (h0 : v.getLsbD 0 = false) :
    ctrlWrite v s = .next s.rxFlush := by
  simp only [ctrlWrite, decode, decodeCtrlWord, h2, h1, h0, Bool.false_eq_true, if_true, if_false, exec, execRxflush]

/-! ### The bytes of a buffer read (R82) -/

theorem fromLE_lt (bs : List Byte) : fromLE bs < 2 ^ (8 * bs.length) := by
  induction bs with
  | nil => simp [fromLE]
  | cons b bs ih =>
    have := b.isLt
    rw [fromLE, List.length_cons, Nat.mul_succ, Nat.pow_add]
    omega

/-- Byte k of the number of a little-endian list is the list's byte k. -/
theorem fromLE_div_mod (bs : List Byte) {k : Nat} (h : k < bs.length) : fromLE bs / 2 ^ (8 * k) % 2 ^ 8 = bs[k].toNat := by
  induction bs generalizing k with
  | nil => simp at h
  | cons b bs ih =>
    have := b.isLt
    cases k with
    | zero =>
      simp only [fromLE, List.getElem_cons_zero]
      omega
    | succ k =>
      rw [fromLE, List.getElem_cons_succ, ← ih (by simpa using h), Nat.mul_succ, Nat.add_comm (8 * k), Nat.pow_add,
        ← Nat.div_div_eq_div_mul]
      congr 2
      omega

theorem sizeBytes_le (size : Size) : sizeBytes size ≤ 4 := by cases size <;> decide

/-- The bytes of a buffer read make a number within the access size, hence within the data path (R13, R82). -/
theorem readBuf_toNat (s : State) (a : Offset) (size : Size) :
    (s.readBuf a size).toNat = fromLE (s.readBytes a.toNat (sizeBytes size)) := by
  have fits := fromLE_lt (s.readBytes a.toNat (sizeBytes size))
  rw [readBytes_length] at fits
  have path : 2 ^ (8 * sizeBytes size) ≤ 2 ^ 32 := Nat.pow_le_pow_right (by decide) (by have := sizeBytes_le size; omega)
  rw [State.readBuf, BitVec.toNat_ofNat, Nat.mod_eq_of_lt (by omega)]

theorem readBuf_lt (s : State) (a : Offset) (size : Size) : (s.readBuf a size).toNat < 2 ^ (8 * sizeBytes size) := by
  rw [readBuf_toNat]
  simpa using fromLE_lt (s.readBytes a.toNat (sizeBytes size))

/-- Byte k of a buffer read is the buffer byte at offset + k. -/
theorem readBuf_byte (s : State) (a : Offset) (size : Size) {k : Nat} (h : k < sizeBytes size) :
    (s.readBuf a size).extractLsb' (8 * k) 8 = s.readByte (a.toNat + k) := by
  apply BitVec.eq_of_toNat_eq
  rw [BitVec.extractLsb'_toNat, readBuf_toNat, Nat.shiftRight_eq_div_pow, fromLE_div_mod _ (by simpa using h), readBytes_getElem]

/-- The two buffers' ranges as `isBufAddr` says them (R51, R52). -/
theorem isBufAddr_iff (a : Nat) : isBufAddr a = true ↔ 0x1000 ≤ a ∧ a < 0x1408 ∨ 0x2000 ≤ a ∧ a < 0x2408 := by
  simp [isBufAddr]

/-! ### STATUS (10_state.md R37) -/

/-- STATUS as a number: its three fields at bits 0, 4 and 16, with a FIFO level that fits 16 bits. -/
theorem statusReg_toNat {s : State} (level : s.rxq.length ≤ 65535) :
    s.statusReg.toNat = s.busy.toNat + 16 * s.eng.op.code.toNat + 65536 * s.rxq.length := by
  have hop := s.eng.op.code.isLt
  have hbusy := s.busy.toNat_lt
  have ops : 2 ^ 16 * s.rxq.length ||| 2 ^ 4 * s.eng.op.code.toNat = 2 ^ 16 * s.rxq.length + 2 ^ 4 * s.eng.op.code.toNat :=
    (Nat.two_pow_add_eq_or_of_lt (by omega) _).symm
  have bit : 2 ^ 4 * (2 ^ 12 * s.rxq.length + s.eng.op.code.toNat) ||| s.busy.toNat =
      2 ^ 4 * (2 ^ 12 * s.rxq.length + s.eng.op.code.toNat) + s.busy.toNat :=
    (Nat.two_pow_add_eq_or_of_lt (by omega) _).symm
  have fields : s.statusReg.toNat = (2 ^ 16 * s.rxq.length ||| 2 ^ 4 * s.eng.op.code.toNat) ||| s.busy.toNat := by
    simp only [State.statusReg, BitVec.toNat_or, BitVec.toNat_shiftLeft, BitVec.toNat_setWidth, BitVec.toNat_ofNat,
      BitVec.toNat_ofBool, Nat.shiftLeft_eq]
    congr 2 <;> omega
  rw [fields, ops, show 2 ^ 16 * s.rxq.length + 2 ^ 4 * s.eng.op.code.toNat =
    2 ^ 4 * (2 ^ 12 * s.rxq.length + s.eng.op.code.toNat) by omega, bit]
  omega

/-! ### The settled statements -/

/-- Settles O45: a read records its response only; registers answer by offset, buffers by their bytes. -/
theorem readsHaveNoSideEffect : Obligations.ReadsHaveNoSideEffect := by
  unfold Obligations.ReadsHaveNoSideEffect
  intro depth s running
  refine ⟨fun a size => ?_, fun a v listed => ?_, fun a size inBuf aligned => ?_⟩
  · obtain ⟨r, responds⟩ := hostRead_responds s a size depth
    rw [run_host _ running, hostStep, responds]
    exact ⟨r, rfl⟩
  · have value {r : Reg} {v : Word} (at_ : regAt a.toNat = some r) (hv : s.readReg r depth = v) :
        runEvent (.host (.read a .word)) s depth = .next { s with busResp := some (.data v) } := by
      rw [run_readReg running at_, hv]
      rfl
    simp only [List.mem_cons, List.not_mem_nil, or_false, Prod.mk.injEq] at listed
    rcases listed with ⟨rfl, rfl⟩ | ⟨rfl, rfl⟩ | ⟨rfl, rfl⟩ | ⟨rfl, rfl⟩ | ⟨rfl, rfl⟩ | ⟨rfl, rfl⟩ | ⟨rfl, rfl⟩ | ⟨rfl, rfl⟩ |
      ⟨rfl, rfl⟩ | ⟨rfl, rfl⟩ | ⟨rfl, rfl⟩ | ⟨rfl, rfl⟩ | ⟨rfl, rfl⟩ | ⟨rfl, rfl⟩
    case inr.inr.inl =>
      refine value (r := .status) rfl ?_
      by_cases idle : s.eng.phase = .idle <;> simp [State.readReg, State.statusReg, State.busy, idle]
    all_goals exact value rfl rfl
  · have inBuf := (isBufAddr_iff a.toNat).2 inBuf
    exact ⟨s.readBuf a size, readBuf_lt s a size, fun k hk => readBuf_byte s a size hk, run_readBuf running inBuf aligned⟩

/-- Settles O48: each of these writes reaches an operation that, while busy, is `busyError`. -/
theorem hostWriteWhileBusyIsIgnored : Obligations.HostWriteWhileBusyIsIgnored := by
  unfold Obligations.HostWriteWhileBusyIsIgnored
  intro s a v running phase target
  have busy : s.busy = true := by simpa [State.busy] using phase
  obtain rfl | rfl | ⟨rfl, h2, h1, h0⟩ | ⟨addr, size, rfl, inBuf, aligned⟩ := target
  · rw [run_writeReg (r := .txId) v running rfl (by decide)]
    simp only [State.writeReg, busy, if_true]
    rfl
  · rw [run_writeReg (r := .txHdr) v running rfl (by decide)]
    simp only [State.writeReg, busy, if_true]
    rfl
  · have flush : ctrlWrite v s = .next s.busyError := by rw [ctrlWrite_flush s h2 h1 h0, State.rxFlush, if_pos busy]
    exact (run_issue .ctrl v running).trans (congrArg (onNext fun t => t.respond .ok) flush)
  · rw [run_writeBuf v running inBuf aligned, State.writeBuf, if_pos busy]
    rfl

/-- Settles O49: the four registers that store, by their offsets. -/
theorem registerWritesStore : Obligations.RegisterWritesStore := by
  unfold Obligations.RegisterWritesStore
  intro s v running
  refine ⟨run_writeReg (r := .irqEnable) v running rfl (by decide), run_writeReg (r := .rxTimeout) v running rfl (by decide),
    fun phase => ?_⟩
  have idle : ¬ s.busy = true := by simpa [State.busy] using phase
  constructor
  · rw [run_writeReg (r := .txId) v running rfl (by decide)]
    simp only [State.writeReg, if_neg idle]
    rfl
  · rw [run_writeReg (r := .txHdr) v running rfl (by decide)]
    simp only [State.writeReg, if_neg idle]
    rfl

/-- Settles O50: the seven offsets are those of registers that `writeReg` leaves alone. -/
theorem readOnlyRegistersIgnoreWrites : Obligations.ReadOnlyRegistersIgnoreWrites := by
  unfold Obligations.ReadOnlyRegistersIgnoreWrites
  intro s v a running offset
  have ignored {a : Offset} {r : Reg} (at_ : regAt a.toNat = some r) (stores : r ≠ .cmd ∧ r ≠ .ctrl)
      (kept : s.writeReg r v = s) : runEvent (.host (.write a .word v)) s = .next { s with busResp := some .ok } := by
    rw [run_writeReg v running at_ stores, kept]
    rfl
  refine ⟨?_, run_readReg (r := .caps) running rfl⟩
  obtain rfl | rfl | rfl | rfl | rfl | rfl | rfl := offset <;> exact ignored rfl (by decide) rfl

/-- Settles O51: STATUS read as a number, whose digits are its fields; the invariant bounds the FIFO's level. -/
theorem statusShowsTheEngineAndTheFifo : Obligations.StatusShowsTheEngineAndTheFifo := by
  unfold Obligations.StatusShowsTheEngineAndTheFifo
  refine ⟨fun depth s legal i => ?_, by decide⟩
  obtain ⟨-, depth_le⟩ := legal
  have level : s.rxq.length ≤ 65535 := i.fifo.trans depth_le
  have hop := s.eng.op.code.isLt
  have hbusy := s.busy.toNat_lt
  have field (low len : Nat) : ((s.readReg .status).extractLsb' low len).toNat =
      (s.busy.toNat + 16 * s.eng.op.code.toNat + 65536 * s.rxq.length) / 2 ^ low % 2 ^ len := by
    rw [BitVec.extractLsb'_toNat, State.readReg, statusReg_toNat level, Nat.shiftRight_eq_div_pow]
  have op_field : (s.readReg .status).extractLsb' 4 4 = s.eng.op.code :=
    BitVec.eq_of_toNat_eq ((field 4 4).trans (by omega))
  refine ⟨?_, ?_, op_field, fun phase => ?_, ?_, ?_, i.fifo⟩
  · change _ = BitVec.ofBool s.busy
    exact BitVec.eq_of_toNat_eq ((field 0 1).trans (by rw [BitVec.toNat_ofBool]; omega))
  · exact BitVec.eq_of_toNat_eq ((field 1 3).trans (show _ = 0 by omega))
  · rw [op_field, i.sound.atRest (by simpa [State.busy] using phase)]
    rfl
  · exact BitVec.eq_of_toNat_eq ((field 8 8).trans (show _ = 0 by omega))
  · exact (field 16 16).trans (by omega)

/-- Settles O52: acknowledgment clears the bits of its argument, the word's low four. -/
theorem irqStatusIsWriteOneToClear : Obligations.IrqStatusIsWriteOneToClear := by
  unfold Obligations.IrqStatusIsWriteOneToClear
  intro s v running
  refine ⟨(s.ackIrq (v.extractLsb' 0 4)).irqStatus, fun i hi => ?_, run_writeReg (r := .irqStatus) v running rfl (by decide)⟩
  simp [hi]

/-- Settles O53: a 4-bit word is not 0 exactly when one of its bits is set. -/
theorem irqLineIsPendingAndEnabled : Obligations.IrqLineIsPendingAndEnabled := by
  unfold Obligations.IrqLineIsPendingAndEnabled
  refine ⟨fun s => ?_, by decide⟩
  have bits : s.irq = false ↔ ∀ i, i < 4 → (s.irqStatus &&& s.irqEnable).getLsbD i = false := by
    simp only [State.irq, decide_eq_false_iff_not, not_not]
    exact ⟨fun zero i _ => by simp [zero], fun h => BitVec.eq_of_getLsbD_eq fun i hi => by simpa using h i hi⟩
  rw [← Bool.not_eq_false, bits]
  simp

end Sys2Proof.Machine
end

section
/-! SUPPORT. Host accesses to the buffers and beside them: which are a bus error, what a write stores, and how a frame header in a buffer
reads (20_memory.md R82 to R88). -/

namespace Sys2Proof.Machine

/-! ### Bus errors (20_memory.md R85, 10_state.md R49) -/

/-- The registers stand at multiples of 4 (10_state.md R34). -/
theorem aligned_of_regAt {n : Nat} {r : Reg} (h : regAt n = some r) : n % 4 = 0 := by
  have aligned : ∀ n < 0x38, regAt n ≠ none → n % 4 = 0 := by decide
  exact aligned n (lt_of_regAt h) (by simp [h])

/-- An access reaches a register only as a word, at a multiple of 4 in the register page. -/
theorem accessReg_eq_none {a : Offset} {size : Size} (h : size = .word → a.toNat % 4 = 0 → 0x38 ≤ a.toNat) :
    accessReg a size = none := by
  unfold accessReg
  split
  · cases at_ : regAt a.toNat with
    | none => rfl
    | some r => exact absurd (lt_of_regAt at_) (Nat.not_lt.2 (h ‹_› (aligned_of_regAt at_)))
  · rfl

/-- An access whose offset is no buffer byte's, or is not a multiple of its size, reaches no buffer. -/
theorem accessBuf_eq_false {a : Offset} {size : Size} (h : isBufAddr a.toNat = true → a.toNat % sizeBytes size ≠ 0) :
    accessBuf a size = false := by
  simpa [accessBuf] using h

/-- An access that reaches neither a register nor a buffer gets the ERROR response and changes nothing (R86). -/
theorem run_busError {s : State} {d : Nat} {a : Offset} {size : Size} (v : Word) (running : s.rstActive = false)
    (noReg : accessReg a size = none) (noBuf : accessBuf a size = false) :
    runEvent (.host (.read a size)) s d = .next (s.respond (.error (.busError a))) ∧
    runEvent (.host (.write a size v)) s d = .next (s.respond (.error (.busError a))) := by
  simp [run_host _ running, hostStep, State.hostRead, hostWrite, noReg, noBuf]

/-- Settles O46: such an access reaches no register and no buffer, by its offset and alignment. -/
theorem forbiddenAccessIsABusError : Obligations.ForbiddenAccessIsABusError := by
  unfold Obligations.ForbiddenAccessIsABusError
  intro s a size v running forbidden
  refine run_busError v running (accessReg_eq_none fun word aligned => ?_) (accessBuf_eq_false fun inBuf => ?_)
  · subst word
    simp only [ne_eq, not_true, false_or, reduceCtorEq, false_and] at forbidden
    omega
  · rw [isBufAddr_iff] at inBuf
    cases size <;> simp only [sizeBytes, reduceCtorEq, false_and, true_and, false_or, or_false, and_false] at forbidden ⊢ <;> omega

/-! ### A write, then a read (R82, R87, R88) -/

/-- Reading back an aligned write gives the value, cut to the access size (R13, R82). -/
theorem readBuf_writeBytes (s : State) (a : Offset) (size : Size) (v : Word) :
    (s.writeBytes a.toNat (leBytes (sizeBytes size) v)).readBuf a size = BitVec.ofNat 32 (v.toNat % 2 ^ (8 * sizeBytes size)) := by
  have back := readBytes_writeBytes s a.toNat (leBytes (sizeBytes size) v)
  rw [leBytes_length] at back
  rw [State.readBuf, back, fromLE_leBytes]

/-- Settles O47: an idle block stores the little-endian bytes, and the laws of `writeBytes` say what is read after. -/
theorem bufferWriteReadsBack : Obligations.BufferWriteReadsBack := by
  unfold Obligations.BufferWriteReadsBack
  intro s a size v running phase inBuf aligned
  have idle : ¬ s.busy = true := by simpa [State.busy] using phase
  have written : runEvent (.host (.write a size v)) s =
      .next ((s.writeBytes a.toNat (leBytes (sizeBytes size) v)).respond .ok) := by
    rw [run_writeBuf v running inBuf aligned, State.writeBuf, if_neg idle]
  refine ⟨_, written, ?_, fun k hk => ?_, fun b outside => ?_, ?_⟩
  · exact congrArg (fun t : State => t.respond .ok) (writeBytes_eq s a.toNat _)
  · have inside := readByte_writeBytes_inside s a.toNat (bs := leBytes (sizeBytes size) v) (k := k) (by simpa using hk)
    exact inside.trans (leBytes_getElem _ v k _)
  · exact readByte_writeBytes_outside s (by simpa using outside)
  · rw [run_readBuf (by simpa using running) inBuf aligned]
    have value : ((s.writeBytes a.toNat (leBytes (sizeBytes size) v)).respond .ok).readBuf a size = _ := readBuf_writeBytes s a size v
    rw [value]
    rfl

/-! ### The words of a frame header (40_frame_codec.md R161, 20_memory.md R84) -/

/-- The 8 bytes from `base` on are a frame header with these fields. -/
structure HeaderAt (s : State) (base : Nat) (id : Word) (st c : Byte) (len : Half) : Prop where
  id : BitVec.ofNat 32 (fromLE (s.readBytes base 4)) = id
  status : s.readByte (base + 4) = st
  csum : s.readByte (base + 5) = c
  length : BitVec.ofNat 16 (fromLE (s.readBytes (base + 6) 2)) = len

theorem headerAt_of_readBytes {s : State} {base : Nat} {id : Word} {st c : Byte} {len : Half}
    (h : s.readBytes base 8 = headerBytes id st c len) : HeaderAt s base id st c len := by
  have split8 : s.readBytes base 8 = s.readBytes base 4 ++ [s.readByte (base + 4), s.readByte (base + 5)] ++ s.readBytes (base + 6) 2 := by
    rw [readBytes_add s base 6 2, readBytes_add s base 4 2]
    rfl
  obtain ⟨front, length⟩ := List.append_inj' (split8.symm.trans h) (by simp)
  obtain ⟨id_eq, middle⟩ := List.append_inj' front rfl
  obtain ⟨status, csum⟩ : s.readByte (base + 4) = st ∧ s.readByte (base + 5) = c := by simpa using middle
  exact ⟨by rw [id_eq, fromLE_leBytes_word], status, csum, by rw [length, fromLE_leBytes_half]⟩

/-- Where a header stands depends on the buffers only. -/
theorem HeaderAt.congr {s t : State} {base : Nat} {id : Word} {st c : Byte} {len : Half} (h : HeaderAt s base id st c len)
    (mem : t.mem = s.mem) (draws : t.draws = s.draws) : HeaderAt t base id st c len := by
  have byte : ∀ a, t.readByte a = s.readByte a := readByte_congr mem draws
  have bytes : ∀ a n, t.readBytes a n = s.readBytes a n := fun a n => readBytes_congr fun k _ => byte (a + k)
  exact ⟨by rw [bytes, h.id], by rw [byte, h.status], by rw [byte, h.csum], by rw [bytes, h.length]⟩

theorem readBuf_size_half (s : State) (a : Offset) :
    s.readBuf a .half = (BitVec.ofNat 16 (fromLE (s.readBytes a.toNat 2))).setWidth 32 := by
  have fits : fromLE (s.readBytes a.toNat 2) < 2 ^ 16 := by simpa using fromLE_lt (s.readBytes a.toNat 2)
  apply BitVec.eq_of_toNat_eq
  rw [readBuf_toNat, BitVec.toNat_setWidth, BitVec.toNat_ofNat, sizeBytes]
  omega

theorem readBuf_size_byte (s : State) (a : Offset) : s.readBuf a .byte = (s.readByte a.toNat).setWidth 32 := by
  have := (s.readByte a.toNat).isLt
  apply BitVec.eq_of_toNat_eq
  rw [readBuf_toNat, BitVec.toNat_setWidth]
  simp [sizeBytes, State.readBytes, fromLE]
  omega

/-- A header's second word reads as a header register: STATUS, CSUM and LENGTH in ascending bytes (R84). -/
theorem readBuf_hdrWord (s : State) (a : Offset) :
    s.readBuf a .word =
      hdrWord (BitVec.ofNat 16 (fromLE (s.readBytes (a.toNat + 2) 2))) (s.readByte (a.toNat + 1)) (s.readByte a.toNat) := by
  have fits : fromLE (s.readBytes (a.toNat + 2) 2) < 2 ^ 16 := by simpa using fromLE_lt (s.readBytes (a.toNat + 2) 2)
  apply BitVec.eq_of_toNat_eq
  rw [readBuf_toNat, hdrWord_toNat, BitVec.toNat_ofNat, Nat.mod_eq_of_lt fits, sizeBytes, readBytes_add s a.toNat 2 2]
  simp only [State.readBytes, List.range_succ, List.range_zero, List.nil_append, List.cons_append, List.map_cons, List.map_nil, fromLE,
    Nat.add_zero]
  omega

/-- A read that reaches a buffer answers the bytes there (R87). -/
theorem hostRead_of_accessBuf {s : State} {d : Nat} {a : Offset} {size : Size} (reaches : accessBuf a size = true) :
    s.hostRead a size d = s.respond (.data (s.readBuf a size)) := by
  have inBuf : isBufAddr a.toNat = true := Bool.and_elim_left reaches
  simp only [State.hostRead, accessReg_of_isBufAddr size inBuf, reaches, if_true]

/-- The four reads of R84, of a header at the start of either buffer. -/
theorem HeaderAt.hostReads {s : State} {base : Offset} {id : Word} {st c : Byte} {len : Half}
    (h : HeaderAt s base.toNat id st c len) (start : base = 0x1000 ∨ base = 0x2000) :
    s.hostRead base .word = s.respond (.data id) ∧
    s.hostRead (base + 4) .word = s.respond (.data (hdrWord len c st)) ∧
    s.hostRead (base + 6) .half = s.respond (.data (len.setWidth 32)) ∧
    s.hostRead (base + 4) .byte = s.respond (.data (st.setWidth 32)) := by
  obtain ⟨reach0, reach4, reach6, reach4b, at4, at6⟩ :
      accessBuf base .word = true ∧ accessBuf (base + 4) .word = true ∧ accessBuf (base + 6) .half = true ∧
        accessBuf (base + 4) .byte = true ∧ (base + 4).toNat = base.toNat + 4 ∧ (base + 6).toNat = base.toNat + 6 := by
    obtain rfl | rfl := start <;> decide
  refine ⟨?_, ?_, ?_, ?_⟩
  · rw [hostRead_of_accessBuf reach0, State.readBuf, sizeBytes, h.id]
  · rw [hostRead_of_accessBuf reach4, readBuf_hdrWord, at4, h.length, h.csum, h.status]
  · rw [hostRead_of_accessBuf reach6, readBuf_size_half, at6, h.length]
  · rw [hostRead_of_accessBuf reach4b, readBuf_size_byte, at4, h.status]

/-! ### The headers that Build and Parse leave (40_frame_codec.md R167, R172) -/

theorem buildHeader_headerAt (s : State) : HeaderAt s.buildHeader txBase s.txId s.txStatus (csum s.txPayload) s.txLength := by
  have bytes := buildHeader_txBytes s 0
  rw [State.txBytes, State.txBytes, readBytes_zero, List.append_nil] at bytes
  exact headerAt_of_readBytes bytes

/-- A successful Build step under ENCB or ENC is `buildHeader` but for the fields that say how far the command is. -/
theorem engineStep_built {s : State} (phase : s.eng.phase = .build) (op : s.eng.op = .encb ∨ s.eng.op = .enc)
    (legal : s.encodeError = .none) :
    s.engineStep =
      { s.buildHeader with
        eng := s.engineStep.eng, xferCount := s.engineStep.xferCount, result := s.engineStep.result,
        irqStatus := s.engineStep.irqStatus } := by
  obtain op | op := op
  · rw [engineStep_encb phase op, State.encbBuild, if_pos legal]
    rfl
  · rw [engineStep_enc phase op, State.encBuild, if_pos legal]
    simp [State.encBuilt]

theorem latchHeader_headerAt (s : State) :
    HeaderAt s.latchHeader rxBase s.latchHeader.rxId s.latchHeader.rxStatus s.latchHeader.rxCsumHdr s.latchHeader.rxLength :=
  ⟨rfl, rfl, rfl, rfl⟩

/-- Once the header is latched, the rest of the Parse step reports: it changes neither the header registers nor the buffers. -/
theorem decbPayload_eq (s : State) :
    s.decbPayload =
      { s with
        eng := Eng.idle, xferCount := s.decbPayload.xferCount, rxCsumCalc := s.decbPayload.rxCsumCalc, result := s.decbPayload.result,
        irqStatus := s.decbPayload.irqStatus } := by
  unfold State.decbPayload
  split
  · rfl
  · split <;> rfl

/-- A Parse step that found a header is `latchHeader` but for the fields that report (R170). -/
theorem engineStep_parsed {s : State} (phase : s.eng.phase = .parse) (op : s.eng.op = .decb) (whole : 8 ≤ s.eng.endIdx.toNat) :
    s.engineStep =
      { s.latchHeader with
        eng := Eng.idle, xferCount := s.engineStep.xferCount, rxCsumCalc := s.engineStep.rxCsumCalc, result := s.engineStep.result,
        irqStatus := s.engineStep.irqStatus } := by
  rw [engineStep_decb phase op, State.decbParse, if_neg (Nat.not_lt.2 whole)]
  exact decbPayload_eq { s.latchHeader with xferCount := 8 }

/-- Settles O21: each step leaves in its buffer a header whose fields are those of the header registers. -/
theorem headerReadsAsTheRegisters : Obligations.HeaderReadsAsTheRegisters := by
  unfold Obligations.HeaderReadsAsTheRegisters
  refine fun s => ⟨fun phase op legal => ?_, fun phase op whole => ?_⟩
  · have step := engineStep_built phase op legal
    have header : HeaderAt s.engineStep txBase s.txId s.txStatus (csum s.txPayload) s.txLength := by
      rw [step]
      exact (buildHeader_headerAt s).congr rfl rfl
    have reg : s.engineStep.readReg .txHdr = hdrWord s.txLength (csum s.txPayload) s.txStatus := by
      rw [step]
      simp [State.readReg, State.txHdrReg]
    rw [reg]
    exact header.hostReads (base := 0x1000) (.inl rfl)
  · have header : HeaderAt s.engineStep rxBase s.engineStep.rxId s.engineStep.rxStatus s.engineStep.rxCsumHdr s.engineStep.rxLength := by
      rw [engineStep_parsed phase op whole]
      exact (latchHeader_headerAt s).congr rfl rfl
    exact header.hostReads (base := 0x2000) (.inr rfl)

end Sys2Proof.Machine
end

section
/-! SUPPORT. A running command's operands (20_memory.md R99): which buffer bytes the Engine may write, and that no event but a reset
changes another byte, TX_ID, TX_HDR.STATUS or TX_HDR.LENGTH while it runs. -/

namespace Sys2Proof.Machine

/-- The buffer bytes the running command may write: the header in TXBUF while it builds one, RXBUF while it receives. -/
def engineWrites (s : State) (a : Nat) : Prop :=
  match s.eng.phase with
  | .build => (s.eng.op = .encb ∨ s.eng.op = .enc) ∧ 0x1000 ≤ a ∧ a < 0x1008
  | .rxRaw | .rxHdr | .rxPay => 0x2000 ≤ a
  | .idle | .parse | .tx => False

/-- From `s` to `t` the operands of a command hold: TX_ID, STATUS and LENGTH, and each byte that the command in `s` may not write. -/
structure OperandsHold (s t : State) : Prop where
  txId : t.txId = s.txId
  txStatus : t.txStatus = s.txStatus
  txLength : t.txLength = s.txLength
  bytes : ∀ a, ¬ engineWrites s a → t.readByte a = s.readByte a

theorem OperandsHold.refl (s : State) : OperandsHold s s := ⟨rfl, rfl, rfl, fun _ _ => rfl⟩

/-- A step that keeps these fields keeps the operands of every command after it. -/
theorem OperandsHold.of_same {s t u : State} (h : OperandsHold s t) (txId : u.txId = t.txId) (txStatus : u.txStatus = t.txStatus)
    (txLength : u.txLength = t.txLength) (mem : u.mem = t.mem) (draws : u.draws = t.draws) : OperandsHold s u :=
  ⟨txId.trans h.txId, txStatus.trans h.txStatus, txLength.trans h.txLength,
    fun a free => (readByte_congr mem draws a).trans (h.bytes a free)⟩

theorem OperandsHold.setIrq {s t : State} (h : OperandsHold s t) (bits : BitVec 4) : OperandsHold s (t.setIrq bits) :=
  h.of_same rfl rfl rfl rfl rfl

theorem OperandsHold.respond {s t : State} (h : OperandsHold s t) (r : BusResponse) : OperandsHold s (t.respond r) :=
  h.of_same rfl rfl rfl rfl rfl

theorem OperandsHold.finishAs {s t : State} (h : OperandsHold s t) (op : BitVec 4) (c : ErrCode) (m u : Bool) :
    OperandsHold s (t.finishAs op c m u) :=
  h.of_same rfl rfl rfl rfl rfl

theorem busyError_operandsHold (s : State) : OperandsHold s s.busyError := (OperandsHold.refl s).setIrq irqBsyErr

/-! ### Host writes while a command runs -/

/-- While busy a word written to CMD is ignored (30_encoding.md R127). -/
theorem CmdCase.operandsHold {s t : State} (c : CmdCase s t) (busy : s.busy = true) : OperandsHold s t := by
  cases c with
  | ignored => exact busyError_operandsHold s
  | started idle => simp [busy] at idle
  | rejected idle => simp [busy] at idle

theorem abort_operandsHold (s : State) : OperandsHold s s.abort := by
  unfold State.abort
  split
  · exact (OperandsHold.refl s).finishAs _ _ _ _
  · exact .refl s

theorem OperandsHold.rxFlush {s t : State} (h : OperandsHold s t) : OperandsHold s t.rxFlush := by
  obtain ⟨-, ignored⟩ | ⟨-, emptied⟩ := rxFlush_case t
  · rw [ignored]
    exact h.setIrq irqBsyErr
  · rw [emptied]
    exact h.of_same rfl rfl rfl rfl rfl

/-- Of the words written to CTRL only an SRST touches the operands (43_control.md R289). -/
theorem CtrlCase.operandsHold {s t : State} {v : Word} (c : CtrlCase s v t) (noSrst : v.getLsbD 1 = false) : OperandsHold s t := by
  cases c with
  | srst h1 => cases h1.symm.trans noSrst
  | abort => exact abort_operandsHold s
  | abortFlush => exact (abort_operandsHold s).rxFlush
  | flush => exact (OperandsHold.refl s).rxFlush
  | nothing => exact .refl s

/-- While busy TX_ID and TX_HDR ignore a write; the other registers are no operands (10_state.md R43, R44). -/
theorem writeReg_operandsHold {s : State} (r : Reg) (v : Word) (busy : s.busy = true) : OperandsHold s (s.writeReg r v) := by
  cases r with
  | txId | txHdr =>
    simp only [State.writeReg, busy, if_true]
    exact busyError_operandsHold s
  | irqStatus | irqEnable | rxTimeout => exact (OperandsHold.refl s).of_same rfl rfl rfl rfl rfl
  | ctrl | cmd | status | result | xferCount | rxId | rxHdr | rxCsum | caps => exact .refl s

/-- While busy the buffers ignore a write (R88). -/
theorem writeBuf_operandsHold {s : State} (a : Offset) (size : Size) (v : Word) (busy : s.busy = true) :
    OperandsHold s (s.writeBuf a size v) := by
  rw [State.writeBuf, if_pos busy]
  exact busyError_operandsHold s

/-! ### The Engine and LinkTx -/

/-- Building a header writes TXBUF[0..8) and TX_HDR.CSUM only (40_frame_codec.md R167). -/
theorem buildHeader_operandsHold {s : State} (phase : s.eng.phase = .build) (op : s.eng.op = .encb ∨ s.eng.op = .enc) :
    OperandsHold s s.buildHeader where
  txId := buildHeader_txId s
  txStatus := buildHeader_txStatus s
  txLength := buildHeader_txLength s
  bytes a free := buildHeader_readByte s fun header => free (by simpa [engineWrites, phase, op] using header)

theorem encbBuild_operandsHold {s : State} (phase : s.eng.phase = .build) (op : s.eng.op = .encb) : OperandsHold s s.encbBuild := by
  unfold State.encbBuild
  split
  · have counted : OperandsHold s { s.buildHeader with xferCount := 8 + s.txLength } :=
      (buildHeader_operandsHold phase (.inl op)).of_same rfl rfl rfl rfl rfl
    exact counted.finishAs _ _ _ _
  · exact (OperandsHold.refl s).finishAs _ _ _ _

theorem encBuild_operandsHold {s : State} (phase : s.eng.phase = .build) (op : s.eng.op = .enc) : OperandsHold s s.encBuild := by
  unfold State.encBuild
  split
  · exact (buildHeader_operandsHold phase (.inr op)).of_same rfl rfl rfl rfl rfl
  · exact (OperandsHold.refl s).finishAs _ _ _ _

/-- Parse reads its operands only (R172). -/
theorem decbParse_operandsHold (s : State) : OperandsHold s s.decbParse := by
  unfold State.decbParse
  split
  · exact (OperandsHold.refl s).finishAs _ _ _ _
  · rw [decbPayload_eq]
    exact (OperandsHold.refl s).of_same rfl rfl rfl rfl rfl

/-- The byte taken lands in RXBUF (41_byte_transport.md R206). -/
theorem rxMoved_operandsHold {s : State} (b : Byte) (rest : List Byte)
    (phase : s.eng.phase = .rxRaw ∨ s.eng.phase = .rxHdr ∨ s.eng.phase = .rxPay) : OperandsHold s (s.rxMoved b rest) where
  txId := rfl
  txStatus := rfl
  txLength := rfl
  bytes a free := by
    have below : a < rxBase := by
      rcases phase with phase | phase | phase <;> simpa [engineWrites, phase] using free
    rw [rxMoved_readByte, if_neg (by omega)]

/-- The end of a phase writes registers of the receive side only. -/
theorem OperandsHold.phaseDone {s t : State} (h : OperandsHold s t) : OperandsHold s t.phaseDone := by
  unfold State.phaseDone
  split
  · exact h.finishAs _ _ _ _
  · unfold State.headerDone State.headerChecked
    split
    · exact h.of_same rfl rfl rfl rfl rfl
    · split <;> exact h.of_same rfl rfl rfl rfl rfl
  · exact h.of_same rfl rfl rfl rfl rfl
  all_goals exact h

theorem rxByte_operandsHold {s : State} (b : Byte) (rest : List Byte)
    (phase : s.eng.phase = .rxRaw ∨ s.eng.phase = .rxHdr ∨ s.eng.phase = .rxPay) : OperandsHold s (s.rxByte b rest) := by
  unfold State.rxByte
  split
  · exact (rxMoved_operandsHold b rest phase).phaseDone
  · exact rxMoved_operandsHold b rest phase

theorem EngineCase.operandsHold {s t : State} (c : EngineCase s t) : OperandsHold s t := by
  cases c with
  | waits => exact .refl s
  | encbBuild phase op => exact encbBuild_operandsHold phase op
  | encBuild phase op => exact encBuild_operandsHold phase op
  | decbParse => exact decbParse_operandsHold s
  | finishEmpty => exact (OperandsHold.refl s).finishAs _ _ _ _
  | rxByte b rest phase => exact rxByte_operandsHold b rest phase

theorem txEmit_operandsHold (s : State) : OperandsHold s s.txEmit := by
  unfold State.txEmit
  split <;> exact (OperandsHold.refl s).of_same rfl rfl rfl rfl rfl

theorem offerByte_operandsHold (s : State) (b : Byte) (depth : Nat) : OperandsHold s (s.offerByte b depth) := by
  unfold State.offerByte
  split <;> exact (OperandsHold.refl s).of_same rfl rfl rfl rfl rfl

/-! ### Every event -/

/-- While a command runs, an event that is no reset keeps its operands (R99). -/
theorem EventCase.operandsHold {depth : Nat} {s t : State} {e : Event} (c : EventCase depth s e t) (busy : s.busy = true)
    (noReset : e ≠ .rst true) (noSrst : ∀ v : Word, e = issue .ctrl v → v.getLsbD 1 = false) : OperandsHold s t := by
  cases c with
  | nothing => exact .refl s
  | pin => exact (OperandsHold.refl s).of_same rfl rfl rfl rfl rfl
  | hardReset => exact absurd rfl noReset
  | response _ r => exact (OperandsHold.refl s).respond r
  | cmdWord _ _ _ c => exact (c.operandsHold busy).respond .ok
  | ctrlWord v _ _ c => exact (c.operandsHold (noSrst v rfl)).respond .ok
  | regWrite _ r v => exact (writeReg_operandsHold r v busy).respond .ok
  | bufWrite a size v => exact (writeBuf_operandsHold a size v busy).respond .ok
  | engine _ _ c => exact c.operandsHold
  | txEmit => exact txEmit_operandsHold s
  | offer b => exact offerByte_operandsHold s b depth
  | timeout => exact (OperandsHold.refl s).finishAs _ _ _ _

/-! ### The bytes that a command may not write -/

/-- What the Engine may write is TXBUF[0..8) in a Build phase, or RXBUF in a receive phase. -/
theorem engineWrites_cases {s : State} {a : Nat} (h : engineWrites s a) :
    s.eng.phase = .build ∧ (s.eng.op = .encb ∨ s.eng.op = .enc) ∧ a < 0x1008 ∨ 0x2000 ≤ a := by
  unfold engineWrites at h
  split at h
  · obtain ⟨op, -, below⟩ := h
    exact .inl ⟨‹_›, op, below⟩
  · exact .inr h
  · exact .inr h
  · exact .inr h
  all_goals exact h.elim

/-- No command writes the payload bytes of TXBUF. -/
theorem not_engineWrites_payload (s : State) {a : Nat} (low : 0x1008 ≤ a) (high : a < 0x1408) : ¬ engineWrites s a := by
  intro h
  obtain ⟨-, -, below⟩ | above := engineWrites_cases h <;> omega

/-- SEND, and every transmit phase, write no byte of TXBUF. -/
theorem not_engineWrites_txBuf {s : State} (sends : s.eng.op = .send ∨ s.eng.phase = .tx) {a : Nat} (high : a < 0x1408) :
    ¬ engineWrites s a := by
  intro h
  obtain ⟨phase, op, -⟩ | above := engineWrites_cases h
  · have op_send : s.eng.op = .send := by simpa [phase] using sends
    simp [op_send] at op
  · omega

/-- DECB stays in its Parse phase, which writes no byte (30_encoding.md R128). -/
theorem not_engineWrites_decb {s : State} (consistent : engineConsistent s) (op : s.eng.op = .decb) (a : Nat) :
    ¬ engineWrites s a := by
  cases phase : s.eng.phase <;> simp [engineConsistent, engineWrites, phase, op] at consistent ⊢

/-- Settles O57: an event keeps every byte that the command may not write, and the clauses name such bytes. -/
theorem operandsHoldWhileBusy : Obligations.OperandsHoldWhileBusy := by
  unfold Obligations.OperandsHoldWhileBusy
  intro s t e phase h noReset noSrst
  have busy : s.busy = true := by simpa [State.busy] using phase
  obtain ⟨txId, txStatus, txLength, bytes⟩ := (eventCase_of h).operandsHold busy noReset noSrst
  exact ⟨txId, txStatus, txLength,
    fun a low high => bytes a (not_engineWrites_payload s low high),
    fun sends a _ high => bytes a (not_engineWrites_txBuf sends high),
    fun inv op a _ _ => bytes a (not_engineWrites_decb inv.engine op a)⟩

end Sys2Proof.Machine
end

section
/-! SUPPORT. Decoding and encoding (30_encoding.md R120 to R126, 43_control.md R289): which command words are ILLEGAL, that the decoder
and the encoder undo each other, and the settled statements about words. -/

namespace Sys2Proof

/-! ### Command words (R120 to R123) -/

/-- A command word that R123 calls ILLEGAL. -/
def IllegalWord (w : Word) : Prop :=
  ¬ (1 ≤ (opField w).toNat ∧ (opField w).toNat ≤ 6) ∨ rsvdField w ≠ 0 ∨
    (opField w = 1 ∨ opField w = 5 ∨ opField w = 6) ∧ countField w ≠ 0

/-- What the decoder reads from a word written to CMD: its ILLEGAL rejection, or the command whose word it is. -/
inductive CmdWordCase (w : Word) : Decoded → Prop
  | illegal (h : IllegalWord w) : CmdWordCase w (.illegal (opField w))
  | command (i : Instr) (legal : ¬ IllegalWord w) (port : portOf i = .cmd) (word : encode i = w) : CmdWordCase w (.instr i)

/-- The opcodes of the table are 1 to 6 (R122). -/
theorem op_out_of_table {op : BitVec 4} (h1 : op ≠ 1) (h2 : op ≠ 2) (h3 : op ≠ 3) (h4 : op ≠ 4) (h5 : op ≠ 5) (h6 : op ≠ 6) :
    ¬ (1 ≤ op.toNat ∧ op.toNat ≤ 6) := by
  revert op
  decide

theorem legal_of_counted {w : Word} (rsvd : rsvdField w = 0) (op : opField w = 2 ∨ opField w = 3 ∨ opField w = 4) :
    ¬ IllegalWord w := by
  rcases op with op | op | op <;> simp [IllegalWord, rsvd, op]

/-- The decoder's branches by RSVD and OP: each makes the word ILLEGAL or rebuilds it from its fields. -/
theorem decode_cmd_case (w : Word) : CmdWordCase w (decode .cmd w) := by
  simp only [decode, decodeCmdWord]
  split
  · exact .illegal (.inr (.inl ‹_›))
  have rsvd : rsvdField w = 0 := not_not.1 ‹_›
  have word {op : BitVec 4} {n : Half} (hop : opField w = op) (hn : countField w = n) : cmdWord op n = w := by
    rw [← hop, ← hn, cmdWord_fields rsvd]
  have plain {op : BitVec 4} (hop : opField w = op) (h : op = 1 ∨ op = 5 ∨ op = 6) (i : Instr) (port : portOf i = .cmd)
      (enc : encode i = cmdWord op 0) : CmdWordCase w (if countField w = 0 then .instr i else .illegal (opField w)) := by
    split
    · rename_i count
      refine .command i ?_ port (enc.trans (word hop count))
      rcases h with rfl | rfl | rfl <;> simp [IllegalWord, rsvd, hop, count]
    · exact .illegal (.inr (.inr ⟨hop ▸ h, ‹_›⟩))
  split
  · exact plain ‹_› (by decide) .encb rfl rfl
  split
  · exact .command _ (legal_of_counted rsvd (.inl ‹_›)) rfl (word ‹_› rfl)
  split
  · exact .command _ (legal_of_counted rsvd (.inr (.inl ‹_›))) rfl (word ‹_› rfl)
  split
  · exact .command _ (legal_of_counted rsvd (.inr (.inr ‹_›))) rfl (word ‹_› rfl)
  split
  · exact plain ‹_› (by decide) .enc rfl rfl
  split
  · exact plain ‹_› (by decide) .dec rfl rfl
  · exact .illegal (.inl (op_out_of_table ‹_› ‹_› ‹_› ‹_› ‹_› ‹_›))

theorem decode_cmd_of_illegal {w : Word} (h : IllegalWord w) : decode .cmd w = .illegal (opField w) := by
  generalize hd : decode .cmd w = d
  cases hd ▸ decode_cmd_case w with
  | illegal => rfl
  | command _ legal => exact absurd h legal

theorem decode_cmd_of_legal {w : Word} (legal : ¬ IllegalWord w) :
    ∃ i, decode .cmd w = .instr i ∧ portOf i = .cmd ∧ encode i = w := by
  generalize hd : decode .cmd w = d
  cases hd ▸ decode_cmd_case w with
  | illegal h => exact absurd h legal
  | command i _ port word => exact ⟨i, rfl, port, word⟩

/-! ### Decoding undoes encoding, and encoding decoding -/

/-- Every instruction is decoded from its word, in its one spelling (log entry 7). -/
theorem decode_encode (i : Instr) : decode (portOf i) (encode i) = .instr i.canonical := by
  cases i with
  | encb | enc | dec => decide
  | decb count | send count | recv count => simp [portOf, decode, decodeCmdWord, encode, Instr.canonical]
  | abort flush ign | srst v0 v2 ign => simp [portOf, decode, decodeCtrlWord, encode, Instr.canonical]
  | rxflush abortFirst ign => cases abortFirst <;> simp [portOf, decode, decodeCtrlWord, encode, Instr.canonical]

theorem canonical_of_wellFormed {i : Instr} (h : i.wellFormed = true) : i.canonical = i := by
  cases i with
  | rxflush abortFirst ign =>
    cases abortFirst with
    | false => rfl
    | true => simp [Instr.wellFormed] at h
  | _ => rfl

theorem canonical_of_cmd {i : Instr} (port : portOf i = .cmd) : i.canonical = i := by
  cases i with
  | rxflush => simp [portOf] at port
  | _ => rfl

/-- An action word is the word of the action it decodes to. -/
theorem encode_of_decode_ctrl {v : Word} {i : Instr} (h : decode .ctrl v = .instr i) : portOf i = .ctrl ∧ encode i = v := by
  have bits := ctrlWord_bits v
  simp only [decode, decodeCtrlWord] at h
  generalize v.getLsbD 2 = v2, v.getLsbD 1 = v1, v.getLsbD 0 = v0 at h bits
  cases v1 with
  | true =>
    cases h
    exact ⟨rfl, bits⟩
  | false =>
    cases v0 with
    | true =>
      cases h
      exact ⟨rfl, bits⟩
    | false =>
      cases v2 with
      | true =>
        cases h
        exact ⟨rfl, bits⟩
      | false => cases h

/-- Encoding what was decoded gives the word back, at the port it was written to. -/
theorem encode_of_decode {p : Port} {w : Word} {i : Instr} (h : decode p w = .instr i) : portOf i = p ∧ encode i = w := by
  cases p with
  | ctrl => exact encode_of_decode_ctrl h
  | cmd =>
    cases h ▸ decode_cmd_case w with
    | command _ _ port word => exact ⟨port, word⟩

/-- A command is decoded from its own word only. -/
theorem decode_cmd_eq_instr_iff {w : Word} {i : Instr} (port : portOf i = .cmd) : decode .cmd w = .instr i ↔ w = encode i := by
  constructor
  · exact fun h => (encode_of_decode h).2.symm
  · rintro rfl
    rw [← port, decode_encode, canonical_of_cmd port]

/-- Settles O1: decoding undoes encoding, by the form of the instruction. -/
theorem decodeOfEncodeIsTheInstruction : Obligations.DecodeOfEncodeIsTheInstruction := by
  unfold Obligations.DecodeOfEncodeIsTheInstruction
  exact fun i => ⟨decode_encode i, canonical_of_wellFormed⟩

/-- Settles O2: a command's word is made of its fields, an action's of its bits. -/
theorem encodeOfDecodeIsTheWord : Obligations.EncodeOfDecodeIsTheWord := by
  unfold Obligations.EncodeOfDecodeIsTheWord
  exact fun _ _ _ => encode_of_decode

/-- Settles O5: the decoder evaluated on each word. -/
theorem writtenOutWordsDecode : Obligations.WrittenOutWordsDecode := by
  unfold Obligations.WrittenOutWordsDecode
  decide

/-! ### The spec's `decodeCmd` (R125) -/

theorem decodeCmd_of_illegal {w : Word} (h : IllegalWord w) : decodeCmd w = .illegal := by
  have decoded : decodeCmdWord w = .illegal (opField w) := decode_cmd_of_illegal h
  rw [decodeCmd, decoded]

theorem opTakesCount_iff (op : BitVec 4) : opTakesCount op = true ↔ op = 2 ∨ op = 3 ∨ op = 4 := by
  simp [opTakesCount, or_assoc]

/-- A legal word is a COUNT error or a command, by its opcode and COUNT (R124). -/
theorem decodeCmd_of_legal {w : Word} (h : ¬ IllegalWord w) :
    decodeCmd w =
      if (opField w = 2 ∨ opField w = 3 ∨ opField w = 4) ∧ (countField w).toNat > 1032 then .countError (opField w)
      else .cmd (opField w) (countField w) := by
  obtain ⟨i, decoded, -⟩ := decode_cmd_of_legal h
  rw [decode] at decoded
  simp only [decodeCmd, decoded, Bool.and_eq_true, opTakesCount_iff, countInRange, Bool.not_eq_true', decide_eq_false_iff_not,
    Config.bufSize, Nat.not_le]

/-- Settles O3: its first two clauses make an ILLEGAL word, the other two a legal one. -/
theorem decodeCmdIsTheSpecsFunction : Obligations.DecodeCmdIsTheSpecsFunction := by
  unfold Obligations.DecodeCmdIsTheSpecsFunction
  intro w
  by_cases first : ¬ (1 ≤ (opField w).toNat ∧ (opField w).toNat ≤ 6) ∨ rsvdField w ≠ 0
  · rw [if_pos first, decodeCmd_of_illegal (first.imp id .inl)]
  by_cases second : (opField w = 1 ∨ opField w = 5 ∨ opField w = 6) ∧ countField w ≠ 0
  · rw [if_neg first, if_pos second, decodeCmd_of_illegal (.inr (.inr second))]
  · rw [if_neg first, if_neg second, decodeCmd_of_legal]
    rintro (op | rsvd | count)
    · exact first (.inl op)
    · exact first (.inr rsvd)
    · exact second count

/-! ### The match and mask pairs (R126) -/

/-- The mask of COUNT commands covers RSVD and OP. -/
theorem rsvdField_low (w : Word) : rsvdField (w &&& 0x0000FFFF#32) = rsvdField w := by
  rw [rsvdField, BitVec.extractLsb'_and]
  exact BitVec.and_allOnes

theorem opField_low (w : Word) : opField (w &&& 0x0000FFFF#32) = opField w := by
  rw [opField, BitVec.extractLsb'_and]
  exact BitVec.and_allOnes

/-- A word is under the mask of COUNT commands an opcode exactly when that is its OP field and RSVD is 0. -/
theorem low_mask_iff (w : Word) (op : BitVec 4) : w &&& 0x0000FFFF#32 = op.setWidth 32 ↔ rsvdField w = 0 ∧ opField w = op := by
  rw [← Laws.MatchesRow.cmdWord_low op 0]
  constructor
  · intro h
    have rsvd := congrArg rsvdField h
    have op := congrArg opField h
    rw [rsvdField_low, rsvdField_low, rsvdField_cmdWord] at rsvd
    rw [opField_low, opField_low, opField_cmdWord] at op
    exact ⟨rsvd, op⟩
  · rintro ⟨rsvd, rfl⟩
    rw [← cmdWord_fields rsvd, opField_cmdWord, Laws.MatchesRow.cmdWord_low, Laws.MatchesRow.cmdWord_low]

/-- A command that takes a COUNT is decoded exactly where its row matches, with the word's own COUNT. -/
theorem decode_counted_iff {w : Word} {op : BitVec 4} {i : Instr} (port : portOf i = .cmd)
    (word : encode i = cmdWord op (countField w)) : decode .cmd w = .instr i ↔ w &&& 0x0000FFFF#32 = op.setWidth 32 := by
  rw [decode_cmd_eq_instr_iff port, word, low_mask_iff]
  constructor
  · intro h
    rw [h, rsvdField_cmdWord, opField_cmdWord]
    exact ⟨rfl, rfl⟩
  · rintro ⟨rsvd, rfl⟩
    exact (cmdWord_fields rsvd).symm

/-- A command without a COUNT is decoded exactly where its row, whose mask is the whole word, matches. -/
theorem decode_plain_iff {w : Word} {i : Instr} (port : portOf i = .cmd) :
    decode .cmd w = .instr i ↔ w &&& 0xFFFFFFFF#32 = encode i := by
  rw [decode_cmd_eq_instr_iff port, show 0xFFFFFFFF#32 = BitVec.allOnes 32 from rfl, BitVec.and_allOnes]

theorem decodeCmd_eq_countError_iff (w : Word) :
    (∃ op, decodeCmd w = .countError op) ↔
      rsvdField w = 0 ∧ (opField w = 2 ∨ opField w = 3 ∨ opField w = 4) ∧ (countField w).toNat > 1032 := by
  constructor
  · rintro ⟨op, h⟩
    by_cases illegal : IllegalWord w
    · rw [decodeCmd_of_illegal illegal] at h
      cases h
    · have rsvd : rsvdField w = 0 := by_contra fun rsvd => illegal (.inr (.inl rsvd))
      rw [decodeCmd_of_legal illegal] at h
      split at h
      · exact ⟨rsvd, ‹_›⟩
      · cases h
  · rintro ⟨rsvd, op, count⟩
    exact ⟨opField w, by rw [decodeCmd_of_legal (legal_of_counted rsvd op), if_pos ⟨op, count⟩]⟩

/-- Settles O4: a row matches exactly the words of its command, and every word that is not ILLEGAL is such a word. -/
theorem matchMaskPairsTellTheMnemonic : Obligations.MatchMaskPairsTellTheMnemonic := by
  unfold Obligations.MatchMaskPairsTellTheMnemonic
  intro w
  have encb : decode .cmd w = .instr .encb ↔ w &&& 0xFFFFFFFF#32 = 0x00000001#32 := decode_plain_iff rfl
  have decb : decode .cmd w = .instr (.decb (countField w)) ↔ w &&& 0x0000FFFF#32 = 0x00000002#32 :=
    decode_counted_iff (op := 2) rfl rfl
  have send : decode .cmd w = .instr (.send (countField w)) ↔ w &&& 0x0000FFFF#32 = 0x00000003#32 :=
    decode_counted_iff (op := 3) rfl rfl
  have recv : decode .cmd w = .instr (.recv (countField w)) ↔ w &&& 0x0000FFFF#32 = 0x00000004#32 :=
    decode_counted_iff (op := 4) rfl rfl
  have enc : decode .cmd w = .instr .enc ↔ w &&& 0xFFFFFFFF#32 = 0x00000005#32 := decode_plain_iff rfl
  have dec : decode .cmd w = .instr .dec ↔ w &&& 0xFFFFFFFF#32 = 0x00000006#32 := decode_plain_iff rfl
  refine ⟨encb, decb, send, recv, enc, dec, ⟨fun illegal => ?_, fun noRow => ?_⟩, ?_⟩
  · have no_instr {i : Instr} (h : decode .cmd w = .instr i) : False := by simp [illegal] at h
    exact ⟨no_instr ∘ encb.2, no_instr ∘ decb.2, no_instr ∘ send.2, no_instr ∘ recv.2, no_instr ∘ enc.2, no_instr ∘ dec.2⟩
  · obtain ⟨no_encb, no_decb, no_send, no_recv, no_enc, no_dec⟩ := noRow
    by_contra rejected
    obtain ⟨i, -, port, rfl⟩ := decode_cmd_of_legal (mt decode_cmd_of_illegal rejected)
    cases i with
    | encb => exact no_encb Laws.MatchesRow.encb
    | decb count => exact no_decb (Laws.MatchesRow.decb count)
    | send count => exact no_send (Laws.MatchesRow.send count)
    | recv count => exact no_recv (Laws.MatchesRow.recv count)
    | enc => exact no_enc Laws.MatchesRow.enc
    | dec => exact no_dec Laws.MatchesRow.dec
    | abort | srst | rxflush => cases port
  · have low2 : w &&& 0x0000FFFF#32 = 0x00000002#32 ↔ _ := low_mask_iff w 2
    have low3 : w &&& 0x0000FFFF#32 = 0x00000003#32 ↔ _ := low_mask_iff w 3
    have low4 : w &&& 0x0000FFFF#32 = 0x00000004#32 ↔ _ := low_mask_iff w 4
    rw [decodeCmd_eq_countError_iff, low2, low3, low4, ← and_or_left, ← and_or_left, and_assoc]

end Sys2Proof
end

section
/-! SUPPORT. The step that writes a word to CMD or CTRL (30_encoding.md R127 to R129): what an idle and a busy Engine make of it, and the
settled statements about that step. -/

namespace Sys2Proof.Machine

/-! ### Acceptance -/

theorem not_busy_of_phase {s : State} (phase : s.eng.phase = .idle) : s.busy = false := by simp [State.busy, phase]

theorem not_busy_of_atRest {s : State} (rest : s.eng = Eng.idle) : s.busy = false := not_busy_of_phase (by rw [rest])

/-- An idle Engine accepts: CMD reads the word back and XFER_COUNT is 0 (R127). -/
theorem accept_idle {s : State} (idle : s.busy = false) (w : Word) (k : State → State) :
    s.accept w k = k { s with cmdLast := w, xferCount := 0 } := by
  simp [State.accept, idle]

/-- An error found at acceptance leaves its record and ERR or DONE; the Engine was at rest and stays so (R127, R305). -/
theorem finishAs_accepted {s : State} (rest : s.eng = Eng.idle) (w : Word) (op : BitVec 4) (c : ErrCode) :
    State.finishAs { s with cmdLast := w, xferCount := 0 } op c false false =
      { s with
        cmdLast := w, xferCount := 0, result := resultWord op c false false, irqStatus := s.irqStatus ||| completionIrq c } := by
  rw [State.finishAs, ← rest]

/-- A COUNT within the buffers starts its command (R121). -/
theorem startCounted_inRange (s : State) (op : EngOp) {n : Half} (inRange : n.toNat ≤ 1032) : s.startCounted op n = s.startCmd op n :=
  if_neg (Nat.not_lt.2 inRange)

/-- A COUNT above them ends it as it is accepted (R124). -/
theorem startCounted_above (s : State) (op : EngOp) {n : Half} (above : n.toNat > 1032) :
    s.startCounted op n = s.finishAs op.code .count false false :=
  if_pos above

/-- The record of an error found at acceptance has both report flags and the reserved bits beside them 0 (10_state.md R38). -/
theorem resultWord_plain (op : BitVec 4) (c : ErrCode) : (resultWord op c false false).extractLsb' 8 8 = 0 := by
  cases c <;> revert op <;> decide

/-- Settles O15: an idle Engine accepts each command and starts it by the table of R128. -/
theorem acceptedCommandStartsTheEngine : Obligations.AcceptedCommandStartsTheEngine := by
  unfold Obligations.AcceptedCommandStartsTheEngine
  intro s n phase
  have idle := not_busy_of_phase phase
  have plain (w : Word) (op : EngOp) :
      s.accept w (fun t => t.startCmd op 0) = { s with cmdLast := w, xferCount := 0, eng := startEng op 0 } :=
    accept_idle idle w _
  refine ⟨congrArg _ (plain _ .encb), congrArg _ (plain _ .enc), congrArg _ (plain _ .dec), fun inRange => ?_⟩
  have counted (w : Word) (op : EngOp) :
      s.accept w (fun t => t.startCounted op n) = { s with cmdLast := w, xferCount := 0, eng := startEng op n } := by
    rw [accept_idle idle, startCounted_inRange _ op inRange]
    rfl
  exact ⟨congrArg _ (counted _ .decb), congrArg _ (counted _ .send), congrArg _ (counted _ .recv)⟩

/-- Settles O16: an idle Engine accepts each command and ends it at once, as its COUNT is above the buffers' size. -/
theorem countAboveBufferIsRejected : Obligations.CountAboveBufferIsRejected := by
  unfold Obligations.CountAboveBufferIsRejected
  intro s n rest above
  have rejected (w : Word) (op : EngOp) : s.accept w (fun t => t.startCounted op n) =
      { s with cmdLast := w, xferCount := 0, result := resultWord op.code .count false false, irqStatus := s.irqStatus ||| 2 } := by
    rw [accept_idle (not_busy_of_atRest rest), startCounted_above _ op above]
    exact finishAs_accepted rest _ _ _
  exact ⟨congrArg _ (rejected _ .decb), congrArg _ (rejected _ .send), congrArg _ (rejected _ .recv)⟩

/-! ### Words written to CMD and CTRL -/

/-- An ILLEGAL word written while idle ends as it is accepted (R123, R127). -/
theorem cmdWrite_of_illegal {s : State} {w : Word} (rest : s.eng = Eng.idle) (illegal : IllegalWord w) :
    cmdWrite w s = .next
      { s with
        cmdLast := w, xferCount := 0, result := resultWord (opField w) .illegal false false, irqStatus := s.irqStatus ||| 2 } := by
  have rejected : cmdWrite w s = .next (s.acceptIllegal w) := by rw [cmdWrite, decode_cmd_of_illegal illegal]
  rw [rejected, State.acceptIllegal, accept_idle (not_busy_of_atRest rest)]
  exact congrArg _ (finishAs_accepted rest _ _ _)

/-- Any word written to CMD while busy only sets BSYERR (10_state.md R36). -/
theorem cmdWrite_of_busy {s : State} (busy : s.busy = true) (w : Word) : cmdWrite w s = .next s.busyError := by
  obtain ⟨t, written, c⟩ := cmdWrite_case s w
  cases c with
  | ignored => exact written
  | started idle => simp [busy] at idle
  | rejected idle => simp [busy] at idle

theorem cmdWrite_of_decode {s : State} {w : Word} {i : Instr} (h : decode .cmd w = .instr i) : cmdWrite w s = exec i s := by
  rw [cmdWrite, h]

theorem ctrlWrite_of_decode {s : State} {v : Word} {i : Instr} (h : decode .ctrl v = .instr i) : ctrlWrite v s = exec i s := by
  rw [ctrlWrite, h]

/-- A word written to CTRL that is no action does nothing (R289). -/
theorem ctrlWrite_of_no_instr {s : State} {v : Word} (h : ∀ i, decode .ctrl v ≠ .instr i) : ctrlWrite v s = .next s := by
  unfold ctrlWrite
  split
  · exact absurd ‹_› (h _)
  · rfl
  · rfl

/-- Settles O9: the word is ILLEGAL, so it ends at acceptance; the record's fields are those of `resultWord`. -/
theorem illegalWordIsRejectedAtAcceptance : Obligations.IllegalWordIsRejectedAtAcceptance := by
  unfold Obligations.IllegalWordIsRejectedAtAcceptance
  intro s w rest illegal
  obtain ⟨-, reserved⟩ := resultWord_reserved (opField w) .illegal false false
  exact ⟨resultWord (opField w) .illegal false false, resultWord_errCode .., resultWord_plain .., resultWord_op .., reserved,
    cmdWrite_of_illegal rest illegal⟩

/-- Settles O17: a busy Engine ignores the word, whatever it decodes to. -/
theorem commandWhileBusyIsIgnored : Obligations.CommandWhileBusyIsIgnored := by
  unfold Obligations.CommandWhileBusyIsIgnored
  intro s w running phase
  have busy : s.busy = true := by simpa [State.busy] using phase
  rw [run_issue .cmd w running]
  simp only [cmdWrite_of_busy busy, onNext]
  rfl

/-! ### The step -/

/-- Settles O6: the step runs the word at its port, and the port runs what the word decodes to. -/
theorem stepRunsTheDecodedInstruction : Obligations.StepRunsTheDecodedInstruction := by
  unfold Obligations.StepRunsTheDecodedInstruction
  intro s p w rest running agenda
  obtain ⟨next, -⟩ := stepRunsTheNextEvent.1 s
  rw [next _ _ agenda, run_issue p w (by simpa using running)]
  cases p with
  | cmd => exact ⟨fun i h => congrArg (onNext fun t => t.respond .ok) (cmdWrite_of_decode h), fun _ => rfl⟩
  | ctrl =>
    exact ⟨fun i h => congrArg (onNext fun t => t.respond .ok) (ctrlWrite_of_decode h),
      fun h => congrArg (onNext fun t => t.respond .ok) (ctrlWrite_of_no_instr h)⟩

/-- Settles O8: every event answers a next state, whichever is chosen. -/
theorem everyStepAnswersANextState : Obligations.EveryStepAnswersANextState := by
  unfold Obligations.EveryStepAnswersANextState
  intro s
  obtain ⟨t, run, -⟩ := runEvent_case Config.rxFifoDepth s.takeEvent s.nextEvent
  exact ⟨t, run⟩

end Sys2Proof.Machine
end

section
/-! SUPPORT. The frame codec (40_frame_codec.md): what the Build step of ENCB and ENC and the Parse step of DECB make of their operands, and
the settled statements about them. -/

namespace Sys2Proof.Machine

/-! ### The checksum (R160) -/

/-- Settles O25: the checksum is a sum, and a sum is the same in any order. -/
theorem checksumIgnoresOrder : Obligations.ChecksumIgnoresOrder := by
  unfold Obligations.ChecksumIgnoresOrder
  exact ⟨csum_toNat, fun p q perm => congrArg (BitVec.ofNat 8) (perm.map BitVec.toNat).sum_eq⟩

/-! ### The Engine's one step -/

/-- A run of the Engine's next step alone (10_state.md R31). -/
theorem runEvents_engine {s : State} {d : Nat} (running : s.rstActive = false) : runEvents [.engine] s d = .next s.engineStep :=
  runEvents_cons (run_engine running)

/-- `finish` of a command whose opcode is known (60_exceptions.md R305). -/
theorem finish_of_op {s : State} {op : EngOp} (h : s.eng.op = op) (c : ErrCode) (m u : Bool) :
    s.finish c m u =
      { s with eng := Eng.idle, result := resultWord op.code c m u, irqStatus := s.irqStatus ||| completionIrq c } := by
  subst h
  rfl

/-! ### The Build step (R165 to R167, 42_frame_pipeline.md R240) -/

/-- Building the header changes TX_HDR.CSUM and the buffers only (R167). -/
theorem buildHeader_eq (s : State) : s.buildHeader = { s with mem := s.buildHeader.mem, txCsum := csum s.txPayload } := by
  rw [State.buildHeader, writeBytes_eq]

/-- A Build step whose operands are refused ends the command with the error found (R166). -/
theorem engineStep_refused {s : State} (phase : s.eng.phase = .build) (op : s.eng.op = .encb ∨ s.eng.op = .enc)
    (refused : s.encodeError ≠ .none) : s.engineStep = s.finishPlain s.encodeError := by
  obtain op | op := op
  · rw [engineStep_encb phase op, State.encbBuild, if_neg refused]
  · rw [engineStep_enc phase op, State.encBuild, if_neg refused]

/-- Settles O19: a refused Build step is `finish` with the error of the first check that fails. -/
theorem encodeRefusesBadOperands : Obligations.EncodeRefusesBadOperands := by
  unfold Obligations.EncodeRefusesBadOperands
  intro s phase
  have ends {op : EngOp} {c : ErrCode} (running : s.eng.op = op) (build : op = .encb ∨ op = .enc) (error : s.encodeError = c)
      (bad : c ≠ .none) :
      s.engineStep =
        { s with eng := Eng.idle, result := resultWord op.code c false false, irqStatus := s.irqStatus ||| completionIrq c } := by
    rw [engineStep_refused phase (running ▸ build) (error ▸ bad), error]
    exact finish_of_op running c false false
  refine ⟨fun op => ⟨fun long => ?_, fun short status => ?_⟩, fun op => ⟨fun long => ?_, fun short status => ?_⟩⟩
  · exact ends op (.inl rfl) (encodeError_of_length long) (by decide)
  · exact ends op (.inl rfl) (encodeError_of_status short status) (by decide)
  · exact ends op (.inr rfl) (encodeError_of_length long) (by decide)
  · exact ends op (.inr rfl) (encodeError_of_status short status) (by decide)

/-- Settles O20: a Build step is `buildHeader` or `finish`, but for the fields that say how far the command is. -/
theorem buildStepFrame : Obligations.BuildStepFrame := by
  unfold Obligations.BuildStepFrame
  intro s phase op
  by_cases legal : s.encodeError = .none
  · obtain ⟨e, x, r, q, step⟩ : ∃ e x r q,
        s.engineStep = { s.buildHeader with eng := e, xferCount := x, result := r, irqStatus := q } :=
      ⟨_, _, _, _, engineStep_built phase op legal⟩
    rw [step]
    refine ⟨?_, fun a outside => buildHeader_readByte s outside⟩
    rw [buildHeader_eq]
  · rw [engineStep_refused phase op legal]
    exact ⟨rfl, fun a _ => rfl⟩

/-- A Build step of ENCB on legal operands: the header is built, and the command ends with NONE (R165). -/
theorem engineStep_encb_built {s : State} (phase : s.eng.phase = .build) (op : s.eng.op = .encb) (legal : s.encodeError = .none) :
    s.engineStep =
      { s.buildHeader with
        eng := Eng.idle, xferCount := 8 + s.txLength, result := 0x00010000, irqStatus := s.irqStatus ||| 1 } := by
  rw [engineStep_encb phase op, State.encbBuild, if_pos legal, State.encbBuilt, State.finishPlain,
    finish_of_op (op := .encb) (by simpa using op), ← buildHeader_irqStatus s]
  rfl

/-- Settles O18: acceptance leaves the operands alone, so the Build step writes their frame image. -/
theorem encbBuildsTheFrame : Obligations.EncbBuildsTheFrame := by
  unfold Obligations.EncbBuildsTheFrame
  intro s running phase short st_min st_max
  obtain ⟨accepted, -⟩ := acceptedCommandStartsTheEngine s 0 phase
  refine ⟨_, _, accepted, runEvents_engine running, ?_⟩
  have built := engineStep_encb_built (s := { s with cmdLast := 1, xferCount := 0, eng := ⟨.encb, .build, 0, 0⟩ }) rfl rfl
    (encodeError_eq_none.2 ⟨short, st_min, st_max⟩)
  rw [built]
  refine ⟨?_, ?_, ?_⟩
  · rw [buildHeader_eq]
    rfl
  · exact (buildHeader_txBytes _ s.txLength.toNat).trans (header_append_payload s)
  · exact fun a outside => buildHeader_readByte _ outside

/-! ### The Parse step (R170 to R175) -/

/-- A Parse step over 8 bytes or more latches the header it finds there, then looks at the payload (R170). -/
theorem decbParse_of_header {s : State} {id : Word} {st c : Byte} {len : Half} (whole : 8 ≤ s.eng.endIdx.toNat)
    (header : s.rxBytes 0 8 = headerBytes id st c len) :
    s.decbParse = State.decbPayload { s with rxId := id, rxStatus := st, rxCsumHdr := c, rxLength := len, xferCount := 8 } := by
  rw [State.decbParse, if_neg (Nat.not_lt.2 whole), latchHeader_of_header header]

/-- Settles O23: the checks of the Parse step, one after the other. -/
theorem decbReportsShortAndLongImages : Obligations.DecbReportsShortAndLongImages := by
  unfold Obligations.DecbReportsShortAndLongImages
  intro s id st c len phase op header
  rw [engineStep_decb phase op]
  refine ⟨fun cut => ?_, fun whole long => ?_, fun whole short cut => ?_⟩
  · rw [State.decbParse, if_pos cut]
    exact finish_of_op op .framingHdr false false
  · rw [decbParse_of_header whole header, State.decbPayload, if_pos long]
    exact finish_of_op (op := .decb) (by exact op) .length false false
  · rw [decbParse_of_header whole header, State.decbPayload, if_neg (Nat.not_lt.2 short), if_pos cut]
    exact finish_of_op (op := .decb) (by exact op) .framingPay false false

/-- The record of a DECB that succeeds: CSUM_MATCH and UNKSTAT beside the opcode (R173, R174, 10_state.md R38). -/
theorem resultWord_decb (sum c st : Byte) :
    resultWord 2 .none (sum = c) (!knownStatus st) =
      0x00020000#32 ||| (if sum = c then 0x100#32 else 0) ||| (if 1 ≤ st.toNat ∧ st.toNat ≤ 5 then 0 else 0x200#32) := by
  have reports : ∀ m u : Bool, resultWord 2 .none m u = 0x00020000#32 ||| (bif m then 0x100#32 else 0) ||| (bif u then 0x200#32 else 0) := by
    decide
  simp only [reports, ← knownStatus_iff, cond_eq_ite, Bool.not_eq_true', decide_eq_true_eq]
  cases knownStatus st <;> rfl

/-- A Parse step over a whole image: every register of the receive side takes the image's value, and the command ends with NONE (R170, R175). -/
theorem engineStep_decb_parsed {s : State} {id : Word} {st c : Byte} {len : Half} (phase : s.eng.phase = .parse) (op : s.eng.op = .decb)
    (header : s.rxBytes 0 8 = headerBytes id st c len) (short : len.toNat ≤ 1024) (whole : 8 + len.toNat ≤ s.eng.endIdx.toNat) :
    s.engineStep =
      { s with
        eng := Eng.idle, xferCount := 8 + len, rxId := id, rxStatus := st, rxCsumHdr := c, rxLength := len,
        rxCsumCalc := csum (s.rxBytes 8 len.toNat), irqStatus := s.irqStatus ||| 1,
        result := resultWord 2 .none (csum (s.rxBytes 8 len.toNat) = c) (!knownStatus st) } := by
  rw [engineStep_decb phase op, decbParse_of_header (by omega) header, State.decbPayload, if_neg (Nat.not_lt.2 short),
    if_neg (Nat.not_lt.2 whole)]
  exact finish_of_op (op := .decb) (by exact op) .none _ _

/-- Settles O22: acceptance leaves RXBUF alone and puts COUNT in `eng.end`, so the Parse step finds the image whole. -/
theorem decbParsesTheImage : Obligations.DecbParsesTheImage := by
  unfold Obligations.DecbParsesTheImage
  intro s n id st c len running phase inRange short whole header
  obtain ⟨-, -, -, counted⟩ := acceptedCommandStartsTheEngine s n phase
  obtain ⟨accepted, -⟩ := counted inRange
  have parsed := engineStep_decb_parsed
    (s := { s with cmdLast := (n.setWidth 32 <<< 16) ||| 0x2#32, xferCount := 0, eng := ⟨.decb, .parse, 0, n⟩ }) rfl rfl header short whole
  refine ⟨_, accepted, (runEvents_engine (by exact running)).trans ?_⟩
  rw [parsed, resultWord_decb]
  rfl

/-! ### Encoding, then decoding (R176) -/

/-- Buffer bytes that are a frame image: its 8 header bytes, then its payload (R162). -/
theorem rxBytes_of_frame {s : State} {id : Word} {st : Byte} {pl : List Byte} {len : Half} (fits : pl.length = len.toNat)
    (image : s.rxBytes 0 (8 + len.toNat) = frame id st pl) :
    s.rxBytes 0 8 = headerBytes id st (csum pl) len ∧ s.rxBytes 8 len.toNat = pl := by
  have parts : s.rxBytes 0 8 ++ s.rxBytes 8 len.toNat = headerBytes id st (csum pl) len ++ pl := by
    rw [frame, fits, BitVec.ofNat_toNat, BitVec.setWidth_eq] at image
    exact (readBytes_add s rxBase 8 len.toNat).symm.trans image
  exact List.append_inj parts (by simp [State.rxBytes])

/-- Settles O24: the image in RXBUF is the frame that ENCB built, so DECB finds its header and its payload there and reports them. -/
theorem decodeReproducesTheEncodedFrame : Obligations.DecodeReproducesTheEncodedFrame := by
  unfold Obligations.DecodeReproducesTheEncodedFrame
  intro s v n running phase short st_min st_max whole inRange running_v phase_v
  obtain ⟨t, u, accepted, built, -, image, -⟩ := encbBuildsTheFrame s running phase short st_min st_max
  refine ⟨t, u, accepted, built, fun placed => ?_⟩
  obtain ⟨header, payload⟩ := rxBytes_of_frame (by simp [State.txPayload, State.txBytes]) (placed.trans image)
  obtain ⟨x, accepted_v, parsed⟩ := decbParsesTheImage v n _ _ _ _ running_v phase_v inRange short whole header
  refine ⟨x, _, accepted_v, parsed, ?_, rfl, rfl, rfl, rfl, congrArg csum payload, payload⟩
  simp only [payload, if_true, st_min, st_max, and_self]
  rfl

end Sys2Proof.Machine
end

section
/-! SUPPORT. The transmit port (41_byte_transport.md R200 to R203): a LinkTx step, a run of them, and the settled statements about a byte sent,
about SEND and about a SEND that is aborted. -/

namespace Sys2Proof.Machine

/-! ### One byte -/

/-- Before the last byte a LinkTx step moves one byte (R201). -/
theorem linkTxStep_more {s : State} (phase : s.eng.phase = .tx) (more : s.eng.idx.toNat + 1 < s.eng.endIdx.toNat) :
    s.linkTxStep = s.txMoved := by
  rw [State.linkTxStep, if_pos (txValid_iff.2 ⟨phase, by omega⟩), txEmit_more more]

/-- The last byte moves and the command ends with NONE (R201). -/
theorem linkTxStep_last {s : State} (phase : s.eng.phase = .tx) (last : s.eng.idx.toNat + 1 = s.eng.endIdx.toNat) :
    s.linkTxStep = s.txMoved.finishAs s.eng.op.code .none false false := by
  rw [State.linkTxStep, if_pos (txValid_iff.2 ⟨phase, by omega⟩), txEmit_last last]

/-- A LinkTx step where no byte is offered changes nothing (log entry 3). -/
theorem linkTxStep_not_valid {s : State} (waits : s.txValid = false) : s.linkTxStep = s := by
  simp [State.linkTxStep, waits]

/-- The record of a success without flags is its opcode alone (10_state.md R38). -/
theorem resultWord_success_low (op : BitVec 4) : (resultWord op .none false false).extractLsb' 0 16 = 0 := by
  revert op
  decide

/-- Settles O28: a byte is taken before the end of the Tx phase, and the byte before the end completes the command. -/
theorem txEmitMovesOneByte : Obligations.TxEmitMovesOneByte := by
  unfold Obligations.TxEmitMovesOneByte
  intro s running
  rw [run_linkTx running]
  refine ⟨fun phase before => ⟨fun not_last => ?_, fun last => ?_⟩, fun waits => ?_⟩
  · rw [linkTxStep_more phase (by omega)]
    rfl
  · obtain ⟨-, reserved⟩ := resultWord_reserved s.eng.op.code .none false false
    refine ⟨resultWord s.eng.op.code .none false false, resultWord_success_low _, resultWord_op .., reserved, ?_⟩
    rw [linkTxStep_last phase last]
    rfl
  · have not_valid : s.txValid = false := by
      rw [Bool.eq_false_iff, ne_eq, txValid_iff]
      rintro ⟨phase, before⟩
      exact waits.elim (· phase) (by omega)
    rw [linkTxStep_not_valid not_valid]

/-! ### Many bytes -/

/-- The state once LinkTx has taken the next `k` bytes and the command still runs: txOut gains them, the index and XFER_COUNT move on. -/
def State.transmitted (s : State) (k : Nat) : State :=
  { s with
    txOut := s.txOut ++ s.txBytes s.eng.idx.toNat k
    eng := { s.eng with idx := s.eng.idx + BitVec.ofNat 16 k }
    xferCount := s.xferCount + BitVec.ofNat 16 k }

theorem transmitted_zero (s : State) : s.transmitted 0 = s := by simp [State.transmitted, State.txBytes, readBytes_zero]

/-- An index moved on by `k` without passing the end does not wrap (10_state.md R33). -/
theorem idx_add_toNat {i e : Half} {k : Nat} (within : i.toNat + k ≤ e.toNat) : (i + BitVec.ofNat 16 k).toNat = i.toNat + k := by
  have := e.isLt
  simp only [BitVec.toNat_add, BitVec.toNat_ofNat]
  omega

theorem idx_add_succ (i : Half) (k : Nat) : i + BitVec.ofNat 16 k + 1 = i + BitVec.ofNat 16 (k + 1) := by
  rw [BitVec.add_assoc, BitVec.ofNat_add]
  rfl

/-- One byte more. -/
theorem transmitted_succ {s : State} {k : Nat} (within : s.eng.idx.toNat + k ≤ s.eng.endIdx.toNat) :
    (s.transmitted k).txMoved = s.transmitted (k + 1) := by
  have next : (s.transmitted k).txData = s.readByte (txBase + s.eng.idx.toNat + k) := by
    rw [State.txData]
    simp only [State.transmitted, idx_add_toNat within, Nat.add_assoc]
    rfl
  simp only [State.txMoved, next]
  simp only [State.transmitted, State.txBytes, readBytes_succ, List.append_assoc, idx_add_succ]

/-- LinkTx steps that do not reach the end of the Tx phase (R201). -/
theorem runEvents_linkTx_before_end {s : State} {k d : Nat} (running : s.rstActive = false) (phase : s.eng.phase = .tx)
    (before : s.eng.idx.toNat + k < s.eng.endIdx.toNat) :
    runEvents (List.replicate k .linkTx) s d = .next (s.transmitted k) := by
  induction k with
  | zero => rw [transmitted_zero]; rfl
  | succ k ih =>
    have idx := idx_add_toNat (i := s.eng.idx) (e := s.eng.endIdx) (k := k) (by omega)
    have more : (s.transmitted k).eng.idx.toNat + 1 < (s.transmitted k).eng.endIdx.toNat := by
      simpa only [State.transmitted, idx] using (by omega : s.eng.idx.toNat + k + 1 < s.eng.endIdx.toNat)
    rw [List.replicate_succ', runEvents_append (ih (by omega)), runEvents_cons (run_linkTx (by exact running)), runEvents_nil,
      linkTxStep_more (s := s.transmitted k) phase more, transmitted_succ (by omega)]

/-- LinkTx steps up to the end of the Tx phase: all bytes are sent and the command ends with NONE (R201, R210). -/
theorem runEvents_linkTx_to_end {s : State} {k d : Nat} (running : s.rstActive = false) (phase : s.eng.phase = .tx)
    (some_left : 0 < k) (to_end : s.eng.idx.toNat + k = s.eng.endIdx.toNat) :
    runEvents (List.replicate k .linkTx) s d = .next ((s.transmitted k).finishAs s.eng.op.code .none false false) := by
  obtain ⟨k, rfl⟩ := Nat.exists_eq_add_of_lt some_left
  rw [Nat.zero_add] at to_end ⊢
  have idx := idx_add_toNat (i := s.eng.idx) (e := s.eng.endIdx) (k := k) (by omega)
  have last : (s.transmitted k).eng.idx.toNat + 1 = (s.transmitted k).eng.endIdx.toNat := by
    simpa only [State.transmitted, idx] using (by omega : s.eng.idx.toNat + k + 1 = s.eng.endIdx.toNat)
  rw [List.replicate_succ', runEvents_append (runEvents_linkTx_before_end running phase (by omega)),
    runEvents_cons (run_linkTx (by exact running)), runEvents_nil,
    linkTxStep_last (s := s.transmitted k) phase last, transmitted_succ (by omega)]
  rfl

/-! ### SEND -/

/-- The state in which an idle block has accepted a SEND (30_encoding.md R127, R128). -/
def State.sendAccepted (s : State) (n : Half) : State :=
  { s with cmdLast := (n.setWidth 32 <<< 16) ||| 0x3#32, xferCount := 0, eng := ⟨.send, .tx, 0, n⟩ }

theorem exec_send {s : State} {n : Half} (phase : s.eng.phase = .idle) (inRange : n.toNat ≤ 1032) :
    exec (.send n) s = .next (s.sendAccepted n) := by
  obtain ⟨-, -, -, counted⟩ := acceptedCommandStartsTheEngine s n phase
  obtain ⟨-, send, -⟩ := counted inRange
  exact send

/-- `finish(code)` of a command whose opcode is known (60_exceptions.md R305). -/
theorem finishPlain_of_op {s : State} {op : EngOp} (h : s.eng.op = op) (c : ErrCode) :
    s.finishPlain c =
      { s with eng := Eng.idle, result := resultWord op.code c false false, irqStatus := s.irqStatus ||| completionIrq c } :=
  finish_of_op h c false false

/-- A SEND or RECV of nothing ends in its next Engine step (R202). -/
theorem engineStep_finishEmpty {s : State} (phase : s.eng.phase = .tx ∨ s.eng.phase = .rxRaw) (atEnd : s.eng.idx = s.eng.endIdx) :
    s.engineStep = s.finishPlain .none := by
  obtain phase | phase := phase <;> simp only [State.engineStep, phase, atEnd, if_true, State.finishEmpty]

/-- Settles O26: the Tx phase runs over TXBUF[0..n), or has nothing to send and ends in an Engine step. -/
theorem sendTransmitsExactlyItsBytes : Obligations.SendTransmitsExactlyItsBytes := by
  unfold Obligations.SendTransmitsExactlyItsBytes
  intro s n running phase inRange
  refine ⟨_, exec_send phase inRange, ?_⟩
  split
  · next empty =>
    subst empty
    rw [runEvents_engine (by exact running), engineStep_finishEmpty (.inl rfl) rfl, finishPlain_of_op (op := .send) rfl]
    have nothing : s.txBytes 0 (0 : Half).toNat = [] := rfl
    rw [nothing, List.append_nil]
    rfl
  · next nonempty =>
    have some_left : 0 < n.toNat := Nat.pos_of_ne_zero fun zero => nonempty (BitVec.eq_of_toNat_eq zero)
    rw [runEvents_linkTx_to_end (by exact running) rfl some_left (Nat.zero_add _)]
    have counted : (0 : Half) + BitVec.ofNat 16 n.toNat = n := by simp
    simp only [State.transmitted, State.sendAccepted, counted]
    rfl

/-- An ABORT of a running command ends it with ABORTED (43_control.md R280). -/
theorem exec_abort_busy {s : State} (busy : s.busy = true) (ign : BitVec 29) :
    exec (.abort false ign) s = .next (s.finishPlain .aborted) :=
  congrArg _ (if_pos busy)

/-- Settles O27: after k bytes the Tx phase is not at its end, so the ABORT finds the command running. -/
theorem abortedSendKeepsWhatWasSent : Obligations.AbortedSendKeepsWhatWasSent := by
  unfold Obligations.AbortedSendKeepsWhatWasSent
  intro s n k ign running phase inRange before
  refine ⟨_, _, exec_send phase inRange,
    runEvents_linkTx_before_end running rfl (by exact (Nat.zero_add k).symm ▸ before), ?_⟩
  rw [exec_abort_busy rfl, finishPlain_of_op (op := .send) rfl]
  have counted : (0 : Half) + BitVec.ofNat 16 k = BitVec.ofNat 16 k := by simp
  simp only [State.transmitted, State.sendAccepted, counted]
  rfl

end Sys2Proof.Machine
end

section
/-! SUPPORT. The receive port (41_byte_transport.md R204 to R208): a byte offered, a byte taken, the timeout, runs that take many bytes, and the
settled statements about them and about RECV. -/

namespace Sys2Proof.Machine

/-! ### A byte offered (R204) -/

theorem offerByte_room {s : State} {depth : Nat} (b : Byte) (room : s.rxq.length < depth) :
    s.offerByte b depth = { s with rxq := s.rxq ++ [b] } :=
  if_pos room

theorem offerByte_full {s : State} {depth : Nat} (b : Byte) (full : depth ≤ s.rxq.length) :
    s.offerByte b depth = s.setIrq irqOvr :=
  if_neg (Nat.not_lt.2 full)

/-- Settles O30: there is room in the FIFO, or it is full. -/
theorem offeredByteIsQueuedOrDropped : Obligations.OfferedByteIsQueuedOrDropped := by
  unfold Obligations.OfferedByteIsQueuedOrDropped
  intro depth s b running
  rw [run_linkRx b running]
  exact ⟨fun room => congrArg _ (offerByte_room b room), fun full => congrArg _ (offerByte_full b full)⟩

/-! ### The timeout (R207) -/

theorem timerEnabled_iff {s : State} : s.timerEnabled = true ↔ s.receiving = true ∧ s.rxq = [] ∧ s.rxTimeout ≠ 0 := by
  simp [State.timerEnabled, and_assoc]

theorem timerStep_enabled {s : State} (enabled : s.timerEnabled = true) : s.timerStep = s.timeout := if_pos enabled

/-- A Timer step that is not enabled changes nothing (log entry 3). -/
theorem timerStep_not_enabled {s : State} (h : s.timerEnabled = false) : s.timerStep = s := by
  simp [State.timerStep, h]

/-- A phase that takes no bytes, or is at its end, has no timeout. -/
theorem timerEnabled_of_not_receiving {s : State} (h : s.receiving = false) : s.timerEnabled = false := by
  simp [State.timerEnabled, h]

/-- The timeout of a waiting receive phase is a completion with the phase's code; XFER_COUNT, the bytes and the FIFO stay (R207). -/
theorem timerStep_of_waiting {s : State} {op : EngOp} {phase : Phase} (eng : s.eng = ⟨op, phase, s.eng.idx, s.eng.endIdx⟩)
    (receives : phase.receives = true) (before : s.eng.idx.toNat < s.eng.endIdx.toNat) (empty : s.rxq = [])
    (timeout : s.rxTimeout ≠ 0) :
    s.timerStep =
      { s with
        eng := Eng.idle, result := resultWord op.code (timeoutCode phase) false false,
        irqStatus := s.irqStatus ||| completionIrq (timeoutCode phase) } := by
  have op_eq : s.eng.op = op := by rw [eng]
  have phase_eq : s.eng.phase = phase := by rw [eng]
  have enabled : s.timerEnabled = true :=
    timerEnabled_iff.2 ⟨receiving_iff.2 ⟨phase_eq ▸ receives, before⟩, empty, timeout⟩
  rw [timerStep_enabled enabled, State.timeout, phase_eq]
  exact finish_of_op op_eq _ _ _

/-- Settles O33: a waiting phase ends with its own code; each other state lacks a condition of the Timer's. -/
theorem timeoutEndsAReceive : Obligations.TimeoutEndsAReceive := by
  unfold Obligations.TimeoutEndsAReceive
  intro s running
  rw [run_timer running]
  refine ⟨fun before empty timeout => ⟨fun eng => ?_, fun eng => ?_, fun eng => ?_⟩, fun disabled => ?_⟩
  · exact congrArg _ (timerStep_of_waiting eng rfl before empty timeout)
  · exact congrArg _ (timerStep_of_waiting eng rfl before empty timeout)
  · exact congrArg _ (timerStep_of_waiting eng rfl before empty timeout)
  · have not_enabled : s.timerEnabled = false := by
      rw [Bool.eq_false_iff, ne_eq, timerEnabled_iff, receiving_iff]
      rintro ⟨⟨receives, before⟩, empty, timeout⟩
      obtain zero | queued | past | phase | phase | phase | phase := disabled
      · exact timeout zero
      · exact queued empty
      · omega
      all_goals simp [phase, Phase.receives] at receives
    rw [timerStep_not_enabled not_enabled]

/-! ### The frame of a byte taken (R206) -/

/-- From `s` to `t` the receive side moved on: nothing changed but the fields a receiving command writes, and of the buffers RXBUF[idx]. -/
structure ReceiveFrame (s t : State) : Prop where
  same :
    t = { s with
          eng := t.eng, xferCount := t.xferCount, rxq := t.rxq, mem := t.mem, rxId := t.rxId, rxStatus := t.rxStatus,
          rxCsumHdr := t.rxCsumHdr, rxLength := t.rxLength, rxCsumCalc := t.rxCsumCalc, result := t.result,
          irqStatus := t.irqStatus }
  bytes : ∀ a, a ≠ rxBase + s.eng.idx.toNat → t.readByte a = s.readByte a

theorem ReceiveFrame.refl (s : State) : ReceiveFrame s s := ⟨rfl, fun _ _ => rfl⟩

theorem ReceiveFrame.finishAs {s t : State} (f : ReceiveFrame s t) (op : BitVec 4) (c : ErrCode) (m u : Bool) :
    ReceiveFrame s (t.finishAs op c m u) :=
  ⟨by rw [f.same]; rfl, f.bytes⟩

theorem ReceiveFrame.rxMoved (s : State) (b : Byte) (rest : List Byte) : ReceiveFrame s (s.rxMoved b rest) where
  same := rfl
  bytes a other := by rw [rxMoved_readByte, if_neg other]

theorem ReceiveFrame.decodeDone {s t : State} (f : ReceiveFrame s t) : ReceiveFrame s t.decodeDone :=
  ⟨by rw [f.same]; rfl, f.bytes⟩

theorem ReceiveFrame.headerDone {s t : State} (f : ReceiveFrame s t) : ReceiveFrame s t.headerDone := by
  have latched : ReceiveFrame s t.latchHeader := ⟨by rw [f.same]; rfl, f.bytes⟩
  unfold State.headerDone State.headerChecked
  split
  · exact latched.finishAs _ _ _ _
  · split
    · exact latched.decodeDone
    · exact ⟨by rw [latched.same], latched.bytes⟩

theorem ReceiveFrame.phaseDone {s t : State} (f : ReceiveFrame s t) : ReceiveFrame s t.phaseDone := by
  unfold State.phaseDone
  split
  · exact f.finishAs _ _ _ _
  · exact f.headerDone
  · exact f.decodeDone
  all_goals exact f

theorem rxByte_frame (s : State) (b : Byte) (rest : List Byte) : ReceiveFrame s (s.rxByte b rest) := by
  unfold State.rxByte
  split
  · exact (ReceiveFrame.rxMoved s b rest).phaseDone
  · exact .rxMoved s b rest

theorem engineStep_receiveFrame {s : State} (phase : s.eng.phase = .rxRaw ∨ s.eng.phase = .rxHdr ∨ s.eng.phase = .rxPay) :
    ReceiveFrame s s.engineStep := by
  have step := engineStep_case s
  generalize s.engineStep = t at step
  cases step with
  | waits => exact .refl s
  | encbBuild build => simp [build] at phase
  | encBuild build => simp [build] at phase
  | decbParse parse => simp [parse] at phase
  | finishEmpty => exact (ReceiveFrame.refl s).finishAs _ _ _ _
  | rxByte b rest => exact rxByte_frame s b rest

/-- Settles O41: the step waits, finishes or takes a byte, and each of these keeps to the frame. -/
theorem receiveStepFrame : Obligations.ReceiveStepFrame := by
  unfold Obligations.ReceiveStepFrame
  intro s phase
  obtain ⟨same, bytes⟩ := engineStep_receiveFrame phase
  exact ⟨same, bytes⟩

/-! ### Many bytes -/

/-- The state once a receiving command has moved the bytes `bs` into RXBUF and left `rest` in the FIFO; what the end of a phase does is not
in it. -/
def State.received (s : State) (bs rest : List Byte) : State :=
  { s with
    mem := (s.writeBytes (rxBase + s.eng.idx.toNat) bs).mem
    rxq := rest
    eng := { s.eng with idx := s.eng.idx + BitVec.ofNat 16 bs.length }
    xferCount := s.xferCount + BitVec.ofNat 16 bs.length }

/-- What RxByte does once its byte has moved: the end of the phase, where it is reached (R206). -/
def State.phaseChecked (s : State) : State := if s.eng.idx = s.eng.endIdx then s.phaseDone else s

theorem rxByte_eq (s : State) (b : Byte) (rest : List Byte) : s.rxByte b rest = (s.rxMoved b rest).phaseChecked := rfl

theorem phaseChecked_before {s : State} (before : s.eng.idx.toNat < s.eng.endIdx.toNat) : s.phaseChecked = s :=
  if_neg fun atEnd => by simp [atEnd] at before

theorem phaseChecked_atEnd {s : State} (atEnd : s.eng.idx = s.eng.endIdx) : s.phaseChecked = s.phaseDone := if_pos atEnd

theorem received_nil (s : State) : s.received [] s.rxq = s := by simp [State.received, State.writeBytes]

/-- The memory after a list of writes is made from the memory before it. -/
theorem writeBytes_mem_congr {s t : State} (mem : s.mem = t.mem) (a : Nat) (bs : List Byte) :
    (s.writeBytes a bs).mem = (t.writeBytes a bs).mem := by
  induction bs generalizing s t a with
  | nil => exact mem
  | cons b bs ih => exact ih (by simp only [writeByte_mem, mem]) (a + 1)

/-- One byte, then the others. -/
theorem rxMoved_received {s : State} (b : Byte) (q bs rest : List Byte) (before : s.eng.idx.toNat < s.eng.endIdx.toNat) :
    (s.rxMoved b q).received bs rest = s.received (b :: bs) rest := by
  have mem : ((s.rxMoved b q).writeBytes (rxBase + (s.rxMoved b q).eng.idx.toNat) bs).mem =
      (s.writeBytes (rxBase + s.eng.idx.toNat) (b :: bs)).mem := by
    rw [rxMoved_eng, idx_succ_toNat before, State.writeBytes]
    exact writeBytes_mem_congr (s := s.rxMoved b q) (t := s.writeByte (rxBase + s.eng.idx.toNat) b) rfl _ bs
  have count : ∀ i : Half, i + 1 + BitVec.ofNat 16 bs.length = i + BitVec.ofNat 16 (b :: bs).length := fun i => by
    rw [List.length_cons, Nat.add_comm, BitVec.add_assoc, BitVec.ofNat_add]
    rfl
  simp only [State.received, mem]
  simp only [rxMoved_eng, rxMoved_xferCount, count]
  rfl

/-- A byte taken, then a run that takes the others: at the end of the phase there are no others (R206). -/
theorem runEvents_rxByte {s : State} {b : Byte} {q bs rest : List Byte} {es : List Event} {d : Nat}
    (before : s.eng.idx.toNat < s.eng.endIdx.toNat) (fits : s.eng.idx.toNat + (bs.length + 1) ≤ s.eng.endIdx.toNat)
    (done : bs = [] → es = [] ∧ q = rest)
    (others : (s.rxMoved b q).eng.idx.toNat < s.eng.endIdx.toNat →
      (s.rxMoved b q).eng.idx.toNat + bs.length ≤ s.eng.endIdx.toNat →
      runEvents es (s.rxMoved b q) d = .next ((s.rxMoved b q).received bs rest).phaseChecked) :
    runEvents es (s.rxByte b q) d = .next (s.received (b :: bs) rest).phaseChecked := by
  have next : (s.rxMoved b q).eng.idx.toNat = s.eng.idx.toNat + 1 := idx_succ_toNat before
  rw [← rxMoved_received b q bs rest before]
  by_cases more : s.eng.idx.toNat + 1 < s.eng.endIdx.toNat
  · rw [rxByte_more b q more]
    exact others (by omega) (by omega)
  · obtain rfl : bs = [] := List.eq_nil_of_length_eq_zero (by omega)
    obtain ⟨rfl, rfl⟩ := done rfl
    have nothing : (s.rxMoved b q).received [] q = s.rxMoved b q := received_nil _
    rw [nothing, rxByte_eq, runEvents_nil]

/-- Bytes that arrive at an empty FIFO while the command runs, each taken as it comes (R204, R206). -/
theorem runEvents_arriving {s : State} {bs : List Byte} {d : Nat} (holds : 0 < d) (running : s.rstActive = false)
    (receives : s.eng.phase.receives = true) (before : s.eng.idx.toNat < s.eng.endIdx.toNat)
    (fits : s.eng.idx.toNat + bs.length ≤ s.eng.endIdx.toNat) (empty : s.rxq = []) :
    runEvents (bs.flatMap fun b => [.linkRx b, .engine]) s d = .next (s.received bs []).phaseChecked := by
  induction bs generalizing s with
  | nil =>
    have nothing : s.received [] [] = s := empty ▸ received_nil s
    rw [nothing, phaseChecked_before before]
    rfl
  | cons b bs ih =>
    have offered : s.offerByte b d = { s with rxq := [b] } := by
      rw [offerByte_room b (by simpa [empty] using holds), empty, List.nil_append]
    have taken : State.engineStep { s with rxq := [b] } = s.rxByte b [] :=
      engineStep_rxByte (receiving_iff.2 ⟨receives, before⟩) rfl
    rw [List.flatMap_cons, List.cons_append, List.cons_append, List.nil_append, runEvents_cons (run_linkRx b running), offered,
      runEvents_cons (run_engine (by exact running)), taken]
    refine runEvents_rxByte before fits ?_ fun before fits => ih running receives before fits rfl
    rintro rfl
    exact ⟨rfl, rfl⟩

/-- Bytes queued, then bytes that arrive, each taken as it comes, up to the end of the phase at most. Bytes behind those queued stay in the
FIFO, where none arrive (R204 to R206). -/
theorem runEvents_queued_arriving {s : State} {queued arriving rest : List Byte} {d : Nat} (holds : 0 < d)
    (running : s.rstActive = false) (receives : s.eng.phase.receives = true) (before : s.eng.idx.toNat < s.eng.endIdx.toNat)
    (fits : s.eng.idx.toNat + (queued ++ arriving).length ≤ s.eng.endIdx.toNat) (fifo : s.rxq = queued ++ rest)
    (alone : arriving = [] ∨ rest = []) :
    runEvents (List.replicate queued.length .engine ++ arriving.flatMap fun b => [.linkRx b, .engine]) s d =
      .next (s.received (queued ++ arriving) rest).phaseChecked := by
  induction queued generalizing s with
  | nil =>
    obtain rfl | rfl := alone
    · have nothing : s.received [] rest = s := by rw [← List.nil_append rest, ← fifo, received_nil]
      rw [List.append_nil, nothing, phaseChecked_before before]
      rfl
    · exact runEvents_arriving holds running receives before fits fifo
  | cons b queued ih =>
    rw [List.length_cons, List.replicate_succ, List.cons_append, runEvents_cons (run_engine running),
      engineStep_rxByte (receiving_iff.2 ⟨receives, before⟩) fifo]
    refine runEvents_rxByte before fits (fun nothing => ?_) fun before fits => ih running receives before fits rfl
    obtain ⟨rfl, rfl⟩ := List.append_eq_nil_iff.1 nothing
    exact ⟨rfl, rfl⟩

/-! ### RECV -/

/-- The state in which an idle block has accepted a RECV (30_encoding.md R127, R128). -/
def State.recvAccepted (s : State) (n : Half) : State :=
  { s with cmdLast := (n.setWidth 32 <<< 16) ||| 0x4#32, xferCount := 0, eng := ⟨.recv, .rxRaw, 0, n⟩ }

theorem exec_recv {s : State} {n : Half} (phase : s.eng.phase = .idle) (inRange : n.toNat ≤ 1032) :
    exec (.recv n) s = .next (s.recvAccepted n) := by
  obtain ⟨-, -, -, counted⟩ := acceptedCommandStartsTheEngine s n phase
  obtain ⟨-, -, recv⟩ := counted inRange
  exact recv

/-- The state after a RECV that stored `bs` and left `rest` queued (R211). -/
def State.recvFinished (s : State) (n : Half) (bs rest : List Byte) : State :=
  { s with
    eng := Eng.idle, cmdLast := (n.setWidth 32 <<< 16) ||| 0x4#32, xferCount := n, rxq := rest, result := 0x00040000,
    irqStatus := s.irqStatus ||| 1, mem := (s.writeBytes rxBase bs).mem }

/-- RECV's phase ends with its last byte (R211). -/
theorem recvAccepted_received {s : State} {n : Half} {bs : List Byte} (all : bs.length = n.toNat) (rest : List Byte) :
    ((s.recvAccepted n).received bs rest).phaseChecked = s.recvFinished n bs rest := by
  have counted : (0 : Half) + BitVec.ofNat 16 bs.length = n := by simp [all]
  have mem : ((s.recvAccepted n).writeBytes rxBase bs).mem = (s.writeBytes rxBase bs).mem :=
    writeBytes_mem_congr (s := s.recvAccepted n) (t := s) rfl _ bs
  have ends : ((s.recvAccepted n).received bs rest).phaseDone = ((s.recvAccepted n).received bs rest).finishPlain .none := rfl
  rw [phaseChecked_atEnd (by exact counted), ends, finishPlain_of_op (op := .recv) rfl, State.recvFinished, ← mem]
  simp only [State.received, State.recvAccepted, counted]
  rfl

/-- The buffers after a RECV are those after its writes. -/
theorem recvFinished_readByte_eq (s : State) (n : Half) (bs rest : List Byte) (a : Nat) :
    (s.recvFinished n bs rest).readByte a = (s.writeBytes rxBase bs).readByte a :=
  readByte_congr (s := s.recvFinished n bs rest) (t := s.writeBytes rxBase bs) rfl (writeBytes_draws s rxBase bs).symm a

theorem recvFinished_rxBytes (s : State) {n : Half} {bs : List Byte} (all : bs.length = n.toNat) (rest : List Byte) :
    (s.recvFinished n bs rest).rxBytes 0 n.toNat = bs := by
  rw [State.rxBytes, ← all]
  exact (readBytes_congr fun k _ => recvFinished_readByte_eq s n bs rest (rxBase + k)).trans (readBytes_writeBytes s rxBase bs)

theorem recvFinished_readByte (s : State) {n : Half} {bs : List Byte} (all : bs.length = n.toNat) (rest : List Byte) {a : Nat}
    (outside : ¬ (0x2000 ≤ a ∧ a < 0x2000 + n.toNat)) : (s.recvFinished n bs rest).readByte a = s.readByte a := by
  rw [recvFinished_readByte_eq, readByte_writeBytes_outside s (by rwa [all])]

/-- A RECV of one byte or more, its bytes queued or arriving (R211). -/
theorem runEvents_recvAccepted {s : State} {n : Half} {queued arriving rest : List Byte} (running : s.rstActive = false)
    (nonempty : n ≠ 0) (all : (queued ++ arriving).length = n.toNat) (fifo : s.rxq = queued ++ rest)
    (alone : arriving = [] ∨ rest = []) :
    runEvents (List.replicate queued.length .engine ++ arriving.flatMap fun b => [.linkRx b, .engine]) (s.recvAccepted n) =
      .next (s.recvFinished n (queued ++ arriving) rest) := by
  have some_left : 0 < n.toNat := Nat.pos_of_ne_zero fun zero => nonempty (BitVec.eq_of_toNat_eq zero)
  rw [← recvAccepted_received all]
  exact runEvents_queued_arriving (by decide) running rfl some_left (by exact (Nat.zero_add _).trans_le all.le) fifo alone

/-- Settles O31: the receive phase runs over RXBUF[0..n), or has nothing to take and ends in an Engine step. -/
theorem recvStoresExactlyItsBytes : Obligations.RecvStoresExactlyItsBytes := by
  unfold Obligations.RecvStoresExactlyItsBytes
  constructor
  · intro s n bs rest running phase inRange all fifo
    refine ⟨_, s.recvFinished n bs rest, exec_recv phase inRange, ?_, rfl, recvFinished_rxBytes s all rest,
      fun a => recvFinished_readByte s all rest⟩
    split
    · next empty =>
      subst empty
      obtain rfl : bs = [] := List.eq_nil_of_length_eq_zero all
      rw [runEvents_engine (by exact running), engineStep_finishEmpty (.inr rfl) rfl, finishPlain_of_op (op := .recv) rfl]
      rw [List.nil_append] at fifo
      subst fifo
      rfl
    · next nonempty =>
      have run := runEvents_recvAccepted (arriving := []) running nonempty (by rwa [List.append_nil]) fifo (.inl rfl)
      rwa [List.flatMap_nil, List.append_nil, List.append_nil, all] at run
  · intro s n queued arriving running phase inRange nonempty all fifo
    have all : (queued ++ arriving).length = n.toNat := by rwa [List.length_append]
    refine ⟨_, s.recvFinished n (queued ++ arriving) [], exec_recv phase inRange, ?_, rfl, recvFinished_rxBytes s all [],
      fun a => recvFinished_readByte s all []⟩
    exact runEvents_recvAccepted running nonempty all (by rwa [List.append_nil]) (.inr rfl)

end Sys2Proof.Machine
end

section
/-! SUPPORT. What one event does while a command runs, said once (10_state.md R31, 43_control.md R281): it leaves the command where it is, or it
is a step of the command's own, or it ends the command; and the settled statements about an offered byte and about the endings of RECV. -/

namespace Sys2Proof.Machine

/-- From `s` to `t` the running command is where it was: the Engine, XFER_COUNT and the buffers are kept, and the FIFO and RX_TIMEOUT but for
a byte that LinkRx offers and a host write of RX_TIMEOUT. -/
structure Undisturbed (s : State) (e : Event) (t : State) : Prop where
  eng : t.eng = s.eng
  mem : t.mem = s.mem
  draws : t.draws = s.draws
  rxq : t.rxq = s.rxq ∨ ∃ b, e = .linkRx b ∧ t.rxq = s.rxq ++ [b]
  rxTimeout : t.rxTimeout = s.rxTimeout ∨ ∃ v, e = .host (.write 0x1C .word v) ∧ t.rxTimeout = v

theorem Undisturbed.of_same {s t : State} (e : Event) (eng : t.eng = s.eng) (mem : t.mem = s.mem) (draws : t.draws = s.draws)
    (rxq : t.rxq = s.rxq) (rxTimeout : t.rxTimeout = s.rxTimeout) : Undisturbed s e t :=
  ⟨eng, mem, draws, .inl rxq, .inl rxTimeout⟩

theorem Undisturbed.refl (s : State) (e : Event) : Undisturbed s e s := .of_same e rfl rfl rfl rfl rfl

theorem busyError_undisturbed (s : State) (e : Event) : Undisturbed s e (s.busyError.respond .ok) := .of_same e rfl rfl rfl rfl rfl

/-- A byte offered by the Engine is the same byte still. -/
theorem Undisturbed.txValid_txData {s t : State} {e : Event} (u : Undisturbed s e t) (valid : s.txValid = true) :
    t.txValid = true ∧ t.txData = s.txData := by
  rw [txValid_iff, State.txData, State.txData, u.eng]
  exact ⟨txValid_iff.1 valid, readByte_congr u.mem u.draws _⟩

/-- What one event does while a command runs. -/
inductive BusyCase (s : State) : Event → State → Prop
  | undisturbed {e : Event} {t : State} (u : Undisturbed s e t) : BusyCase s e t
  | engine (running : s.rstActive = false) : BusyCase s .engine s.engineStep
  | txEmit (running : s.rstActive = false) (valid : s.txValid = true) : BusyCase s .linkTx s.txEmit
  | timeout (enabled : s.timerEnabled = true) : BusyCase s .timer s.timeout
  | aborted (v : Word) (noSrst : v.getLsbD 1 = false) (abort : v.getLsbD 0 = true) (q : List Byte) :
      BusyCase s (issue .ctrl v) { s.finishPlain .aborted with rxq := q, busResp := some .ok }
  | srst (v : Word) (h1 : v.getLsbD 1 = true) : BusyCase s (issue .ctrl v) (s.softReset.respond .ok)
  | hardReset : BusyCase s (.rst true) { s.hardReset with rstActive := true }

theorem CtrlCase.busyCase {s t : State} {v : Word} (c : CtrlCase s v t) (busy : s.busy = true) :
    BusyCase s (issue .ctrl v) (t.respond .ok) := by
  have ends : s.abort = s.finishPlain .aborted := if_pos busy
  have ignores : s.rxFlush = s.busyError := if_pos busy
  cases c with
  | srst h1 => exact .srst v h1
  | abort h1 h0 =>
    rw [ends]
    exact .aborted v h1 h0 s.rxq
  | abortFlush h1 h0 =>
    have flushes : (s.finishPlain .aborted).rxFlush = { s.finishPlain .aborted with rxq := [] } := rfl
    rw [ends, flushes]
    exact .aborted v h1 h0 []
  | flush =>
    rw [ignores]
    exact .undisturbed (busyError_undisturbed s _)
  | nothing => exact .undisturbed (.of_same _ rfl rfl rfl rfl rfl)

theorem regAt_rxTimeout {a : Offset} (h : regAt a.toNat = some .rxTimeout) : a = 0x1C := by
  have only : ∀ n < 0x38, regAt n = some .rxTimeout → n = 0x1C := by decide
  exact BitVec.eq_of_toNat_eq (only a.toNat (lt_of_regAt h) h)

/-- While busy a register write leaves the command where it is (10_state.md R40 to R44). -/
theorem writeReg_undisturbed {s : State} {a : Offset} {r : Reg} (v : Word) (at_ : regAt a.toNat = some r) (busy : s.busy = true) :
    Undisturbed s (.host (.write a .word v)) ((s.writeReg r v).respond .ok) := by
  cases r with
  | rxTimeout =>
    rw [regAt_rxTimeout at_]
    exact ⟨rfl, rfl, rfl, .inl rfl, .inr ⟨v, rfl, rfl⟩⟩
  | txId | txHdr =>
    simp only [State.writeReg, busy, if_true]
    exact busyError_undisturbed s _
  | irqStatus | irqEnable => exact .of_same _ rfl rfl rfl rfl rfl
  | ctrl | cmd | status | result | xferCount | rxId | rxHdr | rxCsum | caps => exact .of_same _ rfl rfl rfl rfl rfl

theorem offerByte_undisturbed (s : State) (b : Byte) (depth : Nat) : Undisturbed s (.linkRx b) (s.offerByte b depth) := by
  unfold State.offerByte
  split
  · exact ⟨rfl, rfl, rfl, .inr ⟨b, rfl, rfl⟩, .inl rfl⟩
  · exact .of_same _ rfl rfl rfl rfl rfl

/-- Every event, while a command runs, is one of `BusyCase`. -/
theorem busyCase_of {depth : Nat} {s t : State} {e : Event} (h : runEvent e s depth = .next t) (busy : s.busy = true) :
    BusyCase s e t := by
  cases eventCase_of h with
  | nothing => exact .undisturbed (.refl s _)
  | pin => exact .undisturbed (.of_same _ rfl rfl rfl rfl rfl)
  | hardReset => exact .hardReset
  | response => exact .undisturbed (.of_same _ rfl rfl rfl rfl rfl)
  | cmdWord _ _ _ c =>
    cases c with
    | ignored => exact .undisturbed (busyError_undisturbed s _)
    | started idle => simp [busy] at idle
    | rejected idle => simp [busy] at idle
  | ctrlWord _ _ _ c => exact c.busyCase busy
  | regWrite _ _ v _ at_ => exact .undisturbed (writeReg_undisturbed v at_ busy)
  | bufWrite =>
    rw [State.writeBuf, if_pos busy]
    exact .undisturbed (busyError_undisturbed s _)
  | engine _ running =>
    rw [run_engine running] at h
    cases h
    exact .engine running
  | txEmit running valid => exact .txEmit running valid
  | offer b => exact .undisturbed (offerByte_undisturbed s b depth)
  | timeout _ enabled => exact .timeout enabled

/-! ### A transmission that waits (R203) -/

theorem busy_of_phase {s : State} {p : Phase} (phase : s.eng.phase = p) (runs : p ≠ .idle) : s.busy = true := by
  simpa [State.busy, phase] using runs

/-- While a byte is offered the Engine has no step (R203). -/
theorem engineStep_of_txValid {s : State} (valid : s.txValid = true) : s.engineStep = s := by
  obtain ⟨phase, before⟩ := txValid_iff.1 valid
  have not_end : s.eng.idx ≠ s.eng.endIdx := fun atEnd => by simp [atEnd] at before
  exact engineStep_of_not_enabled (by simpa [State.engineEnabled, phase] using not_end)

/-- A transmit phase takes no byte, so it has no timeout. -/
theorem timerEnabled_of_txValid {s : State} (valid : s.txValid = true) : s.timerEnabled = false :=
  timerEnabled_of_not_receiving (by simp [State.receiving, (txValid_iff.1 valid).1, Phase.receives])

/-- A command without a step of its own is moved by an ABORT, an SRST or a hardware reset only (43_control.md R281). -/
theorem BusyCase.undisturbed_of_stalled {s t : State} {e : Event} (c : BusyCase s e t) (engine : s.engineStep = s)
    (timer : s.timerEnabled = false) (linkTx : e = .linkTx → s.txValid = false) (notEnded : ¬ endsFromOutside e) :
    Undisturbed s e t := by
  cases c with
  | undisturbed u => exact u
  | engine =>
    rw [engine]
    exact .refl s _
  | txEmit _ valid => simp [linkTx rfl] at valid
  | timeout enabled => simp [timer] at enabled
  | aborted v _ abort => exact absurd (.inr ⟨v, rfl, .inl abort⟩) notEnded
  | srst v h1 => exact absurd (.inr ⟨v, rfl, .inr h1⟩) notEnded
  | hardReset => exact absurd (.inl rfl) notEnded

/-- The events that may take or withdraw an offered byte are LinkTx, ABORT, SRST and the hardware reset (R203). -/
theorem BusyCase.undisturbed_of_txValid {s t : State} {e : Event} (c : BusyCase s e t) (valid : s.txValid = true)
    (notTaken : e ≠ .linkTx) (notEnded : ¬ endsFromOutside e) : Undisturbed s e t :=
  c.undisturbed_of_stalled (engineStep_of_txValid valid) (timerEnabled_of_txValid valid) (fun taken => absurd taken notTaken) notEnded

/-- Settles O29: none of these events takes or withdraws the byte. -/
theorem offeredByteIsStable : Obligations.OfferedByteIsStable := by
  unfold Obligations.OfferedByteIsStable
  intro s t e valid notTaken noReset noEnd h
  have notEnded : ¬ endsFromOutside e := by
    rintro (reset | ⟨v, rfl, bits⟩)
    · exact noReset reset
    · obtain ⟨noAbort, noSrst⟩ := noEnd v rfl
      rw [noAbort, noSrst] at bits
      simp at bits
  have busy := busy_of_phase (txValid_iff.1 valid).1 (by decide)
  exact ((busyCase_of h busy).undisturbed_of_txValid valid notTaken notEnded).txValid_txData valid

/-! ### The endings of RECV (R212) -/

/-- An Engine step that ends RECV is the one of its last byte, or that of a RECV of nothing. -/
theorem engineStep_recv_ends {s : State} (consistent : engineConsistent s) (phase : s.eng.phase = .rxRaw)
    (ends : s.engineStep.eng.phase = .idle) :
    s.engineStep.xferCount = s.eng.endIdx ∧ s.engineStep.result = 0x00040000 := by
  simp only [engineConsistent, phase] at consistent
  obtain ⟨op, -, -, xfer⟩ := consistent
  have step := engineStep_case s
  generalize s.engineStep = t at step ends
  cases step with
  | waits => simp [phase] at ends
  | encbBuild build => simp [build] at phase
  | encBuild build => simp [build] at phase
  | decbParse parse => simp [parse] at phase
  | finishEmpty _ atEnd =>
    rw [State.finishEmpty, finishPlain_of_op op]
    exact ⟨xfer.trans atEnd, rfl⟩
  | rxByte b rest _ before =>
    by_cases more : s.eng.idx.toNat + 1 < s.eng.endIdx.toNat
    · rw [rxByte_more b rest more] at ends
      simp [phase] at ends
    · have last : s.eng.idx + 1 = s.eng.endIdx := (idx_succ_eq_iff before).2 (by omega)
      have done : s.rxByte b rest = (s.rxMoved b rest).finishPlain .none := by
        rw [rxByte_eq, phaseChecked_atEnd last]
        simp only [State.phaseDone, rxMoved_eng, phase, State.recvDone]
      rw [done, finishPlain_of_op (s := s.rxMoved b rest) op]
      exact ⟨by rw [← last, ← xfer]; rfl, rfl⟩

/-- Settles O32: the events that leave a RECV idle, each with its count and its record. -/
theorem recvSucceedsOnlyWithAllItsBytes : Obligations.RecvSucceedsOnlyWithAllItsBytes := by
  unfold Obligations.RecvSucceedsOnlyWithAllItsBytes
  intro s t e inv phase h ends
  have consistent := inv.engine
  simp only [engineConsistent, phase] at consistent
  obtain ⟨op, -, -, xfer⟩ := consistent
  cases busyCase_of h (busy_of_phase phase (by decide)) with
  | undisturbed u => simp [u.eng, phase] at ends
  | engine => exact .inl ⟨rfl, engineStep_recv_ends inv.engine phase ends⟩
  | txEmit _ valid => simp [(txValid_iff.1 valid).1] at phase
  | timeout enabled =>
    obtain ⟨receiving, -, -⟩ := timerEnabled_iff.1 enabled
    obtain ⟨-, before⟩ := receiving_iff.1 receiving
    rw [State.timeout, finishPlain_of_op op, phase]
    exact .inr (.inl ⟨rfl, by exact xfer ▸ before, rfl⟩)
  | aborted v noSrst =>
    rw [finishPlain_of_op op]
    exact .inr (.inr (.inl ⟨v, rfl, noSrst, xfer, rfl⟩))
  | srst v h1 => exact .inr (.inr (.inr (.inl ⟨v, rfl, h1, rfl⟩)))
  | hardReset => exact .inr (.inr (.inr (.inr ⟨rfl, rfl⟩)))

end Sys2Proof.Machine
end

section
/-! SUPPORT. Runs of a command that moves bytes (41_byte_transport.md R203, R209): each step that is enabled brings the command nearer to its
end, a run that never ends a command leaves it in one Engine state for ever, and the settled statements about waiting and finishing. -/

namespace Sys2Proof.Machine

/-! ### Each enabled step brings a command nearer to its end -/

/-- A bound on the steps that a command has before it: the index only grows, and a Build step comes before it does. -/
def stepsLeft (e : Eng) : Nat := if e.phase = .build then 65537 else 65536 - e.idx.toNat

/-- The same command, nearer to its end. -/
structure Advances (e f : Eng) : Prop where
  op : f.op = e.op
  fewer : stepsLeft f < stepsLeft e

theorem Advances.trans {e f g : Eng} (a : Advances e f) (b : Advances f g) : Advances e g :=
  ⟨b.op.trans a.op, b.fewer.trans a.fewer⟩

/-- The command ended, or is nearer to its end. -/
def Progresses (e f : Eng) : Prop := f = Eng.idle ∨ Advances e f

theorem Progresses.ne {e f : Eng} (p : Progresses e f) (busy : e ≠ Eng.idle) : f ≠ e := by
  rintro rfl
  obtain rest | ⟨-, fewer⟩ := p
  · exact busy rest
  · exact Nat.lt_irrefl _ fewer

/-- One byte more is moved. -/
theorem advances_of_idx_succ {e f : Eng} (op : f.op = e.op) (e_moves : e.phase ≠ .build) (f_moves : f.phase ≠ .build)
    (before : e.idx.toNat < e.endIdx.toNat) (idx : f.idx = e.idx + 1) : Advances e f := by
  refine ⟨op, ?_⟩
  have := e.endIdx.isLt
  rw [stepsLeft, stepsLeft, if_neg e_moves, if_neg f_moves, idx, idx_succ_toNat before]
  omega

theorem encbBuild_eng (s : State) : s.encbBuild.eng = Eng.idle := by
  unfold State.encbBuild
  split <;> rfl

theorem encBuild_progresses {s : State} (phase : s.eng.phase = .build) : Progresses s.eng s.encBuild.eng := by
  unfold State.encBuild
  split
  · refine .inr ⟨rfl, ?_⟩
    rw [stepsLeft, stepsLeft, if_pos phase, if_neg nofun]
    omega
  · exact .inl rfl

theorem decbParse_eng (s : State) : s.decbParse.eng = Eng.idle := by
  unfold State.decbParse
  split
  · rfl
  · rw [decbPayload_eq]

theorem receives_of_phase {p : Phase} (h : p = .rxRaw ∨ p = .rxHdr ∨ p = .rxPay) : p.receives = true := by
  obtain rfl | rfl | rfl := h <;> rfl

theorem not_build_of_receives {p : Phase} (receives : p.receives = true) : p ≠ .build := by
  rintro rfl
  cases receives

/-- The end of a receive phase ends the command, or leads to the payload phase (R206, 42_frame_pipeline.md R246). -/
theorem phaseDone_eng {s : State} (receives : s.eng.phase.receives = true) :
    s.phaseDone.eng = Eng.idle ∨ ∃ e, s.phaseDone.eng = { s.eng with phase := .rxPay, endIdx := e } := by
  unfold State.phaseDone
  split
  · exact .inl rfl
  · unfold State.headerDone State.headerChecked
    split
    · exact .inl rfl
    · split
      · exact .inl rfl
      · exact .inr ⟨_, rfl⟩
  · exact .inl rfl
  all_goals simp_all [Phase.receives] -- the other phases take no byte

theorem rxByte_progresses {s : State} (b : Byte) (rest : List Byte) (receiving : s.receiving = true) :
    Progresses s.eng (s.rxByte b rest).eng := by
  obtain ⟨receives, before⟩ := receiving_iff.1 receiving
  have moves := not_build_of_receives receives
  rw [rxByte_eq, State.phaseChecked]
  split
  · obtain rest' | ⟨e, eng⟩ := phaseDone_eng (s := s.rxMoved b rest) receives
    · exact .inl rest'
    · rw [eng]
      exact .inr (advances_of_idx_succ rfl moves nofun before rfl)
  · exact .inr (advances_of_idx_succ rfl moves moves before rfl)

theorem txEmit_progresses {s : State} (valid : s.txValid = true) : Progresses s.eng s.txEmit.eng := by
  obtain ⟨phase, before⟩ := txValid_iff.1 valid
  have moves : s.eng.phase ≠ .build := by simp [phase]
  unfold State.txEmit
  split
  · exact .inl rfl
  · exact .inr (advances_of_idx_succ rfl moves moves before rfl)

/-- An Engine step that is enabled (R209 (a)). -/
theorem engineStep_progresses {s : State} (enabled : s.engineEnabled = true) : Progresses s.eng s.engineStep.eng := by
  have finishes (phase : s.eng.phase = .tx ∨ s.eng.phase = .rxRaw) (atEnd : s.eng.idx = s.eng.endIdx) :
      Progresses s.eng s.engineStep.eng := by
    rw [engineStep_finishEmpty phase atEnd]
    exact .inl rfl
  have takes (h : (s.receiving && !s.rxq.isEmpty) = true) : Progresses s.eng s.engineStep.eng := by
    obtain ⟨receiving, queued⟩ := Bool.and_eq_true_iff.1 h
    obtain ⟨b, rest, fifo⟩ := List.exists_cons_of_ne_nil (l := s.rxq) (by simpa using queued)
    rw [engineStep_rxByte receiving fifo]
    exact rxByte_progresses b rest receiving
  cases phase : s.eng.phase <;> simp only [State.engineEnabled, phase, Bool.or_eq_true, decide_eq_true_eq] at enabled
  case idle => cases enabled
  case build =>
    obtain op | op := enabled
    · rw [engineStep_encb phase op]
      exact .inl (encbBuild_eng s)
    · rw [engineStep_enc phase op]
      exact encBuild_progresses phase
  case parse =>
    rw [engineStep_decb phase enabled]
    exact .inl (decbParse_eng s)
  case tx => exact finishes (.inl phase) enabled
  case rxRaw => exact enabled.elim (finishes (.inr phase)) takes
  case rxHdr => exact takes enabled
  case rxPay => exact takes enabled

/-- RxByte is enabled while a receive phase finds a byte (R206). -/
theorem engineEnabled_of_queued {s : State} (receiving : s.receiving = true) (queued : s.rxq ≠ []) : s.engineEnabled = true := by
  have takes : (s.receiving && !s.rxq.isEmpty) = true := by simp [receiving, queued]
  obtain ⟨receives, -⟩ := receiving_iff.1 receiving
  cases phase : s.eng.phase <;> simp only [phase, Phase.receives, Bool.false_eq_true] at receives <;>
    simp only [State.engineEnabled, phase, takes, Bool.or_true]

/-- An event leaves a running command in its Engine state, or the command progresses. -/
theorem BusyCase.progresses {s t : State} {e : Event} (c : BusyCase s e t) : t.eng = s.eng ∨ Progresses s.eng t.eng := by
  cases c with
  | undisturbed u => exact .inl u.eng
  | engine =>
    cases enabled : s.engineEnabled
    · exact .inl (by rw [engineStep_of_not_enabled enabled])
    · exact .inr (engineStep_progresses enabled)
  | txEmit _ valid => exact .inr (txEmit_progresses valid)
  | timeout => exact .inr (.inl rfl)
  | aborted => exact .inr (.inl rfl)
  | srst => exact .inr (.inl rfl)
  | hardReset => exact .inr (.inl rfl)

/-! ### Which steps a byte-moving command has -/

/-- RECV and DEC wait for bytes, but for a RECV of nothing (R202, R206). -/
theorem receiving_or_atEnd {s : State} (consistent : engineConsistent s) (op : s.eng.op = .recv ∨ s.eng.op = .dec) :
    s.receiving = true ∨ s.eng.phase = .rxRaw ∧ s.eng.idx = s.eng.endIdx := by
  rw [receiving_iff]
  cases phase : s.eng.phase <;> simp only [engineConsistent, phase] at consistent
  case idle => simp [consistent] at op
  case build => obtain ⟨op' | op', -⟩ := consistent <;> simp [op'] at op
  case parse => simp [consistent.1] at op
  case tx => obtain ⟨⟨op', -⟩ | ⟨op', -⟩, -⟩ := consistent <;> simp [op'] at op
  case rxRaw =>
    obtain ⟨-, -, before | ⟨idx, ends⟩, -⟩ := consistent
    · exact .inl ⟨rfl, before⟩
    · exact .inr ⟨rfl, idx.trans ends.symm⟩
  case rxHdr =>
    obtain ⟨-, ends, before, -⟩ := consistent
    exact .inl ⟨rfl, by rwa [ends]⟩
  case rxPay =>
    obtain ⟨-, -, -, -, before, -⟩ := consistent
    exact .inl ⟨rfl, before⟩

/-- SEND and ENC build, or offer a byte, or have nothing to send (R201, R202, 42_frame_pipeline.md R240). -/
theorem txValid_or_build_or_atEnd {s : State} (consistent : engineConsistent s) (op : s.eng.op = .send ∨ s.eng.op = .enc) :
    s.txValid = true ∨ s.eng.phase = .build ∧ s.eng.op = .enc ∨ s.eng.phase = .tx ∧ s.eng.idx = s.eng.endIdx := by
  rw [txValid_iff]
  cases phase : s.eng.phase <;> simp only [engineConsistent, phase] at consistent
  case idle => simp [consistent] at op
  case build =>
    obtain ⟨op' | op', -⟩ := consistent
    · simp [op'] at op
    · exact .inr (.inl ⟨rfl, op'⟩)
  case parse => simp [consistent.1] at op
  case tx =>
    obtain ⟨-, before | ⟨-, idx, ends⟩, -⟩ := consistent
    · exact .inl ⟨rfl, before⟩
    · exact .inr (.inr ⟨rfl, idx.trans ends.symm⟩)
  case rxRaw => simp [consistent.1] at op
  case rxHdr => simp [consistent.1] at op
  case rxPay => simp [consistent.1] at op

/-! ### A bounded run (R209) -/

/-- Engine and Timer steps leave an idle block as it is. -/
theorem runEvents_atRest {s : State} {d : Nat} (running : s.rstActive = false) (rest : s.eng = Eng.idle) (k : Nat) :
    runEvents (List.replicate k .engine ++ [.timer]) s d = .next s := by
  have engine : s.engineStep = s := engineStep_of_not_enabled (by simp [State.engineEnabled, rest])
  have timer : s.timerStep = s :=
    timerStep_not_enabled (timerEnabled_of_not_receiving (by simp [State.receiving, rest, Phase.receives]))
  induction k with
  | zero => rw [List.replicate_zero, List.nil_append, runEvents_cons (run_timer running), timer, runEvents_nil]
  | succ k ih => rw [List.replicate_succ, List.cons_append, runEvents_cons (run_engine running), engine, ih]

/-- One Engine step for each queued byte and one more, then a Timer step, end a receive (R206, R207). -/
theorem receive_finishes {s : State} (inv : Inv s) (running : s.rstActive = false) (timeout : s.rxTimeout ≠ 0)
    (op : s.eng.op = .recv ∨ s.eng.op = .dec) :
    ∃ t, runEvents (List.replicate (s.rxq.length + 1) .engine ++ [.timer]) s = .next t ∧ t.eng = Eng.idle := by
  generalize fifo : s.rxq = q
  induction q generalizing s with
  | nil =>
    rw [List.length_nil, List.replicate_succ, List.cons_append, runEvents_cons (run_engine running)]
    obtain receiving | ⟨phase, atEnd⟩ := receiving_or_atEnd inv.engine op
    · rw [engineStep_rxEmpty receiving fifo, List.replicate_zero, List.nil_append, runEvents_cons (run_timer running),
        timerStep_enabled (timerEnabled_iff.2 ⟨receiving, fifo, timeout⟩)]
      exact ⟨_, rfl, rfl⟩
    · rw [engineStep_finishEmpty (.inr phase) atEnd]
      exact ⟨_, runEvents_atRest (s := s.finishPlain .none) running rfl 0, rfl⟩
  | cons b q ih =>
    rw [List.length_cons, List.replicate_succ, List.cons_append, runEvents_cons (run_engine running)]
    obtain receiving | ⟨phase, atEnd⟩ := receiving_or_atEnd inv.engine op
    · have step := engineStep_rxByte receiving fifo
      have inv' : Inv (s.rxByte b q) := inv_runEvent inv ((run_engine running).trans (congrArg _ step))
      have frame := (rxByte_frame s b q).same
      have running' : (s.rxByte b q).rstActive = false := (congrArg State.rstActive frame).trans running
      rw [step]
      obtain rest | advances := rxByte_progresses b q receiving
      · exact ⟨_, runEvents_atRest running' rest _, rest⟩
      · exact ih inv' running' (congrArg State.rxTimeout frame ▸ timeout) (by rwa [advances.op]) (rxByte_keeps s b q).rxq
    · rw [engineStep_finishEmpty (.inr phase) atEnd]
      exact ⟨_, runEvents_atRest (s := s.finishPlain .none) running rfl _, rfl⟩

/-! ### Endless runs -/

theorem IsRun.inv {states : Nat → State} {events : Nat → Event} (run : IsRun states events) {n m : Nat} (inv : Inv (states n))
    (le : n ≤ m) : Inv (states m) := by
  induction m, le using Nat.le_induction with
  | base => exact inv
  | succ m _ ih =>
    obtain ⟨agenda, sched, step⟩ := run m
    exact inv_runEvent (ih.schedule agenda sched) step

theorem Inv.busy {s : State} (inv : Inv s) (runs : s.eng ≠ Eng.idle) : s.busy = true := by
  cases idle : s.busy
  · exact absurd (inv.sound.atRest idle) runs
  · rfl

theorem Inv.running {s : State} (inv : Inv s) (runs : s.eng ≠ Eng.idle) : s.rstActive = false := by
  cases pin : s.rstActive
  · rfl
  · exact absurd (congrArg State.eng (inv.held pin)) runs

/-- From place k on a run leaves its command in one Engine state. -/
structure Stuck (states : Nat → State) (events : Nat → Event) (k : Nat) : Prop where
  run : IsRun states events
  inv : Inv (states k)
  runs : (states k).eng ≠ Eng.idle
  same : ∀ m, k ≤ m → (states m).eng = (states k).eng

/-- A run ends its command, or leaves it in one Engine state, as a command cannot progress for ever. -/
theorem IsRun.rests_or_stuck {states : Nat → State} {events : Nat → Event} (run : IsRun states events) {n : Nat}
    (inv : Inv (states n)) :
    (∃ m, n ≤ m ∧ (states m).eng = Eng.idle) ∨
      (∀ m, n ≤ m → (states m).eng ≠ Eng.idle) ∧
      ∃ k, n ≤ k ∧ (states k).eng.op = (states n).eng.op ∧ Stuck states events k := by
  by_cases rests : ∃ m, n ≤ m ∧ (states m).eng = Eng.idle
  · exact .inl rests
  have never : ∀ m, n ≤ m → (states m).eng ≠ Eng.idle := fun m le rest => rests ⟨m, le, rest⟩
  have later {k m : Nat} (from_ : n ≤ k) (le : k ≤ m) :
      (states m).eng = (states k).eng ∨ Advances (states k).eng (states m).eng := by
    induction m, le using Nat.le_induction with
    | base => exact .inl rfl
    | succ m le ih =>
      obtain ⟨agenda, sched, step⟩ := run m
      have busy := (run.inv inv (from_.trans le)).busy (never m (from_.trans le))
      obtain same | rest | advances := (busyCase_of step busy).progresses
      · rwa [same]
      · exact absurd rest (never (m + 1) (by omega))
      · exact .inr (ih.elim (fun same => same ▸ advances) fun before => before.trans advances)
  obtain ⟨k, from_, least⟩ := exists_minimalFor_of_wellFoundedLT (fun m => n ≤ m) (fun m => stepsLeft (states m).eng) ⟨n, le_rfl⟩
  refine .inr ⟨never, k, from_, ?_, run, run.inv inv from_, never k from_, fun m le => ?_⟩
  · exact (later le_rfl from_).elim (congrArg Eng.op) Advances.op
  · obtain same | advances := later from_ le
    · exact same
    · have := least (from_.trans le) advances.fewer.le
      exact absurd advances.fewer (Nat.not_lt.2 this)

namespace Stuck

variable {states : Nat → State} {events : Nat → Event} {k m : Nat}

theorem inv_at (stuck : Stuck states events k) (le : k ≤ m) : Inv (states m) := stuck.run.inv stuck.inv le

theorem runs_at (stuck : Stuck states events k) (le : k ≤ m) : (states m).eng ≠ Eng.idle := by
  rw [stuck.same m le]
  exact stuck.runs

theorem not_progresses (stuck : Stuck states events k) (le : k ≤ m) : ¬ Progresses (states m).eng (states (m + 1)).eng :=
  fun p => p.ne (stuck.runs_at le) ((stuck.same (m + 1) (by omega)).trans (stuck.same m le).symm)

/-- A stuck command takes no Engine step that is enabled. -/
theorem engine_not_enabled (stuck : Stuck states events k) (le : k ≤ m) (event : events m = .engine) :
    (states m).engineEnabled ≠ true := by
  intro enabled
  obtain ⟨agenda, sched, step⟩ := stuck.run m
  rw [event, run_engine (by exact (stuck.inv_at le).running (stuck.runs_at le))] at step
  exact stuck.not_progresses le (Host.Outcome.next.inj step ▸ engineStep_progresses (by exact enabled))

/-- It takes no Timer step that is enabled. -/
theorem timer_not_enabled (stuck : Stuck states events k) (le : k ≤ m) (event : events m = .timer) :
    (states m).timerEnabled ≠ true := by
  intro enabled
  obtain ⟨agenda, sched, step⟩ := stuck.run m
  rw [event, run_timer (by exact (stuck.inv_at le).running (stuck.runs_at le)), timerStep_enabled (by exact enabled)] at step
  exact stuck.not_progresses le (Host.Outcome.next.inj step ▸ .inl rfl)

/-- LinkTx takes no byte of it. -/
theorem not_txValid (stuck : Stuck states events k) (le : k ≤ m) (event : events m = .linkTx) : (states m).txValid ≠ true := by
  intro valid
  obtain ⟨agenda, sched, step⟩ := stuck.run m
  rw [event, run_linkTx (by exact (stuck.inv_at le).running (stuck.runs_at le)), State.linkTxStep,
    if_pos (by exact valid)] at step
  exact stuck.not_progresses le (Host.Outcome.next.inj step ▸ txEmit_progresses (by exact valid))

/-- Fairness to the Engine: no step of a stuck command stays enabled (R209 (a)). -/
theorem engine_fair (stuck : Stuck states events k) (fair : WeaklyFair State.engineEnabled .engine states events) {j : Nat}
    (le : k ≤ j) : ¬ ∀ m, j ≤ m → (states m).engineEnabled = true := by
  intro enabled
  obtain ⟨m, later, event⟩ := fair j enabled
  exact stuck.engine_not_enabled (le.trans later) event (enabled m later)

/-- Fairness to the Timer (R209 (b)). -/
theorem timer_fair (stuck : Stuck states events k) (fair : WeaklyFair State.timerEnabled .timer states events) {j : Nat}
    (le : k ≤ j) : ¬ ∀ m, j ≤ m → (states m).timerEnabled = true := by
  intro enabled
  obtain ⟨m, later, event⟩ := fair j enabled
  exact stuck.timer_not_enabled (le.trans later) event (enabled m later)

/-- A SEND or RECV of nothing is not stuck in a fair run (R202). -/
theorem not_atEnd (stuck : Stuck states events k) (fair : WeaklyFair State.engineEnabled .engine states events)
    (phase : (states k).eng.phase = .tx ∨ (states k).eng.phase = .rxRaw) : (states k).eng.idx ≠ (states k).eng.endIdx := by
  intro atEnd
  refine stuck.engine_fair fair le_rfl fun m le => ?_
  obtain phase | phase := phase <;> simp [State.engineEnabled, stuck.same m le, phase, atEnd]

/-- The FIFO of a stuck receive, once it holds a byte, always holds one: only the Engine takes bytes of a running command (R204, R286). -/
theorem fifo_stays (stuck : Stuck states events k) {j : Nat} (le : k ≤ j) (receiving : ∀ m, k ≤ m → (states m).receiving = true)
    (queued : (states j).rxq ≠ []) (later : j ≤ m) : (states m).rxq ≠ [] := by
  induction m, later using Nat.le_induction with
  | base => exact queued
  | succ m later ih =>
    have le' := le.trans later
    have ended : (states (m + 1)).eng ≠ Eng.idle := stuck.runs_at (by omega)
    obtain ⟨agenda, sched, step⟩ := stuck.run m
    generalize event : events m = e at step
    generalize states (m + 1) = t at step ended
    cases busyCase_of step (by exact (stuck.inv_at le').busy (stuck.runs_at le')) with
    | undisturbed u =>
      obtain same | ⟨b, -, more⟩ := u.rxq
      · rwa [same]
      · simp [more]
    | engine => exact absurd (engineEnabled_of_queued (receiving m le') ih) (stuck.engine_not_enabled le' event)
    | txEmit _ valid => exact absurd (by exact valid) (stuck.not_txValid le' event)
    | timeout => exact absurd rfl ended
    | aborted => exact absurd rfl ended
    | srst => exact absurd rfl ended
    | hardReset => exact absurd rfl ended

/-- In a fair run no receive with a timeout is stuck: its Engine step stays enabled once a byte is queued, and its Timer step while none is. -/
theorem not_receiving (stuck : Stuck states events k) (engine : WeaklyFair State.engineEnabled .engine states events)
    (timer : WeaklyFair State.timerEnabled .timer states events) (timeout : ∀ m, k ≤ m → (states m).rxTimeout ≠ 0) :
    (states k).receiving ≠ true := by
  intro receiving_k
  have receiving : ∀ m, k ≤ m → (states m).receiving = true := fun m le => by
    rwa [State.receiving, stuck.same m le]
  by_cases empty : ∀ m, k ≤ m → (states m).rxq = []
  · exact stuck.timer_fair timer le_rfl fun m le => timerEnabled_iff.2 ⟨receiving m le, empty m le, timeout m le⟩
  · push Not at empty
    obtain ⟨j, le, queued⟩ := empty
    exact stuck.engine_fair engine le fun m later =>
      engineEnabled_of_queued (receiving m (le.trans later)) (stuck.fifo_stays le receiving queued later)

end Stuck

/-- Settles O34: the bounded run empties the FIFO and then times out; an endless fair run that does not end the command would leave it stuck. -/
theorem receiveWithTimeoutFinishes : Obligations.ReceiveWithTimeoutFinishes := by
  unfold Obligations.ReceiveWithTimeoutFinishes
  refine ⟨fun s inv running timeout op => receive_finishes inv running timeout op, ?_⟩
  intro states events n fair inv op timeout
  obtain rests | ⟨never, k, from_, op_k, stuck⟩ := fair.run.rests_or_stuck inv
  · exact rests
  have busy : ∀ m, n ≤ m → (states m).eng.phase ≠ .idle := fun m le => by
    simpa [State.busy] using (fair.run.inv inv le).busy (never m le)
  have timeout_k : ∀ m, k ≤ m → (states m).rxTimeout ≠ 0 := fun m le =>
    timeout m (from_.trans le) fun j from_n _ => busy j from_n
  obtain receiving | ⟨phase, atEnd⟩ := receiving_or_atEnd stuck.inv.engine (by rwa [op_k])
  · exact absurd receiving (stuck.not_receiving fair.engine fair.timer timeout_k)
  · exact absurd atEnd (stuck.not_atEnd fair.engine (.inr phase))

/-! ### Waiting (R203, R209, 43_control.md R281) -/

/-- A receive phase before its end that has no byte and no timeout. -/
structure Starved (s : State) : Prop where
  receiving : s.receiving = true
  empty : s.rxq = []
  timeout : s.rxTimeout = 0

theorem Starved.engineStep {s : State} (h : Starved s) : s.engineStep = s := engineStep_rxEmpty h.receiving h.empty

theorem Starved.timerEnabled {s : State} (h : Starved s) : s.timerEnabled = false := by simp [State.timerEnabled, h.timeout]

theorem Starved.txValid {s : State} (h : Starved s) : s.txValid = false := by
  obtain ⟨receives, -⟩ := receiving_iff.1 h.receiving
  rw [Bool.eq_false_iff]
  intro valid
  rw [(txValid_iff.1 valid).1] at receives
  cases receives

theorem Starved.busy {s : State} (h : Starved s) : s.busy = true := by
  refine busy_of_phase rfl fun idle => ?_
  obtain ⟨receives, -⟩ := receiving_iff.1 h.receiving
  rw [idle] at receives
  cases receives

/-- A starved receive stays so while no byte comes and RX_TIMEOUT stays 0. -/
theorem Undisturbed.starved {s t : State} {e : Event} (u : Undisturbed s e t) (h : Starved s) (noByte : ∀ b, e ≠ .linkRx b)
    (noTimeout : ∀ v : Word, v ≠ 0 → e ≠ .host (.write 0x1C .word v)) : Starved t := by
  refine ⟨by rw [State.receiving, u.eng]; exact h.receiving, ?_, ?_⟩
  · obtain same | ⟨b, offered, -⟩ := u.rxq
    · exact same.trans h.empty
    · exact absurd offered (noByte b)
  · obtain same | ⟨v, written, stored⟩ := u.rxTimeout
    · exact same.trans h.timeout
    · by_contra nonzero
      exact noTimeout v (stored ▸ nonzero) written

/-- Without LinkTx a transmission waits for ever (R203). -/
theorem IsRun.transmission_waits {states : Nat → State} {events : Nat → Event} (run : IsRun states events) {n m : Nat}
    (valid : (states n).txValid = true) (stalled : ∀ m, n ≤ m → events m ≠ .linkTx ∧ ¬ endsFromOutside (events m)) (le : n ≤ m) :
    (states m).eng = (states n).eng := by
  induction m, le using Nat.le_induction with
  | base => rfl
  | succ m le ih =>
    obtain ⟨agenda, sched, step⟩ := run m
    obtain ⟨notTaken, notEnded⟩ := stalled m le
    have valid_m : (states m).txValid = true := by rwa [State.txValid, ih]
    have busy := busy_of_phase (txValid_iff.1 valid_m).1 (by decide)
    exact ((busyCase_of step busy).undisturbed_of_txValid valid_m notTaken notEnded).eng.trans ih

/-- Without bytes and without a timeout a receive waits for ever (R209). -/
theorem IsRun.receive_waits {states : Nat → State} {events : Nat → Event} (run : IsRun states events) {n m : Nat}
    (starved : Starved (states n))
    (stalled : ∀ m, n ≤ m → (∀ b, events m ≠ .linkRx b) ∧ (∀ v : Word, v ≠ 0 → events m ≠ .host (.write 0x1C .word v)) ∧
      ¬ endsFromOutside (events m))
    (le : n ≤ m) : (states m).eng = (states n).eng ∧ Starved (states m) := by
  induction m, le using Nat.le_induction with
  | base => exact ⟨rfl, starved⟩
  | succ m le ih =>
    obtain ⟨same, starved_m⟩ := ih
    obtain ⟨agenda, sched, step⟩ := run m
    obtain ⟨noByte, noTimeout, notEnded⟩ := stalled m le
    have starved_m' : Starved { states m with agenda := agenda, sched := sched } :=
      ⟨starved_m.receiving, starved_m.empty, starved_m.timeout⟩
    have u := (busyCase_of step starved_m'.busy).undisturbed_of_stalled starved_m'.engineStep starved_m'.timerEnabled
      (fun _ => starved_m'.txValid) notEnded
    exact ⟨u.eng.trans same, u.starved starved_m' noByte noTimeout⟩

/-- In a fair run in which LinkTx accepts again and again a transmission ends (R203, R209). -/
theorem IsFairRun.transmission_finishes {states : Nat → State} {events : Nat → Event} (fair : IsFairRun states events) {n : Nat}
    (inv : Inv (states n)) (op : (states n).eng.op = .send ∨ (states n).eng.op = .enc)
    (accepts : ∀ k, ∃ m, k ≤ m ∧ events m = .linkTx) : ∃ m, n ≤ m ∧ (states m).eng = Eng.idle := by
  obtain rests | ⟨-, k, -, op_k, stuck⟩ := fair.run.rests_or_stuck inv
  · exact rests
  obtain valid | ⟨phase, enc⟩ | ⟨phase, atEnd⟩ := txValid_or_build_or_atEnd stuck.inv.engine (by rwa [op_k])
  · obtain ⟨m, le, event⟩ := accepts k
    exact absurd (by rwa [State.txValid, stuck.same m le]) (stuck.not_txValid le event)
  · refine absurd (fun m le => ?_) (stuck.engine_fair fair.engine le_rfl)
    simp [State.engineEnabled, stuck.same m le, phase, enc]
  · exact absurd atEnd (stuck.not_atEnd fair.engine (.inl phase))

/-- Settles O35: a waiting command has no step of its own, so only LinkTx, LinkRx, a timeout or an ending from outside moves it; and a
transmission that LinkTx serves does not wait. -/
theorem stalledCommandsWait : Obligations.StalledCommandsWait := by
  unfold Obligations.StalledCommandsWait
  refine ⟨fun s running before => ⟨fun phase => ?_, fun phase empty timeout => ?_⟩, fun states events n run => ⟨?_, ?_, ?_⟩⟩
  · have valid := txValid_iff.2 ⟨phase, before⟩
    rw [run_engine running, run_timer running, engineStep_of_txValid valid, timerStep_not_enabled (timerEnabled_of_txValid valid)]
    exact ⟨rfl, rfl⟩
  · have starved : Starved s := ⟨receiving_iff.2 ⟨receives_of_phase phase, before⟩, empty, timeout⟩
    rw [run_engine running, run_timer running, run_linkTx running, starved.engineStep, timerStep_not_enabled starved.timerEnabled,
      linkTxStep_not_valid starved.txValid]
    exact ⟨rfl, rfl, rfl⟩
  · intro phase before stalled m le
    exact run.transmission_waits (txValid_iff.2 ⟨phase, before⟩) stalled le
  · intro phase before empty timeout stalled m le
    exact (run.receive_waits ⟨receiving_iff.2 ⟨receives_of_phase phase, before⟩, empty, timeout⟩ stalled le).1
  · intro fair inv op accepts
    exact fair.transmission_finishes inv op accepts

end Sys2Proof.Machine
end

section
/-! SUPPORT. The frame pipeline, transmit side (42_frame_pipeline.md R240 to R242): an ENC builds its header and then transmits the frame, and
the settled statements about an ENC that runs to its end, one that is aborted, and ENCB followed by SEND. -/

namespace Sys2Proof.Machine

/-! ### The frame that an encode leaves in TXBUF -/

/-- The first bytes of a stretch of buffer. -/
theorem readBytes_take (s : State) (a : Nat) {k n : Nat} (within : k ≤ n) : (s.readBytes a n).take k = s.readBytes a k := by
  simp [State.readBytes, ← List.map_take, List.take_range, min_eq_left within]

/-- Once the header is built, TXBUF[0..8+LENGTH) is the frame image of the operands (R167). -/
theorem buildHeader_frame (s : State) : s.buildHeader.txBytes 0 (8 + s.txLength.toNat) = frame s.txId s.txStatus s.txPayload :=
  (buildHeader_txBytes s s.txLength.toNat).trans (header_append_payload s)

/-- The memory that building a header leaves depends on the operands only. -/
theorem buildHeader_mem_congr {s t : State} (mem : s.mem = t.mem) (draws : s.draws = t.draws) (txId : s.txId = t.txId)
    (txStatus : s.txStatus = t.txStatus) (txLength : s.txLength = t.txLength) : s.buildHeader.mem = t.buildHeader.mem := by
  have payload : s.txPayload = t.txPayload := by
    rw [State.txPayload, State.txPayload, txLength]
    exact readBytes_congr fun k _ => readByte_congr mem draws _
  rw [buildHeader_mem, buildHeader_mem, payload, txId, txStatus, txLength]
  exact writeBytes_mem_congr mem _ _

section

variable {s t : State} (mem : t.mem = s.buildHeader.mem) (draws : t.draws = s.draws)
include mem draws

/-- A state that has the buffers of a built header reads its bytes. -/
theorem readByte_of_built (a : Nat) : t.readByte a = s.buildHeader.readByte a :=
  readByte_congr mem (draws.trans (buildHeader_draws s).symm) a

theorem txBytes_of_built {k : Nat} (within : k ≤ 8 + s.txLength.toNat) :
    t.txBytes 0 k = (frame s.txId s.txStatus s.txPayload).take k := by
  rw [← buildHeader_frame s, State.txBytes, State.txBytes, readBytes_take _ _ within]
  exact readBytes_congr fun i _ => readByte_of_built mem draws _

theorem txBytes_frame_of_built : t.txBytes 0 (8 + s.txLength.toNat) = frame s.txId s.txStatus s.txPayload := by
  rw [← buildHeader_frame s]
  exact readBytes_congr fun i _ => readByte_of_built mem draws _

end

/-! ### ENC up to its Tx phase -/

/-- The state in which an idle block has accepted an ENC (30_encoding.md R127, R128). -/
def State.encAccepted (s : State) : State := { s with cmdLast := 0x00000005, xferCount := 0, eng := ⟨.enc, .build, 0, 0⟩ }

/-- The state in which an ENC has built its header and begins to transmit (R240). -/
def State.encTransmitting (s : State) : State :=
  { s with
    cmdLast := 0x00000005, xferCount := 0, eng := ⟨.enc, .tx, 0, 8 + s.txLength⟩, txCsum := csum s.txPayload,
    mem := s.buildHeader.mem }

theorem exec_enc {s : State} (phase : s.eng.phase = .idle) : exec .enc s = .next s.encAccepted := by
  obtain ⟨-, enc, -⟩ := acceptedCommandStartsTheEngine s 0 phase
  exact enc

/-- The Build step of an ENC on legal operands (R240). -/
theorem engineStep_encAccepted {s : State} (legal : s.encodeError = .none) : s.encAccepted.engineStep = s.encTransmitting := by
  have mem : s.encAccepted.buildHeader.mem = s.buildHeader.mem := buildHeader_mem_congr rfl rfl rfl rfl rfl
  rw [engineStep_enc rfl rfl, State.encBuild, if_pos (by exact legal), State.encBuilt, buildHeader_eq, mem]
  rfl

/-- An ENC's run is its Build step, then a run of its Tx phase. -/
theorem runEvents_encAccepted {s : State} (running : s.rstActive = false) (legal : s.encodeError = .none) (es : List Event) :
    runEvents (.engine :: es) s.encAccepted = runEvents es s.encTransmitting := by
  rw [runEvents_cons (run_engine (by exact running)), engineStep_encAccepted legal]

/-! ### The end of an ENC -/

/-- The state in which an ENC has ended with a code after `k` bytes of its frame were accepted (R240, R242). -/
def State.encEnded (s : State) (k : Nat) (c : ErrCode) : State :=
  { s with
    eng := Eng.idle, cmdLast := 0x00000005, xferCount := BitVec.ofNat 16 k, result := resultWord 5 c false false,
    irqStatus := s.irqStatus ||| completionIrq c, txCsum := csum s.txPayload,
    txOut := s.txOut ++ (frame s.txId s.txStatus s.txPayload).take k, mem := s.buildHeader.mem }

/-- An ENC that ends during its Tx phase has sent the first bytes of the frame. -/
theorem encTransmitting_ends (s : State) {k : Nat} (c : ErrCode) (within : k ≤ 8 + s.txLength.toNat) :
    (s.encTransmitting.transmitted k).finishAs 5 c false false = s.encEnded k c := by
  have sent : s.encTransmitting.txBytes 0 k = (frame s.txId s.txStatus s.txPayload).take k := 
    txBytes_of_built (s := s) (t := s.encTransmitting) rfl rfl within
  have counted : (0 : Half) + BitVec.ofNat 16 k = BitVec.ofNat 16 k := BitVec.zero_add _
  rw [State.encEnded, ← sent, ← counted]
  rfl

theorem encEnded_readByte (s : State) (k : Nat) (c : ErrCode) {a : Nat} (outside : ¬ (0x1000 ≤ a ∧ a < 0x1008)) :
    (s.encEnded k c).readByte a = s.readByte a :=
  (readByte_of_built (s := s) (t := s.encEnded k c) rfl rfl a).trans (buildHeader_readByte s outside)

theorem encEnded_frame (s : State) (k : Nat) (c : ErrCode) :
    (s.encEnded k c).txBytes 0 (8 + s.txLength.toNat) = frame s.txId s.txStatus s.txPayload :=
  txBytes_frame_of_built rfl rfl

/-- ENC on legal operands, with LinkTx accepting each byte, ends with NONE once the whole frame is sent (R240). -/
theorem runEvents_enc_to_end {s : State} (running : s.rstActive = false) (legal : s.encodeError = .none) :
    runEvents (.engine :: List.replicate (8 + s.txLength.toNat) .linkTx) s.encAccepted =
      .next (s.encEnded (8 + s.txLength.toNat) .none) := by
  obtain ⟨short, -⟩ := encodeError_eq_none.1 legal
  have to_end : s.encTransmitting.eng.idx.toNat + (8 + s.txLength.toNat) = s.encTransmitting.eng.endIdx.toNat :=
    (Nat.zero_add _).trans (hdrSize_add_toNat short).symm
  rw [runEvents_encAccepted running legal, runEvents_linkTx_to_end (by exact running) rfl (by omega) to_end,
    ← encTransmitting_ends s .none le_rfl]
  rfl

/-- The count of a whole frame, as XFER_COUNT holds it. -/
theorem frameSize_ofNat (len : Half) : BitVec.ofNat 16 (8 + len.toNat) = 8 + len := by
  rw [BitVec.ofNat_add, BitVec.ofNat_toNat, BitVec.setWidth_eq]
  rfl

theorem frame_length (s : State) : (frame s.txId s.txStatus s.txPayload).length = 8 + s.txLength.toNat := by
  rw [← buildHeader_frame s, State.txBytes, readBytes_length]

/-- Settles O36: the Build step leaves the frame in TXBUF, and the Tx phase sends it whole. -/
theorem encTransmitsTheFrame : Obligations.EncTransmitsTheFrame := by
  unfold Obligations.EncTransmitsTheFrame
  intro s running phase short st_min st_max
  have legal := encodeError_eq_none.2 ⟨short, st_min, st_max⟩
  refine ⟨_, _, exec_enc phase, runEvents_enc_to_end running legal, ?_, encEnded_frame s _ _, fun a => encEnded_readByte s _ _⟩
  rw [State.encEnded, frameSize_ofNat, List.take_of_length_le (frame_length s).le]
  rfl

/-- Settles O37: before the frame's last byte the Tx phase still runs, so the ABORT ends it where it stands. -/
theorem abortedEncSendsAPrefix : Obligations.AbortedEncSendsAPrefix := by
  unfold Obligations.AbortedEncSendsAPrefix
  intro s k ign running phase legal before
  obtain ⟨short, -⟩ := encodeError_eq_none.1 legal
  have before_end : s.encTransmitting.eng.idx.toNat + k < s.encTransmitting.eng.endIdx.toNat := by
    have begin_end : s.encTransmitting.eng.idx.toNat = 0 ∧ s.encTransmitting.eng.endIdx.toNat = 8 + s.txLength.toNat :=
      ⟨rfl, hdrSize_add_toNat short⟩
    omega
  have sent := runEvents_linkTx_before_end (d := Config.rxFifoDepth) (by exact running) rfl before_end
  have aborted : exec (.abort false ign) (s.encTransmitting.transmitted k) = .next (s.encEnded k .aborted) := by
    rw [exec_abort_busy rfl, ← encTransmitting_ends s .aborted before.le]
    rfl
  exact ⟨_, _, _, exec_enc phase, (runEvents_encAccepted running legal _).trans sent, aborted, rfl, encEnded_frame s _ _,
    fun a => encEnded_readByte s _ _⟩

/-! ### ENCB, then SEND (R241) -/

/-- The state in which an idle block has accepted an ENCB (30_encoding.md R127, R128). -/
def State.encbAccepted (s : State) : State := { s with cmdLast := 0x00000001, xferCount := 0, eng := ⟨.encb, .build, 0, 0⟩ }

theorem exec_encb {s : State} (phase : s.eng.phase = .idle) : exec .encb s = .next s.encbAccepted := by
  obtain ⟨encb, -⟩ := acceptedCommandStartsTheEngine s 0 phase
  exact encb

/-- The state in which an ENCB has built its header and ended with NONE (40_frame_codec.md R165). -/
def State.encbFinished (s : State) : State :=
  { s with
    eng := Eng.idle, cmdLast := 0x00000001, xferCount := 8 + s.txLength, result := 0x00010000, irqStatus := s.irqStatus ||| 1,
    txCsum := csum s.txPayload, mem := s.buildHeader.mem }

theorem engineStep_encbAccepted {s : State} (legal : s.encodeError = .none) : s.encbAccepted.engineStep = s.encbFinished := by
  have mem : s.encbAccepted.buildHeader.mem = s.buildHeader.mem := buildHeader_mem_congr rfl rfl rfl rfl rfl
  rw [engineStep_encb_built rfl rfl (by exact legal), buildHeader_eq, mem]
  rfl

/-- Settles O38: both ways the header is built once, and what is sent is the frame then in TXBUF. -/
theorem encEqualsEncbThenSend : Obligations.EncEqualsEncbThenSend := by
  unfold Obligations.EncEqualsEncbThenSend
  intro s running phase legal
  obtain ⟨short, -⟩ := encodeError_eq_none.1 legal
  have size := hdrSize_add_toNat short
  have built : runEvents [.engine] s.encbAccepted = .next s.encbFinished := by
    rw [runEvents_engine (by exact running), engineStep_encbAccepted legal]
  obtain ⟨x, accepted, sent⟩ := sendTransmitsExactlyItsBytes s.encbFinished (8 + s.txLength) running rfl (by omega)
  have nonempty : 8 + s.txLength ≠ 0 := fun zero => by
    have none_left : 0 = 8 + s.txLength.toNat := (congrArg BitVec.toNat zero).symm.trans size
    omega
  have image : s.encbFinished.txBytes 0 (8 + s.txLength.toNat) = frame s.txId s.txStatus s.txPayload :=
    txBytes_frame_of_built rfl rfl
  rw [if_neg nonempty, size, image] at sent
  refine ⟨_, _, _, _, _, _, exec_enc phase, runEvents_enc_to_end running legal, exec_encb phase, built, accepted, sent,
    rfl, rfl, ?_, ?_, ?_, rfl⟩
  · exact congrArg (s.txOut ++ ·) (List.take_of_length_le (frame_length s).le)
  · have set_once : s.irqStatus ||| 1 ||| 1 = s.irqStatus ||| 1 := by rw [BitVec.or_assoc, BitVec.or_self]
    exact set_once.symm
  · exact frameSize_ofNat _

end Sys2Proof.Machine
end

section
/-! SUPPORT. The frame pipeline, receive side (42_frame_pipeline.md R245 to R248): a DEC takes a header, then its payload, and the settled
statements about a DEC of a whole frame and of a header that declares too much. -/

namespace Sys2Proof.Machine

/-! ### Bytes queued and bytes that arrive -/

/-- The events by which a receiving command takes the bytes queued, then each byte that arrives as it comes (R204, R206). -/
def receiveEvents (queued arriving : List Byte) : List Event :=
  List.replicate queued.length .engine ++ arriving.flatMap fun b => [.linkRx b, .engine]

theorem receiveEvents_append_left (queued more arriving : List Byte) :
    receiveEvents (queued ++ more) arriving = receiveEvents queued [] ++ receiveEvents more arriving := by
  rw [receiveEvents, List.length_append, List.replicate_add, List.append_assoc]
  simp only [receiveEvents, List.flatMap_nil, List.append_nil]

theorem receiveEvents_append_right (queued arriving more : List Byte) :
    receiveEvents queued (arriving ++ more) = receiveEvents queued arriving ++ receiveEvents [] more := by
  simp [receiveEvents]

/-! ### RXBUF after a list of writes -/

theorem writeBytes_append (s : State) (a : Nat) (bs cs : List Byte) :
    s.writeBytes a (bs ++ cs) = (s.writeBytes a bs).writeBytes (a + bs.length) cs := by
  induction bs generalizing s a with
  | nil => rfl
  | cons b bs ih =>
    rw [List.cons_append, State.writeBytes, ih, State.writeBytes, List.length_cons, Nat.add_assoc, Nat.add_comm 1]

section

variable {s t : State} {bs : List Byte} (mem : t.mem = (s.writeBytes rxBase bs).mem) (draws : t.draws = s.draws)
include mem draws

/-- A state that has the buffers of a list of writes reads their bytes. -/
theorem readByte_of_stored (a : Nat) : t.readByte a = (s.writeBytes rxBase bs).readByte a :=
  readByte_congr mem (draws.trans (writeBytes_draws s rxBase bs).symm) a

theorem rxBytes_of_stored : t.rxBytes 0 bs.length = bs :=
  (readBytes_congr fun k _ => readByte_of_stored mem draws (rxBase + k)).trans (readBytes_writeBytes s rxBase bs)

theorem readByte_of_stored_outside {a : Nat} (outside : ¬ (0x2000 ≤ a ∧ a < 0x2000 + bs.length)) : t.readByte a = s.readByte a := by
  rw [readByte_of_stored mem draws, readByte_writeBytes_outside s outside]

end

/-! ### DEC up to its header -/

/-- The state in which an idle block has accepted a DEC (30_encoding.md R127, R128). -/
def State.decAccepted (s : State) : State := { s with cmdLast := 0x00000006, xferCount := 0, eng := ⟨.dec, .rxHdr, 0, 8⟩ }

theorem exec_dec {s : State} (phase : s.eng.phase = .idle) : exec .dec s = .next s.decAccepted := by
  obtain ⟨-, -, dec, -⟩ := acceptedCommandStartsTheEngine s 0 phase
  exact dec

/-- The state in which a DEC has latched a header and stored it and the payload bytes `pl`, with `rest` in the FIFO (R246). -/
def State.decStored (s : State) (id : Word) (st c : Byte) (len : Half) (pl rest : List Byte) (eng : Eng) : State :=
  { s with
    eng := eng, cmdLast := 0x00000006, xferCount := BitVec.ofNat 16 (8 + pl.length), rxq := rest, rxId := id, rxStatus := st,
    rxCsumHdr := c, rxLength := len, mem := (s.writeBytes rxBase (headerBytes id st c len ++ pl)).mem }

/-- The state in which a DEC has ended with NONE and its two flags (R247). -/
def State.decFinished (s : State) (id : Word) (st c : Byte) (pl rest : List Byte) : State :=
  { s.decStored id st c (BitVec.ofNat 16 pl.length) pl rest Eng.idle with
    rxCsumCalc := csum pl, irqStatus := s.irqStatus ||| 1, result := resultWord 6 .none (csum pl = c) (!knownStatus st) }

section

variable {s : State} {id : Word} {st c : Byte} {len : Half} {pl queued arriving rest : List Byte}

/-- The 8 header bytes taken: the header is latched and checked (R246). -/
theorem runEvents_dec_header (running : s.rstActive = false) (header : headerBytes id st c len = queued ++ arriving)
    (fifo : s.rxq = queued ++ rest) (alone : arriving = [] ∨ rest = []) :
    runEvents (receiveEvents queued arriving) s.decAccepted =
      .next (s.decStored id st c len [] rest ⟨.dec, .rxHdr, 8, 8⟩).headerChecked := by
  have size : (queued ++ arriving).length = 8 := header ▸ headerBytes_length id st c len
  have before : s.decAccepted.eng.idx.toNat < s.decAccepted.eng.endIdx.toNat := Nat.zero_lt_succ 7
  have fits : s.decAccepted.eng.idx.toNat + (queued ++ arriving).length ≤ s.decAccepted.eng.endIdx.toNat := size ▸ le_rfl
  rw [receiveEvents, runEvents_queued_arriving (by decide) (by exact running) rfl before fits fifo alone, ← header]
  have mem : (s.decAccepted.writeBytes rxBase (headerBytes id st c len)).mem =
      (s.writeBytes rxBase (headerBytes id st c len)).mem :=
    writeBytes_mem_congr (s := s.decAccepted) (t := s) rfl _ _
  have stored : (s.decAccepted.received (headerBytes id st c len) rest).rxBytes 0 8 = headerBytes id st c len := by
    have := rxBytes_of_stored (s := s) (t := s.decAccepted.received (headerBytes id st c len) rest) mem rfl
    rwa [headerBytes_length] at this
  have ends : (s.decAccepted.received (headerBytes id st c len) rest).phaseDone =
      (s.decAccepted.received (headerBytes id st c len) rest).headerDone := rfl
  rw [phaseChecked_atEnd rfl, ends, State.headerDone, latchHeader_of_header stored, State.decStored, List.append_nil, ← mem]
  rfl

/-! ### The payload -/

/-- The record of a decode that succeeds: CSUM_MATCH and UNKSTAT beside the opcode (R247, 10_state.md R38). -/
theorem resultWord_dec (sum c st : Byte) :
    resultWord 6 .none (sum = c) (!knownStatus st) =
      0x00060000#32 ||| (if sum = c then 0x100#32 else 0) ||| (if 1 ≤ st.toNat ∧ st.toNat ≤ 5 then 0 else 0x200#32) := by
  have beside_decb : ∀ m u : Bool, resultWord 6 .none m u = 0x00040000#32 ||| resultWord 2 .none m u := by decide
  rw [beside_decb, resultWord_decb, ← BitVec.or_assoc, ← BitVec.or_assoc]
  rfl

/-- With the payload stored whole, RXBUF[0..8+length) is the frame's image (R246, R247). -/
theorem decStored_image (eng : Eng) :
    (s.decStored id st c len pl rest eng).rxBytes 0 (8 + pl.length) = headerBytes id st c len ++ pl := by
  have image := rxBytes_of_stored (s := s) (t := s.decStored id st c len pl rest eng) rfl rfl
  rwa [List.length_append, headerBytes_length] at image

/-- No byte outside RXBUF[0..8+length) changes (R246). -/
theorem decStored_readByte (eng : Eng) {a : Nat} (outside : ¬ (0x2000 ≤ a ∧ a < 0x2000 + (8 + pl.length))) :
    (s.decStored id st c len pl rest eng).readByte a = s.readByte a :=
  readByte_of_stored_outside (s := s) (t := s.decStored id st c len pl rest eng) rfl rfl
    (by rwa [List.length_append, headerBytes_length])

theorem decStored_payload (eng : Eng) : (s.decStored id st c len pl rest eng).rxBytes 8 pl.length = pl := by
  have parts := (readBytes_add (s.decStored id st c len pl rest eng) rxBase 8 pl.length).symm.trans (decStored_image eng)
  obtain ⟨-, payload⟩ := List.append_inj parts (by simp)
  exact payload

/-- A payload length that fits is what LENGTH says (R33). -/
theorem payloadLength_toNat (short : pl.length ≤ 1024) : (BitVec.ofNat 16 pl.length).toNat = pl.length :=
  (BitVec.toNat_ofNat ..).trans (Nat.mod_eq_of_lt (by omega))

/-- With the payload stored whole, the end of the decode reports it (R247). -/
theorem decStored_decodeDone (short : pl.length ≤ 1024) {eng : Eng} (op : eng.op = .dec) :
    (s.decStored id st c (BitVec.ofNat 16 pl.length) pl rest eng).decodeDone = s.decFinished id st c pl rest := by
  have payload : (s.decStored id st c (BitVec.ofNat 16 pl.length) pl rest eng).rxPayload = pl :=
    (congrArg (State.rxBytes _ 8) (payloadLength_toNat short)).trans (decStored_payload eng)
  rw [State.decodeDone, payload]
  exact finish_of_op (op := .dec) (by exact op) .none _ _

/-- The payload bytes moved behind the header (R206, R246). -/
theorem decStored_received (queue : List Byte) (eng : Eng) (idx : eng.idx = 8) :
    (s.decStored id st c len [] queue eng).received pl rest =
      s.decStored id st c len pl rest { eng with idx := 8 + BitVec.ofNat 16 pl.length } := by
  have mem : ((s.decStored id st c len [] queue eng).writeBytes (rxBase + (8 : Half).toNat) pl).mem =
      (s.writeBytes rxBase (headerBytes id st c len ++ pl)).mem := by
    rw [writeBytes_append, headerBytes_length]
    exact writeBytes_mem_congr (by rw [State.decStored, List.append_nil]) _ _
  have count : (8 : Half) + BitVec.ofNat 16 pl.length = BitVec.ofNat 16 (8 + pl.length) := (BitVec.ofNat_add ..).symm
  have at8 : (s.decStored id st c len [] queue eng).eng.idx = 8 := idx
  rw [State.received, at8, mem]
  simp only [State.decStored, ← count]
  rfl

/-- The payload bytes taken: the decode ends (R247). -/
theorem runEvents_dec_payload (running : s.rstActive = false) (short : pl.length ≤ 1024) (nonempty : pl ≠ [])
    (payload : pl = queued ++ arriving) (alone : arriving = [] ∨ rest = []) :
    runEvents (receiveEvents queued arriving)
        (s.decStored id st c (BitVec.ofNat 16 pl.length) [] (queued ++ rest) ⟨.dec, .rxPay, 8, 8 + BitVec.ofNat 16 pl.length⟩) =
      .next (s.decFinished id st c pl rest) := by
  have length := payloadLength_toNat short
  have to_end : (8 + BitVec.ofNat 16 pl.length : Half).toNat = 8 + pl.length := by
    rw [hdrSize_add_toNat (length.trans_le short), length]
  have before : 8 < (8 + BitVec.ofNat 16 pl.length : Half).toNat :=
    to_end ▸ Nat.lt_add_of_pos_right (List.length_pos_iff.2 nonempty)
  rw [receiveEvents, runEvents_queued_arriving (by decide) (by exact running) rfl (by exact before)
      (by exact payload ▸ to_end.ge) rfl alone, ← payload, decStored_received _ _ rfl, phaseChecked_atEnd rfl]
  exact congrArg _ (decStored_decodeDone short rfl)

/-- A header that declares no payload ends the decode (R246). -/
theorem decStored_headerChecked_empty (eng : Eng) (op : eng.op = .dec) :
    (s.decStored id st c 0 [] rest eng).headerChecked = s.decFinished id st c [] rest :=
  decStored_decodeDone (Nat.zero_le _) op

/-- A header that declares some payload, and not too much, leads to it (R246). -/
theorem decStored_headerChecked_payload (short : pl.length ≤ 1024) (nonempty : pl ≠ []) :
    (s.decStored id st c (BitVec.ofNat 16 pl.length) [] rest ⟨.dec, .rxHdr, 8, 8⟩).headerChecked =
      s.decStored id st c (BitVec.ofNat 16 pl.length) [] rest ⟨.dec, .rxPay, 8, 8 + BitVec.ofNat 16 pl.length⟩ := by
  have length := payloadLength_toNat short
  have some_left : BitVec.ofNat 16 pl.length ≠ 0 := fun zero => by
    have none_left : 0 = pl.length := (congrArg BitVec.toNat zero).symm.trans length
    exact nonempty (List.eq_nil_of_length_eq_zero none_left.symm)
  rw [State.headerChecked, if_neg (by exact (length ▸ short).not_gt), if_neg (by exact some_left)]
  rfl

/-- A header that declares too much ends the command with LENGTH (R246, R248). -/
theorem decStored_headerChecked_overlong (long : len.toNat > 1024) :
    (s.decStored id st c len [] rest ⟨.dec, .rxHdr, 8, 8⟩).headerChecked =
      { s.decStored id st c len [] rest Eng.idle with result := 0x00060003, irqStatus := s.irqStatus ||| 2 } :=
  (if_pos long).trans (finishPlain_of_op (op := .dec) rfl .length)

/-- A DEC of a frame, wherever its bytes are cut between those queued and those that arrive: the cut is in the payload or in the header (R245). -/
theorem runEvents_dec (running : s.rstActive = false) (short : pl.length ≤ 1024)
    (bytes : headerBytes id st c (BitVec.ofNat 16 pl.length) ++ pl = queued ++ arriving) (fifo : s.rxq = queued ++ rest)
    (alone : arriving = [] ∨ rest = []) :
    runEvents (receiveEvents queued arriving) s.decAccepted = .next (s.decFinished id st c pl rest) := by
  by_cases nonempty : pl = []
  · subst nonempty
    rw [List.append_nil] at bytes
    rw [runEvents_dec_header running bytes fifo alone]
    exact congrArg _ (decStored_headerChecked_empty _ rfl)
  · obtain ⟨more, rfl, payload⟩ | ⟨more, header, rfl⟩ := List.append_eq_append_iff.1 bytes
    · rw [List.append_assoc] at fifo
      have first := runEvents_dec_header (arriving := []) running (List.append_nil _).symm fifo (.inl rfl)
      rw [receiveEvents_append_left, runEvents_append first, decStored_headerChecked_payload short nonempty]
      exact runEvents_dec_payload running short nonempty payload alone
    · obtain rfl : rest = [] := alone.resolve_left fun none_arrive => nonempty (List.append_eq_nil_iff.1 none_arrive).2
      have first := runEvents_dec_header running header fifo (.inr rfl)
      rw [receiveEvents_append_right, runEvents_append first, decStored_headerChecked_payload short nonempty]
      exact runEvents_dec_payload (queued := []) running short nonempty rfl (.inr rfl)

end

/-! ### The settled statements -/

/-- Settles O39: the header's bytes lead to the payload phase, or end the decode where there is no payload. -/
theorem decReceivesTheFrame : Obligations.DecReceivesTheFrame := by
  unfold Obligations.DecReceivesTheFrame
  intro s id st c pl queued arriving rest running phase short bytes fifo alone
  refine ⟨_, _, exec_dec phase, runEvents_dec running short bytes fifo alone, ?_, decStored_image (rest := rest) Eng.idle,
    fun a => decStored_readByte (rest := rest) Eng.idle⟩
  rw [← resultWord_dec]
  rfl

/-- Settles O40: the check of the 8th byte finds LENGTH above 1024 and ends the command there. -/
theorem decStopsAfterAnOverlongHeader : Obligations.DecStopsAfterAnOverlongHeader := by
  unfold Obligations.DecStopsAfterAnOverlongHeader
  intro s bs rest id st c len running phase header long fifo
  subst header
  have taken := runEvents_dec_header (arriving := []) running (List.append_nil _).symm fifo (.inl rfl)
  rw [receiveEvents, headerBytes_length, List.flatMap_nil, List.append_nil, decStored_headerChecked_overlong long] at taken
  have image := decStored_image (s := s) (id := id) (st := st) (c := c) (len := len) (pl := []) (rest := rest) Eng.idle
  rw [List.append_nil] at image
  exact ⟨_, _, exec_dec phase, taken, rfl, image, fun a => decStored_readByte (pl := []) (rest := rest) Eng.idle⟩

end Sys2Proof.Machine
end

section
/-! SUPPORT. The control actions ABORT, SRST and RXFLUSH (43_control.md R280 to R289): what each does by the Engine's phase, and the settled
statements about them. -/

namespace Sys2Proof.Machine

/-! ### ABORT and RXFLUSH by the Engine's phase -/

/-- ABORT ends the command of a running Engine, and leaves an idle one alone (R280). -/
theorem abort_eq (s : State) : s.abort = if s.eng.phase ≠ .idle then s.finish .aborted false false else s := by
  simp only [State.abort, State.busy, decide_eq_true_eq, State.finishPlain]

/-- RXFLUSH empties the FIFO of an idle block, and sets BSYERR in a running one (R286). -/
theorem rxFlush_eq (s : State) :
    s.rxFlush = if s.eng.phase = .idle then { s with rxq := [] } else { s with irqStatus := s.irqStatus ||| 8 } := by
  obtain ⟨busy, ignored⟩ | ⟨idle, emptied⟩ := rxFlush_case s
  · rw [ignored, if_neg (by simpa [State.busy] using busy)]
    rfl
  · rw [emptied, if_pos (by simpa [State.busy] using idle)]

theorem abort_of_idle {s : State} (phase : s.eng.phase = .idle) : s.abort = s := by
  rw [abort_eq, if_neg (not_not_intro phase)]

/-- An aborted command leaves its record and ERR, and an Engine at rest (R280). -/
theorem abort_of_running {s : State} (phase : s.eng.phase ≠ .idle) :
    s.abort =
      { s with
        eng := Eng.idle, result := resultWord s.eng.op.code .aborted false false, irqStatus := s.irqStatus ||| 2 } := by
  rw [abort_eq, if_pos phase]
  rfl

theorem rxFlush_of_idle {s : State} (phase : s.eng.phase = .idle) : s.rxFlush = { s with rxq := [] } := by
  rw [rxFlush_eq, if_pos phase]

theorem rxFlush_of_running {s : State} (phase : s.eng.phase ≠ .idle) :
    s.rxFlush = { s with irqStatus := s.irqStatus ||| 8 } := by
  rw [rxFlush_eq, if_neg phase]

theorem abort_rxFlush_of_idle {s : State} (phase : s.eng.phase = .idle) : s.abort.rxFlush = { s with rxq := [] } := by
  rw [abort_of_idle phase, rxFlush_of_idle phase]

/-- The ABORT of the same word leaves the Engine at rest, so the FIFO is emptied (R289). -/
theorem abort_rxFlush_of_running {s : State} (phase : s.eng.phase ≠ .idle) :
    s.abort.rxFlush =
      { s with
        eng := Eng.idle, rxq := [], result := resultWord s.eng.op.code .aborted false false,
        irqStatus := s.irqStatus ||| 2 } := by
  rw [abort_of_running phase, rxFlush_of_idle rfl]

/-- The record of an aborted command: code 8 with both report flags 0 (10_state.md R38). -/
theorem resultWord_aborted_low (op : BitVec 4) : (resultWord op .aborted false false).extractLsb' 0 16 = 8 := by
  revert op
  decide

/-! ### The settled statements -/

/-- Settles O42: ABORT alone is `State.abort`; the record's fields are those of `resultWord`. -/
theorem abortEndsTheCommand : Obligations.AbortEndsTheCommand := by
  unfold Obligations.AbortEndsTheCommand
  intro s ign
  obtain ⟨-, reserved⟩ := resultWord_reserved s.eng.op.code .aborted false false
  exact ⟨fun phase => congrArg _ (abort_of_idle phase),
    fun phase => ⟨_, resultWord_aborted_low _, resultWord_op .., reserved, congrArg _ (abort_of_running phase)⟩⟩

/-- Settles O43: RXFLUSH alone is `State.rxFlush`, and with ABORT, in either spelling, `State.rxFlush` after `State.abort`. -/
theorem rxflushEmptiesTheFifo : Obligations.RxflushEmptiesTheFifo := by
  unfold Obligations.RxflushEmptiesTheFifo
  intro s ign
  refine ⟨fun phase => ?_, fun phase => ?_⟩
  · have both := abort_rxFlush_of_idle phase
    exact ⟨congrArg _ (rxFlush_of_idle phase), congrArg _ both, congrArg _ both⟩
  · have both := abort_rxFlush_of_running phase
    obtain ⟨-, reserved⟩ := resultWord_reserved s.eng.op.code .aborted false false
    exact ⟨congrArg _ (rxFlush_of_running phase), _, resultWord_aborted_low _, resultWord_op .., reserved, congrArg _ both,
      congrArg _ both⟩

/-- Settles O44: each case of `CtrlCase` fixes the word's low three bits, and ABORT and RXFLUSH go by the Engine's phase. -/
theorem ctrlWriteResolvesItsBits : Obligations.CtrlWriteResolvesItsBits := by
  unfold Obligations.CtrlWriteResolvesItsBits
  intro s v
  obtain ⟨t, written, c⟩ := ctrlWrite_case s v
  rw [written]
  cases c with
  | srst h1 => simp only [h1, if_true]
  | abort h1 h0 h2 => simp only [h1, h0, h2, abort_eq, true_and, Bool.false_eq_true, if_false]
  | abortFlush h1 h0 h2 => simp only [h1, h0, h2, rxFlush_eq, abort_eq, true_and, Bool.false_eq_true, if_false, if_true]
  | flush h1 h0 h2 => simp only [h1, h0, h2, rxFlush_eq, false_and, Bool.false_eq_true, if_false, if_true]
  | nothing h1 h0 h2 => simp only [h1, h0, h2, false_and, Bool.false_eq_true, if_false]

/-- Settles O13: SRST is `State.softReset` whatever its other bits, which is the reset state with these fields kept. -/
theorem srstResetsTheBlock : Obligations.SrstResetsTheBlock := by
  unfold Obligations.SrstResetsTheBlock
  intro s v0 v2 ign
  have resets : exec (.srst v0 v2 ign) s = .next s.softReset := rfl
  rw [resets, State.softReset]

end Sys2Proof.Machine
end

section
/-! SUPPORT. The endings of a command (60_exceptions.md R302, R305): each of its steps that leaves the Engine idle completes it with a code of its
row, and the settled statement about this. -/

namespace Sys2Proof.Machine

/-! ### A completion that the table of R302 allows -/

/-- In `t` a command `op` has ended as R302 and R305 say: RESULT holds its record, with a code of its row, and IRQ_STATUS, which was `q`, has got
the bit of that code. -/
def EndsByTable (op : EngOp) (q : BitVec 4) (t : State) : Prop :=
  ∃ (c : ErrCode) (m u : Bool), mayEndWith op c = true ∧ t.result = resultWord op.code c m u ∧ t.irqStatus = q ||| completionIrq c ∧
    (m = true ∨ u = true → c = .none ∧ (op = .decb ∨ op = .dec))

theorem finishPlain_ends {s : State} {c : ErrCode} (allowed : mayEndWith s.eng.op c = true) :
    EndsByTable s.eng.op s.irqStatus (s.finishPlain c) :=
  ⟨c, false, false, allowed, rfl, rfl, by simp⟩

/-- Every command may end with NONE and with ABORTED (R302). -/
theorem mayEndWith_none_aborted {op : EngOp} (command : op ≠ .none) : mayEndWith op .none = true ∧ mayEndWith op .aborted = true := by
  cases op with
  | none => exact absurd rfl command
  | encb | decb | send | recv | enc | dec => exact ⟨rfl, rfl⟩

theorem completionIrq_done (c : ErrCode) : (completionIrq c).getLsbD 0 = decide (c = .none) := by
  cases c <;> rfl

theorem completionIrq_err (c : ErrCode) : (completionIrq c).getLsbD 1 = decide (c ≠ .none) := by
  cases c <;> rfl

/-! ### The command that runs in a phase (30_encoding.md R128) -/

theorem command_of_busy {s : State} (consistent : engineConsistent s) (busy : s.eng.phase ≠ .idle) : s.eng.op ≠ .none := by
  intro none
  cases phase : s.eng.phase
  case idle => exact busy phase
  all_goals simp [engineConsistent, phase, none] at consistent -- each other phase names its commands

theorem command_of_receives {s : State} (consistent : engineConsistent s) (receives : s.eng.phase.receives = true) :
    s.eng.phase = .rxRaw ∧ s.eng.op = .recv ∨ (s.eng.phase = .rxHdr ∨ s.eng.phase = .rxPay) ∧ s.eng.op = .dec := by
  cases phase : s.eng.phase <;> simp only [engineConsistent, phase] at consistent
  case rxRaw =>
    obtain ⟨op, -⟩ := consistent
    exact .inl ⟨rfl, op⟩
  case rxHdr =>
    obtain ⟨op, -⟩ := consistent
    exact .inr ⟨.inl rfl, op⟩
  case rxPay =>
    obtain ⟨op, -⟩ := consistent
    exact .inr ⟨.inr rfl, op⟩
  all_goals simp [phase, Phase.receives] at receives

/-! ### Encoding -/

/-- ENCB and ENC may end with what the operand check finds (40_frame_codec.md R166). -/
theorem mayEndWith_encodeError (s : State) {op : EngOp} (encodes : op = .encb ∨ op = .enc) : mayEndWith op s.encodeError = true := by
  unfold State.encodeError
  obtain rfl | rfl := encodes <;> split_ifs <;> rfl

theorem encbBuild_ends {s : State} (op : s.eng.op = .encb) : EndsByTable s.eng.op s.irqStatus s.encbBuild := by
  unfold State.encbBuild
  split
  · rw [State.encbBuilt, buildHeader_eq]
    exact finishPlain_ends (by simp only [op, mayEndWith])
  · exact finishPlain_ends (mayEndWith_encodeError s (.inl op))

theorem encBuild_ends {s : State} (op : s.eng.op = .enc) (ends : s.encBuild.eng.phase = .idle) :
    EndsByTable s.eng.op s.irqStatus s.encBuild := by
  unfold State.encBuild at ends ⊢
  split
  · next legal => simp [legal, State.encBuilt] at ends
  · exact finishPlain_ends (mayEndWith_encodeError s (.inr op))

/-! ### Decoding -/

/-- A successful decode reports its flags (40_frame_codec.md R174, R175). -/
theorem decodeDone_ends {s : State} (decodes : s.eng.op = .decb ∨ s.eng.op = .dec) :
    EndsByTable s.eng.op s.irqStatus s.decodeDone :=
  ⟨.none, _, _, (mayEndWith_none_aborted fun none => by simp [none] at decodes).1, rfl, rfl, fun _ => ⟨rfl, decodes⟩⟩

theorem decbPayload_ends {s : State} (op : s.eng.op = .decb) : EndsByTable s.eng.op s.irqStatus s.decbPayload := by
  unfold State.decbPayload
  split
  · exact finishPlain_ends (by simp only [op, mayEndWith])
  · split
    · exact finishPlain_ends (by simp only [op, mayEndWith])
    · exact decodeDone_ends (s := { s with xferCount := 8 + s.rxLength }) (.inl op)

theorem decbParse_ends {s : State} (op : s.eng.op = .decb) : EndsByTable s.eng.op s.irqStatus s.decbParse := by
  unfold State.decbParse
  split
  · exact finishPlain_ends (by simp only [op, mayEndWith])
  · exact decbPayload_ends (s := { s.latchHeader with xferCount := 8 }) op

theorem headerChecked_ends {s : State} (op : s.eng.op = .dec) (ends : s.headerChecked.eng.phase = .idle) :
    EndsByTable s.eng.op s.irqStatus s.headerChecked := by
  unfold State.headerChecked at ends ⊢
  split_ifs at ends ⊢
  · exact finishPlain_ends (by simp only [op, mayEndWith])
  · exact decodeDone_ends (.inr op)

/-! ### Bytes -/

/-- The end of a receive phase, where it is the end of RECV or DEC (41_byte_transport.md R206). -/
theorem phaseDone_ends {s : State}
    (command : s.eng.phase = .rxRaw ∧ s.eng.op = .recv ∨ (s.eng.phase = .rxHdr ∨ s.eng.phase = .rxPay) ∧ s.eng.op = .dec)
    (ends : s.phaseDone.eng.phase = .idle) : EndsByTable s.eng.op s.irqStatus s.phaseDone := by
  obtain ⟨phase, op⟩ | ⟨phase | phase, op⟩ := command <;> simp only [State.phaseDone, phase] at ends ⊢
  · exact finishPlain_ends (by simp only [op, mayEndWith])
  · exact headerChecked_ends (s := s.latchHeader) op ends
  · exact decodeDone_ends (.inr op)

theorem rxByte_ends {s : State} (consistent : engineConsistent s) (b : Byte) (rest : List Byte) (receives : s.eng.phase.receives = true)
    (ends : (s.rxByte b rest).eng.phase = .idle) : EndsByTable s.eng.op s.irqStatus (s.rxByte b rest) := by
  have command := command_of_receives consistent receives
  rw [rxByte_eq, State.phaseChecked] at ends ⊢
  split_ifs at ends ⊢
  · exact phaseDone_ends (s := s.rxMoved b rest) command ends
  · have idle : s.eng.phase = .idle := ends -- a byte that moves leaves the phase as it is
    simp [idle] at command

theorem txEmit_ends {s : State} (command : s.eng.op ≠ .none) (valid : s.txValid = true) (ends : s.txEmit.eng.phase = .idle) :
    EndsByTable s.eng.op s.irqStatus s.txEmit := by
  unfold State.txEmit at ends ⊢
  split_ifs at ends ⊢
  · exact finishPlain_ends (s := s.txMoved) (mayEndWith_none_aborted command).1
  · simp [(txValid_iff.1 valid).1] at ends

/-- A timeout ends RECV with TIMEOUT, DEC with the framing error of its phase (41_byte_transport.md R207). -/
theorem timeout_ends {s : State} (consistent : engineConsistent s) (receives : s.eng.phase.receives = true) :
    EndsByTable s.eng.op s.irqStatus s.timeout := by
  refine finishPlain_ends ?_
  obtain ⟨phase, op⟩ | ⟨phase | phase, op⟩ := command_of_receives consistent receives <;> rw [phase, op] <;> rfl

/-! ### Every event -/

theorem EngineCase.ends {s t : State} (c : EngineCase s t) (consistent : engineConsistent s) (busy : s.eng.phase ≠ .idle)
    (ends : t.eng.phase = .idle) : EndsByTable s.eng.op s.irqStatus t := by
  cases c with
  | waits => exact absurd ends busy
  | encbBuild _ op => exact encbBuild_ends op
  | encBuild _ op => exact encBuild_ends op ends
  | decbParse _ op => exact decbParse_ends op
  | finishEmpty => exact finishPlain_ends (mayEndWith_none_aborted (command_of_busy consistent busy)).1
  | rxByte b rest phase => exact rxByte_ends consistent b rest (receives_of_phase phase) ends

/-- An event that ends a running command, but no reset, ends it by the table. -/
theorem BusyCase.ends {s t : State} {e : Event} (c : BusyCase s e t) (consistent : engineConsistent s) (busy : s.eng.phase ≠ .idle)
    (ends : t.eng.phase = .idle) (noReset : e ≠ .rst true) (noSrst : ∀ v : Word, e = issue .ctrl v → v.getLsbD 1 = false) :
    EndsByTable s.eng.op s.irqStatus t := by
  have command := command_of_busy consistent busy
  cases c with
  | undisturbed u => exact absurd (u.eng ▸ ends) busy
  | engine => exact (engineStep_case s).ends consistent busy ends
  | txEmit _ valid => exact txEmit_ends command valid ends
  | timeout enabled =>
    obtain ⟨receiving, -, -⟩ := timerEnabled_iff.1 enabled
    obtain ⟨receives, -⟩ := receiving_iff.1 receiving
    exact timeout_ends consistent receives
  | aborted => exact finishPlain_ends (mayEndWith_none_aborted command).2
  | srst v h1 => exact absurd ((noSrst v rfl).symm.trans h1) Bool.false_ne_true
  | hardReset => exact absurd rfl noReset

/-- Settles O55: each event that ends a running command, but a reset, is a completion by the table, by cases on what the event does. -/
theorem commandsEndAsTheTableSays : Obligations.CommandsEndAsTheTableSays := by
  unfold Obligations.CommandsEndAsTheTableSays
  intro s t e inv busy h ends noReset noSrst
  have step := busyCase_of h (busy_of_phase rfl busy)
  obtain ⟨c, m, u, allowed, result, irq, flags⟩ := step.ends inv.engine busy ends noReset noSrst
  refine ⟨c, m, u, allowed, result, ?_, ?_, flags⟩
  · rw [irq, BitVec.getLsbD_or, completionIrq_done]
  · rw [irq, BitVec.getLsbD_or, completionIrq_err]

end Sys2Proof.Machine
end

section
/-! SUPPORT. The two resets (70_reset_and_hazards.md R350 to R353): what the host reads after one, what an event does while the `rst` pin is
active, and the settled statements about them. -/

namespace Sys2Proof.Machine

/-! ### What the host reads after a reset -/

/-- SRST keeps no field that a register shows, so every register reads as after the hardware reset (R352). -/
theorem softReset_readReg (s : State) (r : Reg) (depth : Nat) : s.softReset.readReg r depth = State.reset.readReg r depth := by
  cases r <;> rfl

/-- A buffer byte that nothing has written since the last reset is its free draw (R53). -/
theorem readByte_of_mem_nil {s : State} (mem : s.mem = []) (a : Nat) : s.readByte a = Config.bufDraw s.draws a := by
  rw [State.readByte, mem]
  rfl

/-! ### One event with `rst` active (R350) -/

/-- While `rst` is active no agent takes a step, and a byte offered is lost. -/
theorem run_held {s : State} {d : Nat} {e : Event} (held : s.rstActive = true) (noPin : ∀ l, e ≠ .rst l) :
    runEvent e s d = .next s := by
  cases e with
  | rst l => exact absurd rfl (noPin l)
  | _ => simp only [runEvent, held, if_true]

/-- The pin alone moves, and going inactive it leaves the block as the reset made it (R353). -/
theorem run_rst_held {s : State} {d : Nat} (l : Bool) (held : s.rstActive = true) :
    runEvent (.rst l) s d = .next { s with rstActive := l } := by
  simp only [runEvent, held, if_true]

/-! ### The settled statements -/

/-- Settles O10: after either reset the registers are those of `State.reset`, no buffer byte has been written, and nothing is pending. -/
theorem registersAfterReset : Obligations.RegistersAfterReset := by
  unfold Obligations.RegistersAfterReset
  intro s t resets
  obtain ⟨regs, mem, pending⟩ : (∀ r, t.readReg r = State.reset.readReg r) ∧ t.mem = [] ∧ t.irqStatus = 0 := by
    obtain rfl | srst := resets
    · exact ⟨fun _ => rfl, rfl, rfl⟩
    · cases srst
      exact ⟨fun r => softReset_readReg s r _, softReset_mem s, softReset_irqStatus s⟩
  have irq : t.irq = false := by simp [State.irq, pending]
  simp only [regs]
  exact ⟨rfl, rfl, rfl, rfl, rfl, rfl, rfl, rfl, rfl, rfl, rfl, rfl, rfl, rfl, readByte_of_mem_nil mem, irq⟩

/-- Settles O14: a released pin going active is `State.hardReset`; an active pin holds the block until it is released. -/
theorem hardwareResetHoldsTheBlock : Obligations.HardwareResetHoldsTheBlock := by
  unfold Obligations.HardwareResetHoldsTheBlock
  intro s
  exact ⟨fun running => run_rst true running, fun held _ noPin => run_held held noPin, fun held => run_rst_held false held⟩

end Sys2Proof.Machine
end
